-- ==== Sys2Proof/Word.lean ====
section
/-! DEFINITION. The bit vectors the LZW12 core moves (spec 00_scope R4, R6; 30_encoding R65, R72).
Bit 0 is the least significant bit of every one of them, and all are unsigned. -/

namespace Sys2Proof

/-- A command word or a response word (30_encoding R65, R72). -/
abbrev Word := BitVec 64

/-- A byte of either byte port, a character (00_scope R4). -/
abbrev Byte := BitVec 8

/-- A code of the wire and of the tables (00_scope R4, 30_encoding R61). -/
abbrev Code := BitVec 12

/-- An EncodeDictionary slot index as a command or a response carries it (30_encoding R65, R72). -/
abbrev SlotIndex := BitVec 13

end Sys2Proof
end

