-- ==== Sys2Proof/Config.lean ====
section
/-! DEFINITION. The parameters spec 00_scope R5 leaves to a model's argument. The values this hardware takes stand
in Machine/Params.lean. -/

namespace Sys2Proof

/-- The four parameters of 00_scope R5. -/
structure Config where
  /-- `CAPACITY`: the number of EncodeDictionary slots. -/
  capacity : Nat
  /-- `HASH_SHIFT`: how far the hash shifts the character. -/
  hashShift : Nat
  /-- `MAX_FIELD_WIDTH`: the widest field RDBITS and WRBITS move. -/
  maxFieldWidth : Nat
  /-- `STACK_DEPTH`: the number of entries of the reconstruction stack. -/
  stackDepth : Nat
  deriving DecidableEq, Repr

/-- The constraints 00_scope R5 puts on the parameters, with the two the spec's own word layouts add: a slot index
and `sp` fit their 13 bits (30_encoding R72, 10_state R15) and a field fits the 32 bits of `value` and `data`. -/
structure Config.Valid (cfg : Config) : Prop where
  prime : cfg.capacity.Prime
  large : 4095 < cfg.capacity
  capacityFits : cfg.capacity ≤ 8192
  shift : cfg.hashShift ≤ 8
  width : 12 ≤ cfg.maxFieldWidth
  widthFits : cfg.maxFieldWidth ≤ 32
  depth : 3840 ≤ cfg.stackDepth
  depthFits : cfg.stackDepth < 8192

end Sys2Proof
end

