-- ==== Sys2Proof/Machine/Params.lean ====
section
/-! DEFINITION. The constants of spec 00_scope R4 and the parameter values of R5 that this hardware takes. -/

namespace Sys2Proof.Machine

/-- The parameters at the values this hardware takes (00_scope R5; log entry 10). -/
def hw : Config where
  capacity := 5021
  hashShift := 4
  maxFieldWidth := 32
  stackDepth := 4096

/-- `CODE_BITS`: the width of every code on the wire (00_scope R4). -/
def codeBits : Nat := 12

/-- `MAX_CODE`: the largest code (00_scope R4). -/
def maxCode : Nat := 4095

/-- `EOS`: the END_OF_STREAM sentinel (00_scope R4). -/
def eos : Nat := 256

/-- `FIRST_CODE`: the first dynamically assigned code (00_scope R4). -/
def firstCode : Nat := 257

/-- `MAX_ENTRIES`: the most slots ENCODE ever occupies (00_scope R4). -/
def maxEntries : Nat := 3839

end Sys2Proof.Machine
end

