-- ==== Sys2Proof/Syntax.lean ====
section
/-! DEFINITION. The fourteen commands, one constructor for each row of spec/opcode_table.json, with the operands of
30_encoding R66 at the widths of R65. -/

namespace Sys2Proof

/-- A command of the core (30_encoding R66, R67). -/
inductive Instr where
  /-- RDBIT: read one bit (R81). -/
  | rdbit
  /-- RDBITS n: read an `n`-bit field (R82). -/
  | rdbits (n : BitVec 6)
  /-- WRBIT bit: write one bit (R91). -/
  | wrbit (bit : Bool)
  /-- WRBITS value, n: write an `n`-bit field (R92). -/
  | wrbits (n : BitVec 6) (value : BitVec 32)
  /-- WRCLOSE: flush and close (R93). -/
  | wrclose
  /-- DCLR: clear the dictionary (R103). -/
  | dclr
  /-- DPROBE parent, ch: look up a key (R104). -/
  | dprobe (parent : Code) (ch : Byte)
  /-- DRSRV slot, code, parent, ch: reserve a slot (R105). -/
  | drsrv (slot : SlotIndex) (code parent : Code) (ch : Byte)
  /-- TCLR: clear the table (R111). -/
  | tclr
  /-- TASSIGN code, parent, ch: assign a cell (R112). -/
  | tassign (code parent : Code) (ch : Byte)
  /-- TWALK code: resolve a code onto the stack (R114). -/
  | twalk (code : Code)
  /-- TEMIT: write the stack to the sink (R115). -/
  | temit
  /-- ENCODE: run one whole encode operation (R120). -/
  | encode
  /-- DECODE: run one whole decode operation (R130). -/
  | decode
  deriving DecidableEq, Repr

end Sys2Proof
end

