-- ==== Sys2Proof/WellFormed.lean ====
section
/-! DEFINITION. Which commands carry operands that spec 30_encoding R75 calls legal, as far as the command word alone
can say. The two checks of R75 that look at the tables (`ed_used[slot]`, `dt_used[code]`) are made by the meanings.
A word whose operands are not legal still decodes (it is no ILLEGAL_COMMAND, R68): its meaning records ILLEGAL_WIDTH or
ILLEGAL_OPERAND. -/

namespace Sys2Proof

/-- A field width RDBITS and WRBITS take (R75). -/
def legalWidth (cfg : Config) (n : BitVec 6) : Bool :=
  decide (1 ≤ n.toNat) && decide (n.toNat ≤ cfg.maxFieldWidth)

/-- A code that may be reserved or assigned, 257 to 4095 (R75). -/
def legalCode (code : Code) : Bool :=
  decide (Machine.firstCode ≤ code.toNat) && decide (code.toNat ≤ Machine.maxCode)

/-- A slot index inside the dictionary (R75). -/
def legalSlot (cfg : Config) (slot : SlotIndex) : Bool :=
  decide (slot.toNat < cfg.capacity)

/-- The operands of `i` are in the ranges of R75. -/
def wellFormed (cfg : Config) : Instr → Bool
  | .rdbit => true
  | .rdbits n => legalWidth cfg n
  | .wrbit _ => true
  | .wrbits n _ => legalWidth cfg n
  | .wrclose => true
  | .dclr => true
  | .dprobe _ _ => true
  | .drsrv slot code _ _ => legalSlot cfg slot && legalCode code
  | .tclr => true
  | .tassign code _ _ => legalCode code
  | .twalk _ => true
  | .temit => true
  | .encode => true
  | .decode => true

end Sys2Proof
end

