-- ==== Sys2Proof/Decode.lean ====
section
/-! DEFINITION. The command word of spec 30_encoding R65 to R69: the decoder, total on 64-bit words and rejecting by
name, then the encoder. -/

namespace Sys2Proof

/-- Why a word is illegal (30_encoding R68); both reasons raise ILLEGAL_COMMAND. -/
inductive Reject where
  /-- R68 (a): `op` is 0x0 or 0xF. -/
  | reservedOp
  /-- R68 (b): a bit outside `op` and the used fields of the format is 1. -/
  | mustBeZero
  deriving DecidableEq, Repr

/-- `cmd[63:60]` (R65). -/
def opField (w : Word) : BitVec 4 := w.extractLsb' 60 4

/-- `cmd[59:54]` (R65). -/
def nField (w : Word) : BitVec 6 := w.extractLsb' 54 6

/-- `cmd[44:32]` (R65). -/
def slotField (w : Word) : SlotIndex := w.extractLsb' 32 13

/-- `cmd[31:20]` (R65). -/
def codeField (w : Word) : Code := w.extractLsb' 20 12

/-- `cmd[19:8]` (R65). -/
def parentField (w : Word) : Code := w.extractLsb' 8 12

/-- `cmd[7:0]` (R65). -/
def chField (w : Word) : Byte := w.extractLsb' 0 8

/-- `cmd[31:0]` (R65). -/
def valueField (w : Word) : BitVec 32 := w.extractLsb' 0 32

/-- `cmd[0]` (R65). -/
def bitField (w : Word) : Bool := w.getLsbD 0

/-- One row of the opcode map: the word is the command `i` when its masked bits are the row's match (R67), and
otherwise a must-be-zero bit is set (R68 (b)). -/
def matchRow (w pattern mask : Word) (i : Instr) : Except Reject Instr :=
  if w &&& mask = pattern then .ok i else .error .mustBeZero

/-- The command a word stands for (30_encoding R67, R68, R69). -/
def decode (w : Word) : Except Reject Instr :=
  match (opField w).toNat with
  | 0x1 => matchRow w 0x1000000000000000 0xFFFFFFFFFFFFFFFF .rdbit
  | 0x2 => matchRow w 0x2000000000000000 0xF03FFFFFFFFFFFFF (.rdbits (nField w))
  | 0x3 => matchRow w 0x3000000000000000 0xFFFFFFFFFFFFFFFE (.wrbit (bitField w))
  | 0x4 => matchRow w 0x4000000000000000 0xF03FFFFF00000000 (.wrbits (nField w) (valueField w))
  | 0x5 => matchRow w 0x5000000000000000 0xFFFFFFFFFFFFFFFF .wrclose
  | 0x6 => matchRow w 0x6000000000000000 0xFFFFFFFFFFFFFFFF .dclr
  | 0x7 => matchRow w 0x7000000000000000 0xFFFFFFFFFFF00000 (.dprobe (parentField w) (chField w))
  | 0x8 => matchRow w 0x8000000000000000 0xFFFFE00000000000
      (.drsrv (slotField w) (codeField w) (parentField w) (chField w))
  | 0x9 => matchRow w 0x9000000000000000 0xFFFFFFFFFFFFFFFF .tclr
  | 0xA => matchRow w 0xA000000000000000 0xFFFFFFFF00000000
      (.tassign (codeField w) (parentField w) (chField w))
  | 0xB => matchRow w 0xB000000000000000 0xFFFFFFFF000FFFFF (.twalk (codeField w))
  | 0xC => matchRow w 0xC000000000000000 0xFFFFFFFFFFFFFFFF .temit
  | 0xD => matchRow w 0xD000000000000000 0xFFFFFFFFFFFFFFFF .encode
  | 0xE => matchRow w 0xE000000000000000 0xFFFFFFFFFFFFFFFF .decode
  | _ => .error .reservedOp

/-- A word of the fields `slot`, `code`, `parent` and `ch`, with `n` and the must-be-zero field 0 (R65). -/
def tableFields (op : BitVec 4) (slot : SlotIndex) (code parent : Code) (ch : Byte) : Word :=
  op ++ 0#15 ++ slot ++ code ++ parent ++ ch

/-- A word of the fields `n` and `value` (R65). -/
def bitFields (op : BitVec 4) (n : BitVec 6) (value : BitVec 32) : Word :=
  op ++ n ++ 0#22 ++ value

/-- The word of a command (30_encoding R65, R66, R67, R73). -/
def encode : Instr → Word
  | .rdbit => bitFields 0x1 0 0
  | .rdbits n => bitFields 0x2 n 0
  | .wrbit bit => bitFields 0x3 0 (BitVec.setWidth 32 (BitVec.ofBool bit))
  | .wrbits n value => bitFields 0x4 n value
  | .wrclose => bitFields 0x5 0 0
  | .dclr => bitFields 0x6 0 0
  | .dprobe parent ch => tableFields 0x7 0 0 parent ch
  | .drsrv slot code parent ch => tableFields 0x8 slot code parent ch
  | .tclr => bitFields 0x9 0 0
  | .tassign code parent ch => tableFields 0xA 0 code parent ch
  | .twalk code => tableFields 0xB 0 code 0 0
  | .temit => bitFields 0xC 0 0
  | .encode => bitFields 0xD 0 0
  | .decode => bitFields 0xE 0 0

/-- The command word whose `nbits` low bits are the number `w`, every higher bit being 0. A command is one word
(30_encoding R71), so the number of spec/opcode_table.json is the word itself (log entry 14). -/
def tableWord (nbits w : Nat) : Word := BitVec.ofNat 64 (w % 2 ^ nbits)

/-- The command the decoder reads from an instruction whose bits are `w`, numbered as spec/opcode_table.json numbers
them. -/
def decodeTableWord (nbits w : Nat) : Option Instr :=
  match decode (tableWord nbits w) with
  | .ok i => some i
  | .error _ => none

end Sys2Proof
end

