-- ==== Sys2Proof/Machine/State.lean ====
section
/-! DEFINITION. The state of the core as plain data (spec 10_state R10 to R21), the model's three port fields
(30_encoding R70; 20_memory R46, R54), and the state right after reset (70_reset_and_hazards R170). -/

namespace Sys2Proof.Machine

/-- The register `mode` (10_state R18): which machine the phase belongs to. -/
inductive Mode where
  /-- 0, no operation started since reset. -/
  | none
  /-- 1, the Encoder. -/
  | enc
  /-- 2, the Decoder. -/
  | dec
  deriving DecidableEq, Repr

/-- The register `phase` (10_state R18). -/
inductive Phase where
  /-- 0, no operation started since reset. -/
  | idle
  /-- 1, an operation is under way. -/
  | scanning
  /-- 2, the operation is over. -/
  | done
  deriving DecidableEq, Repr

/-- The non-zero values of the register `fault` (60_exceptions R141). -/
inductive FaultCode where
  /-- 1: a source transaction failed (R145). -/
  | srcIo
  /-- 2: a sink transaction failed (R147). -/
  | snkIo
  /-- 3: a word that is no command (R146). -/
  | illegalCommand
  /-- 4: a field width outside 1 to `MAX_FIELD_WIDTH` (R148). -/
  | illegalWidth
  /-- 5: a write to, or a close of, a closed sink (R149). -/
  | sinkClosed
  /-- 6: an operand DRSRV or TASSIGN does not take (R150). -/
  | illegalOperand
  /-- 7: a walk reached code 256 or an UNUSED cell (R151). -/
  | tableUnassigned
  /-- 8: a push onto a full stack (R152). -/
  | stackOverflow
  /-- 9: a probe of a full dictionary without a match (R153). -/
  | probeExhausted
  deriving DecidableEq, Repr

/-- An occupied EncodeDictionary slot: `ed_code`, `ed_parent`, `ed_char` (10_state R13). -/
structure DictEntry where
  code : Code
  parent : Code
  char : Byte
  deriving DecidableEq, Repr

/-- An assigned DecodeTable cell: `dt_parent`, `dt_char` (10_state R14). -/
structure TableEntry where
  parent : Code
  char : Byte
  deriving DecidableEq, Repr

/-- What the host does to the core between steps (20_memory R54). -/
inductive HostAction where
  /-- It presents one command word (30_encoding R70). -/
  | command (w : Word)
  /-- BIND: it replaces both streams (20_memory R45). -/
  | bind (bytes : List Byte)
  /-- It asserts reset while no command runs (70_reset_and_hazards R170). -/
  | reset
  /-- It presents a command word and asserts reset before the command ends (70_reset_and_hazards R171). -/
  | resetDuring (w : Word)
  deriving DecidableEq, Repr

/-- The host's answer to one port transaction (20_memory R46, R54; 70_reset_and_hazards R183). -/
inductive PortAnswer where
  /-- The transaction is carried out. -/
  | ok
  /-- The transaction fails and transfers nothing (R46). -/
  | fail
  /-- The host never answers, against its duty (R54, R183). -/
  | never
  deriving DecidableEq, Repr

/-- Why the machine stops with no next state. A fault of the spec is no such stop: it is recorded in the register
`fault` and the machine goes on (60_exceptions R142). -/
inductive Fault where
  /-- Raised by a port transaction (`SrcRead`, `SnkWrite`) that the host never answers: the core waits for ever in the
  middle of the command (70_reset_and_hazards R183; 93 U16, "stuck"). Safe: the model stops where the hardware makes
  no progress. -/
  | portNeverAnswered
  deriving DecidableEq, Repr

/-- Why a step has no meaning. -/
inductive Refusal where
  /-- Raised by an arm of `exec` whose instruction has no meaning in the model; no arm does. Safe: the model stops. -/
  | notModelled (mnemonic : String)
  deriving DecidableEq, Repr

/-- The state. Every field but the last three is a piece of state of 10_state R10. -/
structure State where
  /-- `rd_rack`: the byte last pulled from the source (R11). -/
  rdRack : Byte
  /-- `rd_cnt`: how many bits of `rd_rack` are not yet delivered, 0 to 8 (R11). -/
  rdCnt : BitVec 4
  /-- `wr_rack`: the accumulating byte (R12). -/
  wrRack : Byte
  /-- `wr_cnt`: how many bits are placed in `wr_rack`, 0 to 7 (R12). -/
  wrCnt : BitVec 3
  /-- The occupied EncodeDictionary slots by rising slot number: slot `s` is listed exactly when `ed_used[s] = 1`, with
  `ed_code[s]`, `ed_parent[s]` and `ed_char[s]` (R13). -/
  dict : List (Nat × DictEntry)
  /-- The assigned DecodeTable cells by rising code: cell `c` is listed exactly when `dt_used[c] = 1`, with
  `dt_parent[c]` and `dt_char[c]` (R14). -/
  table : List (Nat × TableEntry)
  /-- `stk`: the stack entries that are not 0, by rising index; an entry not listed holds 0 (R15; log entry 8). -/
  stk : List Host.Cell
  /-- `sp`: the number of valid stack entries, 0 to `STACK_DEPTH` (R15). -/
  sp : BitVec 13
  /-- `enc_cur` (R16). -/
  encCur : Code
  /-- `enc_next`, 257 to 4096 (R16). -/
  encNext : BitVec 13
  /-- `dec_old` (R17). -/
  decOld : Code
  /-- `dec_next`, 257 to 4096 (R17). -/
  decNext : BitVec 13
  /-- `mode` (R18). -/
  mode : Mode
  /-- `phase` (R18). -/
  phase : Phase
  /-- `fault`: `none` is 0 (R19, R141). -/
  fault : Option FaultCode
  /-- `src`: the bound source (R20). -/
  src : List Byte
  /-- `src_pos`: how many bytes of `src` have been read (R20). -/
  srcPos : Nat
  /-- `snk`: the bytes written to the bound sink, in order (R21). -/
  snk : List Byte
  /-- `snk_closed` (R21). -/
  snkClosed : Bool
  /-- The model's own: the last response word, or none when no command has responded since reset (30_encoding R70,
  R72; log entry 4). -/
  rsp : Option Word
  /-- The model's own: what the host does next, first action first (20_memory R54; log entry 1). -/
  host : List HostAction
  /-- The model's own: how the host answers the next port transactions, first answer first; when the list is used up
  every transaction is carried out (20_memory R46; log entry 2). -/
  answers : List PortAnswer
  deriving DecidableEq, Repr

/-- The state after reset (70_reset_and_hazards R170). -/
def State.reset : State where
  rdRack := 0
  rdCnt := 0
  wrRack := 0
  wrCnt := 0
  dict := []
  table := []
  stk := []
  sp := 0
  encCur := 0
  encNext := 257
  decOld := 0
  decNext := 257
  mode := .none
  phase := .idle
  fault := none
  src := []
  srcPos := 0
  snk := []
  snkClosed := false
  rsp := none
  host := []
  answers := []

end Sys2Proof.Machine
end

