-- ==== Sys2Proof/Machine/Flags.lean ====
section
/-! DEFINITION. The core has no condition codes (spec 10_state R19). Its status outputs are the response word of
30_encoding R72, built here, and the fault codes of 60_exceptions R141. -/

namespace Sys2Proof.Machine

/-- The value of the register `fault` for a recorded fault (60_exceptions R141). -/
def faultBits : FaultCode → BitVec 4
  | .srcIo => 1
  | .snkIo => 2
  | .illegalCommand => 3
  | .illegalWidth => 4
  | .sinkClosed => 5
  | .illegalOperand => 6
  | .tableUnassigned => 7
  | .stackOverflow => 8
  | .probeExhausted => 9

/-- The four bits of the register `fault` (10_state R19): 0 when no fault is recorded. -/
def faultRegister : Option FaultCode → BitVec 4
  | none => 0
  | some f => faultBits f

/-- `rsp[63:0]` from its fields, bits 55:46 being 0 (30_encoding R72). -/
def responseWord (status fcode : BitVec 4) (found : Bool) (idx : BitVec 13) (data : BitVec 32) : Word :=
  status ++ fcode ++ 0#10 ++ BitVec.ofBool found ++ idx ++ data

/-- Status OK with its results (30_encoding R72). -/
def okWord (found : Bool) (idx : BitVec 13) (data : BitVec 32) : Word :=
  responseWord 0 0 found idx data

/-- Status OK with no result (30_encoding R72). -/
def okPlain : Word := okWord false 0 0

/-- Status OK with `data` alone (30_encoding R72: RDBIT, RDBITS). -/
def okData (data : BitVec 32) : Word := okWord false 0 data

/-- Status OK with `idx` alone (30_encoding R72: TEMIT). -/
def okIndex (idx : BitVec 13) : Word := okWord false idx 0

/-- Status EOF (30_encoding R72). -/
def eofWord : Word := responseWord 1 0 false 0 0

/-- Status FAULT with the recorded code (30_encoding R72, 60_exceptions R142). -/
def faultWord (f : FaultCode) : Word := responseWord 2 (faultBits f) false 0 0

/-- `rsp[63:60]` (30_encoding R72). -/
def rspStatus (w : Word) : BitVec 4 := w.extractLsb' 60 4

/-- `rsp[59:56]` (30_encoding R72). -/
def rspFcode (w : Word) : BitVec 4 := w.extractLsb' 56 4

/-- `rsp[45]` (30_encoding R72). -/
def rspFound (w : Word) : Bool := w.getLsbD 45

/-- `rsp[44:32]` (30_encoding R72). -/
def rspIdx (w : Word) : BitVec 13 := w.extractLsb' 32 13

/-- `rsp[31:0]` (30_encoding R72). -/
def rspData (w : Word) : BitVec 32 := w.extractLsb' 0 32

end Sys2Proof.Machine
end

