-- ==== Sys2Proof/Machine/Ops.lean ====
section
/-! DEFINITION. The operations the commands share: sparse tables, the two byte ports (spec 20_memory R41 to R46),
recording a fault and ending a command (60_exceptions R142, R143), BIND (20_memory R45) and reset
(70_reset_and_hazards R170, R171). -/

namespace Sys2Proof.Machine

/-! ## Sparse tables: lists sorted by index, each index at most once -/

/-- The element at index `i`, if one is listed. -/
def lookup {α : Type} : List (Nat × α) → Nat → Option α
  | [], _ => none
  | (j, x) :: rest, i => if j = i then some x else lookup rest i

/-- `m` with the element at index `i` replaced by `x`. -/
def insert {α : Type} : List (Nat × α) → Nat → α → List (Nat × α)
  | [], i, x => [(i, x)]
  | (j, y) :: rest, i, x =>
    if i < j then (i, x) :: (j, y) :: rest
    else if i = j then (i, x) :: rest
    else (j, y) :: insert rest i x

/-- `m` with nothing listed at index `i`. -/
def erase {α : Type} : List (Nat × α) → Nat → List (Nat × α)
  | [], _ => []
  | (j, y) :: rest, i => if j = i then rest else (j, y) :: erase rest i

/-- The indices of `m` rise strictly. -/
abbrev rising {α : Type} (m : List (Nat × α)) : Prop := (m.map Prod.fst).Pairwise (· < ·)

/-! ## The reconstruction stack's storage (10_state R15) -/

/-- `stk[i]`: an entry that is not listed holds 0 (log entry 8). -/
def stkRead (m : List Host.Cell) (i : Nat) : Byte := (lookup m i).getD 0

/-- `stk[i] <- b`, keeping no entry that holds 0. -/
def stkWrite (m : List Host.Cell) (i : Nat) (b : Byte) : List Host.Cell :=
  if b = 0 then erase m i else insert m i b

/-- The canonical form of the stack's storage: indices rise strictly and no listed entry holds 0. -/
abbrev Memory.wf (m : List Host.Cell) : Prop := rising m ∧ ∀ c ∈ m, c.2 ≠ 0

/-! ## Operations: pseudocode that runs in order and may end the command -/

/-- How an operation ends its command before its last statement. -/
inductive Stop where
  /-- `raise F` (60_exceptions R142). -/
  | raised (f : FaultCode)
  /-- A port transaction is never answered (70_reset_and_hazards R183). -/
  | hung
  deriving DecidableEq, Repr

/-- Pseudocode over the state (00_scope R7): statements take effect in order, and those before a `raise` have taken
effect when the command ends (60_exceptions R142). -/
abbrev Op (α : Type) := EStateM Stop State α

/-- `raise F` (00_scope R7). -/
def raise {α : Type} (f : FaultCode) : Op α := throw (.raised f)

/-! ## The byte ports -/

/-- The host's answer to one port transaction (20_memory R46, R54): `f` is the fault of a failed one. -/
def transact (f : FaultCode) : Op Unit := do
  let s ← get
  match s.answers with
  | [] => pure ()
  | a :: rest =>
    set { s with answers := rest }
    match a with
    | .ok => pure ()
    | .fail => raise f
    | .never => throw .hung

/-- `SrcRead()` (20_memory R41): `none` is EOF. -/
def srcRead : Op (Option Byte) := do
  transact .srcIo
  let s ← get
  match s.src[s.srcPos]? with
  | none => pure none
  | some b =>
    set { s with srcPos := s.srcPos + 1 }
    pure (some b)

/-- `SnkWrite(b)` (20_memory R43). -/
def snkWrite (b : Byte) : Op Unit := do
  let s ← get
  if s.snkClosed then raise .sinkClosed
  else
    transact .snkIo
    modify fun s => { s with snk := s.snk ++ [b] }

/-- `SnkClose()` (20_memory R44). -/
def snkClose : Op Unit :=
  modify fun s => { s with snkClosed := true }

/-! ## The start and the end of a command -/

/-- `raise F` reaching the command port (60_exceptions R142): the first fault since reset is recorded and the response
is status FAULT. This is the whole of "trap entry" (60_exceptions R157); there is no return but reset. -/
def takeFault (f : FaultCode) (s : State) : State :=
  let recorded := s.fault.getD f
  { s with fault := some recorded, rsp := some (faultWord recorded) }

/-- The refusal of a word while a fault is recorded (60_exceptions R143): nothing changes but the response. -/
def refuseWord (f : FaultCode) (s : State) : State :=
  { s with rsp := some (faultWord f) }

/-- One command, from its acceptance to its response (30_encoding R70, R76 (1); 60_exceptions R140): `body` answers
the response word of a command that ends normally. -/
def runCommand (body : Op Word) (s : State) : Host.Outcome State Fault Refusal :=
  match s.fault with
  | some f => .next (refuseWord f s)
  | none =>
    match body s with
    | .ok w t => .next { t with rsp := some w }
    | .error (.raised f) t => .next (takeFault f t)
    | .error .hung _ => .fault .portNeverAnswered

/-- A word that is no command (30_encoding R68, R76; 60_exceptions R146). -/
def illegalWord (s : State) : Host.Outcome State Fault Refusal :=
  runCommand (raise .illegalCommand) s

/-! ## The host's other actions -/

/-- BIND (20_memory R45): new streams, no core register touched. -/
def bindStreams (bytes : List Byte) (s : State) : State :=
  { s with src := bytes, srcPos := 0, snk := [], snkClosed := false }

/-- Reset (70_reset_and_hazards R170), at any time, during a command too (R171). What the host does afterwards is its
own (log entry 6). -/
def hostReset (s : State) : State :=
  { State.reset with host := s.host, answers := s.answers }

end Sys2Proof.Machine
end

