-- ==== Sys2Proof/Machine/Operands.lean ====
section
/-! DEFINITION. The checks a command makes on its operands and on the sink before it changes any state (spec
30_encoding R75, R76 (3) to (5)). Operands are taken from the word without extension (R69). -/

namespace Sys2Proof.Machine

/-- R76 (3): RDBITS and WRBITS take a width of 1 to `MAX_FIELD_WIDTH`. -/
def checkWidth (cfg : Config) (n : BitVec 6) : Op Unit :=
  if legalWidth cfg n then pure () else raise .illegalWidth

/-- R76 (4) for DRSRV: an EMPTY slot inside the dictionary and a code of 257 to 4095 (R75). -/
def checkReserve (cfg : Config) (slot : SlotIndex) (code : Code) : Op Unit := do
  let s ← get
  if legalSlot cfg slot && (lookup s.dict slot.toNat).isNone && legalCode code then pure ()
  else raise .illegalOperand

/-- R76 (4) for TASSIGN: an UNUSED cell of 257 to 4095 (R75). -/
def checkAssign (code : Code) : Op Unit := do
  let s ← get
  if legalCode code && (lookup s.table code.toNat).isNone then pure ()
  else raise .illegalOperand

/-- R76 (5): WRBIT, WRBITS, WRCLOSE and ENCODE take an open sink (41_bitwriter R95). -/
def checkOpen : Op Unit := do
  let s ← get
  if s.snkClosed then raise .sinkClosed else pure ()

end Sys2Proof.Machine
end

