-- ==== Sys2Proof/Machine/BitReader.lean ====
section
/-! DEFINITION. The BitReader: RDBIT and RDBITS (spec 40_bitreader R80 to R84). -/

namespace Sys2Proof.Machine

/-- The rack of `ReadBit` is made to hold an undelivered bit: a byte is pulled when none is left (R81). The answer is
false at EOF, and then nothing has changed. -/
def fillRack : Op Bool := do
  let s ← get
  if s.rdCnt = 0 then
    match ← srcRead with
    | none => pure false
    | some r =>
      modify fun s => { s with rdRack := r, rdCnt := 8 }
      pure true
  else pure true

/-- The next undelivered bit, `rd_rack[rd_cnt - 1]` (R81). -/
def takeBit : Op Bool := do
  let s ← get
  set { s with rdCnt := s.rdCnt - 1 }
  pure (s.rdRack.getLsbD (s.rdCnt - 1).toNat)

/-- `ReadBit()` (R81): `none` is EOF. -/
def readBit : Op (Option Bool) := do
  if ← fillRack then
    let b ← takeBit
    pure (some b)
  else pure none

/-- The loop of `ReadBits`: `n` more bits after the bits of `v`, `v <- (v << 1) | b` for each (R82). -/
def readBitsFrom : Nat → Nat → Op (Option Nat)
  | 0, v => pure (some v)
  | n + 1, v => do
    match ← readBit with
    | none => pure none
    | some b => readBitsFrom n (2 * v + b.toNat)

/-- `ReadBits(n)` (R82): `none` is EOF. -/
def readBits (n : Nat) : Op (Option Nat) := readBitsFrom n 0

/-- RDBIT (R81). -/
def execRdbit (s : State) : Host.Outcome State Fault Refusal :=
  runCommand (do
    match ← readBit with
    | none => pure eofWord
    | some b => pure (okData (BitVec.ofNat 32 b.toNat))) s

/-- RDBITS n (R82). -/
def execRdbits (n : BitVec 6) (s : State) (cfg : Config := hw) : Host.Outcome State Fault Refusal :=
  runCommand (do
    checkWidth cfg n
    match ← readBits n.toNat with
    | none => pure eofWord
    | some v => pure (okData (BitVec.ofNat 32 v))) s

end Sys2Proof.Machine
end

