-- ==== Sys2Proof/Machine/BitWriter.lean ====
section
/-! DEFINITION. The BitWriter: WRBIT, WRBITS and WRCLOSE (spec 41_bitwriter R90 to R95). -/

namespace Sys2Proof.Machine

/-- `rack[i] <- b`. -/
def setRackBit (rack : Byte) (i : Nat) (b : Bool) : Byte :=
  if b then rack ||| (1#8 <<< i) else rack &&& ~~~(1#8 <<< i)

/-- `WriteBit(b)` (R91). -/
def writeBit (b : Bool) : Op Unit := do
  modify fun s => { s with wrRack := setRackBit s.wrRack (7 - s.wrCnt.toNat) b }
  let s ← get
  if s.wrCnt = 7 then
    snkWrite s.wrRack
    modify fun s => { s with wrRack := 0, wrCnt := 0 }
  else
    set { s with wrCnt := s.wrCnt + 1 }

/-- `WriteBits(v, n)` (R92): bits `n-1` down to 0 of `v`. -/
def writeBits {w : Nat} (v : BitVec w) : Nat → Op Unit
  | 0 => pure ()
  | n + 1 => do
    writeBit (v.getLsbD n)
    writeBits v n

/-- `Close()` (R93). -/
def closeWriter : Op Unit := do
  let s ← get
  if s.wrCnt ≠ 0 then snkWrite s.wrRack
  modify fun s => { s with wrRack := 0, wrCnt := 0 }
  snkClose

/-- WRBIT bit (R91). -/
def execWrbit (bit : Bool) (s : State) : Host.Outcome State Fault Refusal :=
  runCommand (do
    checkOpen
    writeBit bit
    pure okPlain) s

/-- WRBITS value, n (R92). -/
def execWrbits (n : BitVec 6) (value : BitVec 32) (s : State) (cfg : Config := hw) :
    Host.Outcome State Fault Refusal :=
  runCommand (do
    checkWidth cfg n
    checkOpen
    writeBits value n.toNat
    pure okPlain) s

/-- WRCLOSE (R93). -/
def execWrclose (s : State) : Host.Outcome State Fault Refusal :=
  runCommand (do
    checkOpen
    closeWriter
    pure okPlain) s

end Sys2Proof.Machine
end

