-- ==== Sys2Proof/Machine/DecodeTable.lean ====
section
/-! DEFINITION. The DecodeTable and the reconstruction stack: TCLR, TASSIGN, TWALK and TEMIT (spec 43_decode_table
R110 to R117). -/

namespace Sys2Proof.Machine

/-- `TableClear()` (R111). -/
def tableClear : Op Unit :=
  modify fun s => { s with table := [] }

/-- `Assign(code, p, c)` (R112). -/
def assign (code : Nat) (p : Code) (c : Byte) : Op Unit :=
  modify fun s => { s with table := insert s.table code ⟨p, c⟩ }

/-- A push: `stk[sp] <- b; sp <- sp + 1`, or STACK_OVERFLOW when `sp = STACK_DEPTH` (R113). -/
def push (cfg : Config) (b : Byte) : Op Unit := do
  let s ← get
  if s.sp.toNat = cfg.stackDepth then raise .stackOverflow
  else set { s with stk := stkWrite s.stk s.sp.toNat b, sp := s.sp + 1 }

/-- The loop of `Walk` from code `k` on (R113). Code 256 has no cell (90_conflicts C1), so it is never listed in
`table`, and is tested as the rule writes it. -/
def walkFrom (cfg : Config) : Nat → Code → Op Unit
  | 0, _ => raise .stackOverflow
  | fuel + 1, k =>
    if k.toNat < eos then push cfg (k.setWidth 8)
    else do
      let s ← get
      if k.toNat = eos then raise .tableUnassigned
      else
        match lookup s.table k.toNat with
        | none => raise .tableUnassigned
        | some e =>
          push cfg e.char
          walkFrom cfg fuel e.parent

/-- `Walk(code, sp0)` (R113). Every round pushes or ends the walk, so `STACK_DEPTH + 1` rounds are enough
(log entry 13). An entry at or above the new `sp` keeps the byte it held, which is the model's choice (log entry 15). -/
def walk (cfg : Config) (code : Code) (sp0 : BitVec 13) : Op Unit := do
  modify fun s => { s with sp := sp0 }
  walkFrom cfg (cfg.stackDepth + 1) code

/-- `stk[sp - 1]`, the top of the stack (10_state R15). -/
def stackTop (s : State) : Byte := stkRead s.stk (s.sp - 1).toNat

/-- The loop of `Emit` over the topmost `n` entries (R115). A popped entry, then at or above `sp`, keeps the byte it
held, which is the model's choice (log entry 15). -/
def emitFrom : Nat → Op Unit
  | 0 => pure ()
  | n + 1 => do
    modify fun s => { s with sp := s.sp - 1 }
    let s ← get
    snkWrite (stkRead s.stk s.sp.toNat)
    emitFrom n

/-- `Emit()` (R115): the answer is the number of bytes written. -/
def emit : Op (BitVec 13) := do
  let s ← get
  emitFrom s.sp.toNat
  pure s.sp

/-- The response of TWALK (R114; 30_encoding R72). -/
def walkWord (s : State) : Word := okWord false s.sp ((stackTop s).setWidth 32)

/-- TCLR (R111). -/
def execTclr (s : State) : Host.Outcome State Fault Refusal :=
  runCommand (do
    tableClear
    pure okPlain) s

/-- TASSIGN code, parent, ch (R112). -/
def execTassign (code parent : Code) (ch : Byte) (s : State) : Host.Outcome State Fault Refusal :=
  runCommand (do
    checkAssign code
    assign code.toNat parent ch
    pure okPlain) s

/-- TWALK code (R114). -/
def execTwalk (code : Code) (s : State) (cfg : Config := hw) : Host.Outcome State Fault Refusal :=
  runCommand (do
    walk cfg code 0
    let s ← get
    pure (walkWord s)) s

/-- TEMIT (R115). -/
def execTemit (s : State) : Host.Outcome State Fault Refusal :=
  runCommand (do
    let k ← emit
    pure (okIndex k)) s

end Sys2Proof.Machine
end

