-- ==== Sys2Proof/Machine/Decoder.lean ====
section
/-! DEFINITION. The Decoder: DECODE (spec 45_decoder R130 to R138). -/

namespace Sys2Proof.Machine

/-- `ReadBits(12)` as the Decoder takes it (R131, R132): `none` for both endings, END_OF_STREAM and EOF inside the
field. -/
def readCode : Op (Option Code) := do
  match ← readBits codeBits with
  | none => pure none
  | some v => if v = eos then pure none else pure (some (BitVec.ofNat 12 v))

/-- `DecStart()` (R131). -/
def decStart : Op Unit := do
  modify fun s => { s with mode := .dec }
  tableClear
  modify fun s => { s with sp := 0 }
  modify fun s => { s with rdRack := 0, rdCnt := 0 }
  modify fun s => { s with decNext := BitVec.ofNat 13 firstCode }
  match ← readCode with
  | none => modify fun s => { s with phase := .done }
  | some r =>
    snkWrite (r.setWidth 8)
    modify fun s => { s with decOld := r, phase := .scanning }

/-- Step 2 of `DecStep`: the sequence of `new` reversed on the stack (R132, R133). -/
def decResolve (cfg : Config) (new : Code) : Op Unit := do
  let s ← get
  if s.decNext.toNat ≤ new.toNat then
    walk cfg s.decOld 1
    modify fun s => { s with stk := stkWrite s.stk 0 (stackTop s) }
  else
    walk cfg new 0

/-- Step 4 of `DecStep` (R132, R134). -/
def decAssign (first : Byte) : Op Unit := do
  let s ← get
  if s.decNext.toNat ≤ maxCode then
    assign s.decNext.toNat s.decOld first
    modify fun s => { s with decNext := s.decNext + 1 }

/-- `DecStep()` (R132). -/
def decStep (cfg : Config) : Op Unit := do
  match ← readCode with
  | none => modify fun s => { s with phase := .done }
  | some new =>
    decResolve cfg new
    let s ← get
    let first := stackTop s
    let _ ← emit
    decAssign first
    modify fun s => { s with decOld := new }

/-- `while phase = SCANNING: DecStep()` for at most `fuel` steps (R130). -/
def decLoop (cfg : Config) : Nat → Op Unit
  | 0 => pure ()
  | fuel + 1 => do
    let s ← get
    if s.phase = .scanning then
      decStep cfg
      decLoop cfg fuel

/-- The whole operation (R130). Every step consumes 12 bits, so pulls a byte, or reaches DONE: one step more than
there are bytes left is enough (R130, R140; log entry 13). -/
def decodeAll (cfg : Config) : Op Unit := do
  decStart
  let s ← get
  decLoop cfg (s.src.length - s.srcPos + 1)

/-- DECODE (R130). -/
def execDecode (s : State) (cfg : Config := hw) : Host.Outcome State Fault Refusal :=
  runCommand (do
    decodeAll cfg
    pure okPlain) s

end Sys2Proof.Machine
end

