-- ==== Sys2Proof/Machine/EncodeDictionary.lean ====
section
/-! DEFINITION. The EncodeDictionary: DCLR, DPROBE and DRSRV (spec 42_encode_dictionary R100 to R107). -/

namespace Sys2Proof.Machine

/-- `Hash(p, c)`, the home index of a key (R101). -/
def hash (cfg : Config) (p : Code) (c : Byte) : Nat :=
  ((c.toNat <<< cfg.hashShift) ^^^ p.toNat) % cfg.capacity

/-- The probe step, computed once from the home index (R102). -/
def probeStep (cfg : Config) (home : Nat) : Nat :=
  if home = 0 then 1 else cfg.capacity - home

/-- The position after `i`: `(i - step) mod CAPACITY` (R102). -/
def nextSlot (cfg : Config) (step i : Nat) : Nat :=
  if step ≤ i then i - step else i + cfg.capacity - step

/-- What a probe finds. -/
inductive Found where
  /-- An EMPTY slot. -/
  | miss (slot : Nat)
  /-- The slot of the key, with its entry. -/
  | hit (slot : Nat) (e : DictEntry)
  /-- No EMPTY slot and no match. -/
  | exhausted
  deriving DecidableEq, Repr

/-- The loop of `Probe` (R102): at most `fuel` more slots, from slot `i` on. -/
def probeFrom (cfg : Config) (d : List (Nat × DictEntry)) (p : Code) (c : Byte) (step : Nat) : Nat → Nat → Found
  | 0, _ => .exhausted
  | fuel + 1, i =>
    match lookup d i with
    | none => .miss i
    | some e =>
      if e.parent = p ∧ e.char = c then .hit i e
      else probeFrom cfg d p c step fuel (nextSlot cfg step i)

/-- `Probe(p, c)` as a function of the slots (R102): it examines at most `CAPACITY` of them. -/
def probeDict (cfg : Config) (d : List (Nat × DictEntry)) (p : Code) (c : Byte) : Found :=
  probeFrom cfg d p c (probeStep cfg (hash cfg p c)) cfg.capacity (hash cfg p c)

/-- `Probe(p, c)` (R102): it reads slots and writes nothing (R100). -/
def probe (cfg : Config) (p : Code) (c : Byte) : Op Found := do
  let s ← get
  match probeDict cfg s.dict p c with
  | .exhausted => raise .probeExhausted
  | .miss slot => pure (.miss slot)
  | .hit slot e => pure (.hit slot e)

/-- `DictClear()` (R103). -/
def dictClear : Op Unit :=
  modify fun s => { s with dict := [] }

/-- `Reserve(s, code, p, c)` (R105). -/
def reserve (slot : Nat) (code p : Code) (c : Byte) : Op Unit :=
  modify fun s => { s with dict := insert s.dict slot ⟨code, p, c⟩ }

/-- The response of DPROBE (R104; 30_encoding R72). -/
def probeWord : Found → Word
  | .miss slot => okWord false (BitVec.ofNat 13 slot) 0
  | .hit slot e => okWord true (BitVec.ofNat 13 slot) (e.code ++ 0#20)
  | .exhausted => faultWord .probeExhausted

/-- DCLR (R103). -/
def execDclr (s : State) : Host.Outcome State Fault Refusal :=
  runCommand (do
    dictClear
    pure okPlain) s

/-- DPROBE parent, ch (R104). -/
def execDprobe (parent : Code) (ch : Byte) (s : State) (cfg : Config := hw) : Host.Outcome State Fault Refusal :=
  runCommand (do
    let r ← probe cfg parent ch
    pure (probeWord r)) s

/-- DRSRV slot, code, parent, ch (R105). -/
def execDrsrv (slot : SlotIndex) (code parent : Code) (ch : Byte) (s : State) (cfg : Config := hw) :
    Host.Outcome State Fault Refusal :=
  runCommand (do
    checkReserve cfg slot code
    reserve slot.toNat code parent ch
    pure okPlain) s

end Sys2Proof.Machine
end

