-- ==== Sys2Proof/Machine/Encoder.lean ====
section
/-! DEFINITION. The Encoder: ENCODE (spec 44_encoder R120 to R127). -/

namespace Sys2Proof.Machine

/-- The end of the wire stream (R121, R122): END_OF_STREAM, the close, DONE. -/
def encFinish : Op Unit := do
  writeBits (BitVec.ofNat 12 eos) codeBits
  closeWriter
  modify fun s => { s with phase := .done }

/-- `EncStart()` (R121). -/
def encStart : Op Unit := do
  modify fun s => { s with mode := .enc }
  dictClear
  modify fun s => { s with encNext := BitVec.ofNat 13 firstCode }
  modify fun s => { s with wrRack := 0, wrCnt := 0 }
  match ← srcRead with
  | none => encFinish
  | some r => modify fun s => { s with encCur := r.setWidth 12, phase := .scanning }

/-- Step 3 of `EncStep`, a miss at `slot` (R122, R123). -/
def encMiss (slot : Nat) (b : Byte) : Op Unit := do
  let s ← get
  writeBits s.encCur codeBits
  if s.encNext.toNat ≤ maxCode then
    reserve slot (s.encNext.setWidth 12) s.encCur b
    modify fun s => { s with encNext := s.encNext + 1 }
  modify fun s => { s with encCur := b.setWidth 12 }

/-- `EncStep()` (R122). -/
def encStep (cfg : Config) : Op Unit := do
  match ← srcRead with
  | none =>
    let s ← get
    writeBits s.encCur codeBits
    encFinish
  | some b =>
    let s ← get
    match ← probe cfg s.encCur b with
    | .hit _ e => modify fun s => { s with encCur := e.code }
    | .miss slot => encMiss slot b
    | .exhausted => raise .probeExhausted

/-- `while phase = SCANNING: EncStep()` for at most `fuel` steps (R120). -/
def encLoop (cfg : Config) : Nat → Op Unit
  | 0 => pure ()
  | fuel + 1 => do
    let s ← get
    if s.phase = .scanning then
      encStep cfg
      encLoop cfg fuel

/-- The whole operation (R120). Every step consumes a byte or reaches DONE, so one step more than there are bytes left
is enough (R120, R140; log entry 13). -/
def encodeAll (cfg : Config) : Op Unit := do
  encStart
  let s ← get
  encLoop cfg (s.src.length - s.srcPos + 1)

/-- ENCODE (R120). -/
def execEncode (s : State) (cfg : Config := hw) : Host.Outcome State Fault Refusal :=
  runCommand (do
    checkOpen
    encodeAll cfg
    pure okPlain) s

end Sys2Proof.Machine
end

