-- ==== Sys2Proof/Machine/Dispatch.lean ====
section
/-! DEFINITION. The meaning of each command, one arm for each constructor of Instr (spec 30_encoding R67). -/

namespace Sys2Proof.Machine

def exec (i : Instr) (s : State) : Host.Outcome State Fault Refusal :=
  match i with
  | .rdbit => Sys2Proof.Machine.execRdbit s
  | .rdbits n => Sys2Proof.Machine.execRdbits n s
  | .wrbit bit => Sys2Proof.Machine.execWrbit bit s
  | .wrbits n value => Sys2Proof.Machine.execWrbits n value s
  | .wrclose => Sys2Proof.Machine.execWrclose s
  | .dclr => Sys2Proof.Machine.execDclr s
  | .dprobe parent ch => Sys2Proof.Machine.execDprobe parent ch s
  | .drsrv slot code parent ch => Sys2Proof.Machine.execDrsrv slot code parent ch s
  | .tclr => Sys2Proof.Machine.execTclr s
  | .tassign code parent ch => Sys2Proof.Machine.execTassign code parent ch s
  | .twalk code => Sys2Proof.Machine.execTwalk code s
  | .temit => Sys2Proof.Machine.execTemit s
  | .encode => Sys2Proof.Machine.execEncode s
  | .decode => Sys2Proof.Machine.execDecode s

end Sys2Proof.Machine
end

