-- ==== Sys2Proof/Machine/Step.lean ====
section
/-! DEFINITION. One step: the core takes the host's next action (spec 20_memory R54; 30_encoding R70, R76). There is no
program counter and no instruction memory (10_state R18): a command comes from the host, one at a time. -/

namespace Sys2Proof.Machine

/-- One step. With no action pending the core waits for the host and nothing changes (70_reset_and_hazards R170). A
command word is decoded and run to its response; a prior fault is looked at first by both arms (30_encoding R76). -/
def step (s : State) : Host.Outcome State Fault Refusal :=
  match s.host with
  | [] => .next s
  | .command w :: rest =>
    match decode w with
    | .ok i => exec i { s with host := rest }
    | .error _ => illegalWord { s with host := rest }
  | .bind bytes :: rest => .next (bindStreams bytes { s with host := rest })
  | .reset :: rest => .next (hostReset { s with host := rest })
  | .resetDuring _ :: rest => .next (hostReset { s with host := rest })

/-- `s` with the command word of the table's number `w` as the host's next action (30_encoding R70; log entry 1). -/
def State.withFetchWord (s : State) (nbits w : Nat) : State :=
  { s with host := .command (tableWord nbits w) :: s.host }

end Sys2Proof.Machine
end

