-- ==== Sys2Proof/Safety.lean ====
section
/-! DEFINITION. The terms the statements are made in: the premises on the host (spec 20_memory R46, R54), the
invariant of the legal states (10_state R10 to R21), bit streams (20_memory R47), the wire stream (30_encoding R60), the
encoder's output without the hash table (44_encoder R124), the chains of the DecodeTable (43_decode_table R113), and
the opcode map as the table lists it (30_encoding R67). -/

namespace Sys2Proof.Machine

/-! ## Premises on the host -/

/-- No port transaction fails and each is answered: the named premise of 20_memory R46 with the host's duty of R54. -/
abbrev Served (s : State) : Prop := ∀ a ∈ s.answers, a = .ok

/-- Every port transaction is answered, if only by failing: the host's duty of 20_memory R54. -/
abbrev Answered (s : State) : Prop := ∀ a ∈ s.answers, a ≠ .never

/-- No fault is recorded and no port transaction fails. -/
abbrev Ready (s : State) : Prop := s.fault = none ∧ Served s

/-- Command `i`, run in `s`, uses up the answers down to `rest`, records `f`, and leaves both streams as they were. -/
def FailsUntouched (i : Instr) (s : State) (f : FaultCode) (rest : List PortAnswer) : Prop :=
  ∃ t, exec i s = .next t ∧ t.fault = some f ∧ t.rsp = some (faultWord f) ∧ t.answers = rest ∧
    t.src = s.src ∧ t.srcPos = s.srcPos ∧ t.snk = s.snk ∧ t.snkClosed = s.snkClosed

/-! ## The legal states -/

/-- What 10_state R10 to R21 say of every state: the ranges of the registers, the shape of the three tables, and the
phase the host can find (R18). -/
structure State.Inv (s : State) : Prop where
  /-- R11: 0 to 8 undelivered bits. -/
  rdCnt : s.rdCnt.toNat ≤ 8
  /-- R12: the bits not yet placed are 0; a fault in the middle of a flush may leave the flushed byte (41_bitwriter
  R95). -/
  wrRack : s.fault = none → ∀ i < 8 - s.wrCnt.toNat, s.wrRack.getLsbD i = false
  dictRising : rising s.dict
  /-- R13: slots below `CAPACITY`, codes of 257 to 4095. -/
  dictLegal : ∀ x ∈ s.dict, x.1 < hw.capacity ∧ firstCode ≤ x.2.code.toNat
  tableRising : rising s.table
  /-- R14: cells 257 to 4095. -/
  tableLegal : ∀ x ∈ s.table, firstCode ≤ x.1 ∧ x.1 ≤ maxCode
  stkWf : Memory.wf s.stk
  /-- R15: entries 0 to `STACK_DEPTH - 1`. -/
  stkLegal : ∀ c ∈ s.stk, c.1 < hw.stackDepth
  /-- R15: 0 to `STACK_DEPTH`. -/
  sp : s.sp.toNat ≤ hw.stackDepth
  /-- R16: 257 to 4096. -/
  encNext : firstCode ≤ s.encNext.toNat ∧ s.encNext.toNat ≤ maxCode + 1
  /-- R17: 257 to 4096. -/
  decNext : firstCode ≤ s.decNext.toNat ∧ s.decNext.toNat ≤ maxCode + 1
  /-- R20: 0 to the length of `src`. -/
  srcPos : s.srcPos ≤ s.src.length
  /-- R18: the host finds SCANNING only after a fault. -/
  scanning : s.phase = .scanning → s.fault ≠ none
  /-- R18: while no operation was started the phase is IDLE. -/
  idle : s.mode = .none → s.phase = .idle

/-! ## Bit streams -/

/-- The `n` low bits of `v`, the most significant of them first (20_memory R47). -/
def lowBits {w : Nat} (v : BitVec w) : Nat → List Bool
  | 0 => []
  | n + 1 => v.getLsbD n :: lowBits v n

/-- The number whose bits are `bits`, the first one most significant (20_memory R47 (a)). -/
def bitsValue (bits : List Bool) : Nat := bits.foldl (fun v b => 2 * v + b.toNat) 0

/-- The bits of a byte sequence, bit 7 of each byte first (20_memory R47 (b), (c)). -/
def bytesBits (bytes : List Byte) : List Bool := bytes.flatMap fun b => lowBits b 8

/-- The bits the BitReader will deliver: those left in `rd_rack`, then those of the bytes not yet pulled
(10_state R11, 40_bitreader R84 (b)). -/
def pendingBits (s : State) : List Bool :=
  lowBits s.rdRack s.rdCnt.toNat ++ bytesBits (s.src.drop s.srcPos)

/-- The bits written so far: those of the bytes in the sink, then those placed in `wr_rack` (10_state R12,
41_bitwriter R94). -/
def placedBits (s : State) : List Bool :=
  bytesBits s.snk ++ (lowBits s.wrRack 8).take s.wrCnt.toNat

/-! ## The wire stream -/

/-- The bytes of a code list (30_encoding R60): two codes make three bytes, a last single code is padded with four
zero bits. -/
def wire : List Code → List Byte
  | [] => []
  | [a] => [a.extractLsb' 4 8, a.extractLsb' 0 4 ++ 0#4]
  | a :: b :: rest => a.extractLsb' 4 8 :: (a.extractLsb' 0 4 ++ b.extractLsb' 8 4) :: b.extractLsb' 0 8 :: wire rest

/-- The code list of 44_encoder R124 from current code `cur` on, `d` being the map and `next` the next code. -/
def greedyFrom (d : List ((Code × Byte) × Code)) (next : Nat) (cur : Code) : List Byte → List Code
  | [] => [cur, BitVec.ofNat 12 eos]
  | x :: rest =>
    match d.lookup (cur, x) with
    | some c => greedyFrom d next c rest
    | none =>
      if next ≤ maxCode then
        cur :: greedyFrom (((cur, x), BitVec.ofNat 12 next) :: d) (next + 1) (x.setWidth 12) rest
      else cur :: greedyFrom d next (x.setWidth 12) rest

/-- The code list ENCODE writes for an input, stated without the hash table (44_encoder R124). -/
def greedy : List Byte → List Code
  | [] => [BitVec.ofNat 12 eos]
  | x :: rest => greedyFrom [] firstCode (x.setWidth 12) rest

/-! ## The dictionary and the table -/

/-- The `j`-th slot a probe of the key `(p, c)` examines, from 0 (42_encode_dictionary R102). -/
def probeSlot (p : Code) (c : Byte) (j : Nat) : Nat :=
  (nextSlot hw (probeStep hw (hash hw p c)))^[j] (hash hw p c)

/-- The dictionaries in which every entry was reserved at the slot a probe of its key had just missed at
(42_encode_dictionary R106 (c)). -/
inductive Built : List (Nat × DictEntry) → Prop where
  | clear : Built []
  | reserve {d : List (Nat × DictEntry)} {slot : Nat} {p : Code} {c : Byte} (code : Code) :
      Built d → probeDict hw d p c = .miss slot → Built (insert d slot ⟨code, p, c⟩)

/-- `seq(code)` reversed, last byte first, when it has at most `n` bytes (00_scope R9, 43_decode_table R113); `none`
when it is longer or the chain reaches code 256 or an UNUSED cell. -/
def chainBytes (t : List (Nat × TableEntry)) : Nat → Code → Option (List Byte)
  | 0, _ => none
  | n + 1, k =>
    if k.toNat < eos then some [k.setWidth 8]
    else if k.toNat = eos then none
    else
      match lookup t k.toNat with
      | none => none
      | some e => (chainBytes t n e.parent).map (e.char :: ·)

/-- The code a walk has come to after `j` assigned cells, if there are that many (43_decode_table R113). -/
def linkAfter (t : List (Nat × TableEntry)) : Nat → Code → Option Code
  | 0, k => some k
  | j + 1, k =>
    if k.toNat ≤ eos then none
    else
      match lookup t k.toNat with
      | none => none
      | some e => linkAfter t j e.parent

/-! ## The opcode map -/

/-- `match` and `mask` of the fourteen rows of spec/opcode_table.json (30_encoding R67). -/
def opcodeRows : List (Word × Word) :=
  [(0x1000000000000000, 0xFFFFFFFFFFFFFFFF), (0x2000000000000000, 0xF03FFFFFFFFFFFFF),
   (0x3000000000000000, 0xFFFFFFFFFFFFFFFE), (0x4000000000000000, 0xF03FFFFF00000000),
   (0x5000000000000000, 0xFFFFFFFFFFFFFFFF), (0x6000000000000000, 0xFFFFFFFFFFFFFFFF),
   (0x7000000000000000, 0xFFFFFFFFFFF00000), (0x8000000000000000, 0xFFFFE00000000000)] ++
  [(0x9000000000000000, 0xFFFFFFFFFFFFFFFF), (0xA000000000000000, 0xFFFFFFFF00000000),
   (0xB000000000000000, 0xFFFFFFFF000FFFFF), (0xC000000000000000, 0xFFFFFFFFFFFFFFFF),
   (0xD000000000000000, 0xFFFFFFFFFFFFFFFF), (0xE000000000000000, 0xFFFFFFFFFFFFFFFF)]

/-- The commands that do not run a whole operation (10_state R18: "the component commands (RDBIT to TEMIT)"). -/
def component : Instr → Bool
  | .encode | .decode => false
  | .rdbit | .rdbits _ | .wrbit _ | .wrbits _ _ | .wrclose | .dclr | .dprobe _ _ | .drsrv _ _ _ _ | .tclr
  | .tassign _ _ _ | .twalk _ | .temit => true

end Sys2Proof.Machine
end

