-- ==== Sys2Proof/Certificates/Slice0/Obligations.lean ====
section
/-! DEFINITION. The statements for the provers, each about the machine for every state its premises allow.
`exec i s = .next t` says that command `i`, run in state `s`, ends in state `t`; the response is `t.rsp`. A frame
is written as an equation of `t` with `s` in which every field that may change is named. The premises `Served` and
`Answered` speak of the host's answers to port transactions, a list in the state (log entry 2). -/

open Sys2Proof Sys2Proof.Machine

/-! ## Encoding -/

/-- 30_encoding R65, R66, R69: the word of a command decodes to that command, for every command with every operand. -/
def Obligations.DecodeOfEncode : Prop :=
  ∀ i : Instr, decode (encode i) = .ok i

/-- 30_encoding R66, R68: a word that decodes is the word of its command, so no bit of it is ignored. -/
def Obligations.EncodeOfDecode : Prop :=
  ∀ (w : Word) (i : Instr), decode w = .ok i → encode i = w

/-- 30_encoding R67: a word is a command exactly when it matches a row of the opcode map, and it matches at most
one. -/
def Obligations.OpcodeMapClassifies : Prop :=
  (∀ w : Word, (∃ i, decode w = .ok i) ↔ ∃ r ∈ opcodeRows, w &&& r.2 = r.1) ∧
  (∀ (w : Word) (r r' : Word × Word), r ∈ opcodeRows → r' ∈ opcodeRows → w &&& r.2 = r.1 → w &&& r'.2 = r'.1 → r = r')

/-- 30_encoding R73 and 95_test_vectors: words written out from the field layout, one or more for each component. -/
def Obligations.WrittenWordsDecode : Prop :=
  decode 0x2300000000000000 = .ok (.rdbits 12) ∧ decode 0x4100000000FFFFF5 = .ok (.wrbits 4 0xFFFFF5) ∧
  decode 0x7000000000004141 = .ok (.dprobe 65 0x41) ∧ decode 0x8000045110104141 = .ok (.drsrv 1105 257 65 0x41) ∧
  decode 0xA000000010104142 = .ok (.tassign 257 65 0x42) ∧ decode 0xB000000010200000 = .ok (.twalk 258) ∧
  decode 0xD000000000000000 = .ok .encode ∧ decode 0xE000000000000000 = .ok .decode ∧
  decode 0x0000000000000000 = .error .reservedOp ∧ decode 0xD040000000000000 = .error .mustBeZero

/-- 30_encoding R72, 60_exceptions R141: the fields of the response word stand at their bits, bits 55:46 are 0, and
the fault codes are 1 to 9. -/
def Obligations.ResponseFields : Prop :=
  (∀ (status fcode : BitVec 4) (found : Bool) (idx : BitVec 13) (data : BitVec 32),
    rspStatus (responseWord status fcode found idx data) = status ∧
    rspFcode (responseWord status fcode found idx data) = fcode ∧
    (responseWord status fcode found idx data).extractLsb' 46 10 = 0 ∧
    rspFound (responseWord status fcode found idx data) = found ∧
    rspIdx (responseWord status fcode found idx data) = idx ∧
    rspData (responseWord status fcode found idx data) = data) ∧
  [FaultCode.srcIo, .snkIo, .illegalCommand, .illegalWidth, .sinkClosed, .illegalOperand, .tableUnassigned,
    .stackOverflow, .probeExhausted].map faultBits = [1, 2, 3, 4, 5, 6, 7, 8, 9]

/-! ## Steps -/

/-- 30_encoding R70: a step takes the host's command word and runs the command it decodes to. -/
def Obligations.StepRunsDecodedCommand : Prop :=
  ∀ (s : State) (w : Word) (rest : List HostAction) (i : Instr),
    s.host = .command w :: rest → decode w = .ok i → step s = exec i { s with host := rest }

/-- 60_exceptions R146: an illegal word records ILLEGAL_COMMAND and changes no other state. -/
def Obligations.IllegalWordRecorded : Prop :=
  ∀ (s : State) (w : Word) (rest : List HostAction) (r : Reject),
    s.fault = none → s.host = .command w :: rest → decode w = .error r →
      step s = .next { s with
        host := rest, fault := some .illegalCommand, rsp := some (faultWord .illegalCommand) }

/-- 60_exceptions R143: while a fault is recorded every command word is refused with its code and nothing changes
(no answer of a port is used up), and no step but a reset clears it. -/
def Obligations.FaultRefusesUntilReset : Prop :=
  (∀ (s : State) (f : FaultCode) (w : Word) (rest : List HostAction),
    s.fault = some f → s.host = .command w :: rest →
      step s = .next { s with host := rest, rsp := some (faultWord f) }) ∧
  (∀ (s t : State) (f : FaultCode), s.fault = some f → step s = .next t → t.fault ≠ some f →
    t.fault = none ∧ ∃ rest, s.host = .reset :: rest ∨ ∃ w, s.host = .resetDuring w :: rest)

/-- 20_memory R45: BIND replaces both streams and changes no core register. -/
def Obligations.BindReplacesStreams : Prop :=
  ∀ (s : State) (bytes : List Byte) (rest : List HostAction), s.host = .bind bytes :: rest →
    step s = .next { s with host := rest, src := bytes, srcPos := 0, snk := [], snkClosed := false }

/-- 70_reset_and_hazards R170, R171: a reset, during a command too, leaves every piece of state at its reset value.
That the port's own fields keep the host's further actions and answers is the model's choice (log entry 6), and
so are `rsp = none` (log entry 4) and the empty storage of the stack (log entry 8). -/
def Obligations.ResetLeavesResetValues : Prop :=
  ∀ (s : State) (rest : List HostAction), (s.host = .reset :: rest ∨ ∃ w, s.host = .resetDuring w :: rest) →
    step s = .next {
      rdRack := 0, rdCnt := 0, wrRack := 0, wrCnt := 0, dict := [], table := [], stk := [], sp := 0,
      encCur := 0, encNext := 257, decOld := 0, decNext := 257, mode := .none, phase := .idle, fault := none,
      src := [], srcPos := 0, snk := [], snkClosed := false, rsp := none, host := rest, answers := s.answers }

/-- 10_state R10: the reset state is a legal state. -/
def Obligations.ResetIsLegal : Prop := State.reset.Inv

/-- 10_state R10 to R21: every step from a legal state ends in a legal state. After a fault in the middle of the
command the values are those of the pseudocode order (60_exceptions R144), which is the model's choice (log
entry 9). -/
def Obligations.StepKeepsLegal : Prop :=
  ∀ s t : State, s.Inv → step s = .next t → t.Inv

/-! ## How a command ends -/

/-- 60_exceptions R140, R142: a command ends with status OK, with status EOF (RDBIT and RDBITS only), or with status
FAULT and the recorded code; it always ends when the host does its duty. -/
def Obligations.CommandEndsInOneOfThreeWays : Prop :=
  ∀ (i : Instr) (s : State), Answered s → ∃ t w, exec i s = .next t ∧ t.rsp = some w ∧
    ((rspStatus w = 0 ∧ rspFcode w = 0 ∧ t.fault = none) ∨
     (w = eofWord ∧ t.fault = none ∧ (i = .rdbit ∨ ∃ n, i = .rdbits n)) ∨
     (∃ f, t.fault = some f ∧ w = faultWord f ∧ (s.fault = none ∨ s.fault = some f)))

/-- 70_reset_and_hazards R183: the one stop of the model is a port transaction that is never answered. -/
def Obligations.OnlySilentHostStops : Prop :=
  (∀ (i : Instr) (s : State) (r : Refusal), exec i s ≠ .refused r) ∧
  (∀ (i : Instr) (s : State) (f : Fault), exec i s = .fault f → .never ∈ s.answers) ∧
  (∀ (s : State) (rest : List PortAnswer), s.fault = none → s.rdCnt = 0 → s.answers = .never :: rest →
    exec .rdbit s = .fault .portNeverAnswered)

/-- 60_exceptions R148: RDBITS and WRBITS with a width of 0 or above 32 record ILLEGAL_WIDTH at acceptance, before
the closed sink is looked at (30_encoding R76). -/
def Obligations.IllegalWidthRefused : Prop :=
  ∀ (s : State) (n : BitVec 6) (value : BitVec 32), s.fault = none → (n.toNat = 0 ∨ 32 < n.toNat) →
    exec (.rdbits n) s = .next { s with fault := some .illegalWidth, rsp := some (faultWord .illegalWidth) } ∧
    exec (.wrbits n value) s = .next { s with fault := some .illegalWidth, rsp := some (faultWord .illegalWidth) }

/-- 60_exceptions R150: DRSRV of a slot out of range or occupied or of a code outside 257 to 4095, and TASSIGN of
such a code or of an assigned cell, record ILLEGAL_OPERAND at acceptance. -/
def Obligations.IllegalOperandRefused : Prop :=
  ∀ (s : State) (slot : SlotIndex) (code parent : Code) (ch : Byte), s.fault = none →
    ((5021 ≤ slot.toNat ∨ (∃ e, lookup s.dict slot.toNat = some e) ∨ code.toNat < 257) →
      exec (.drsrv slot code parent ch) s =
        .next { s with fault := some .illegalOperand, rsp := some (faultWord .illegalOperand) }) ∧
    ((code.toNat < 257 ∨ ∃ e, lookup s.table code.toNat = some e) →
      exec (.tassign code parent ch) s =
        .next { s with fault := some .illegalOperand, rsp := some (faultWord .illegalOperand) })

/-- 41_bitwriter R95: WRBIT, WRBITS of a legal width, WRCLOSE and ENCODE on a closed sink record SINK_CLOSED and
change no other state. -/
def Obligations.ClosedSinkRefused : Prop :=
  ∀ (i : Instr) (s : State), s.fault = none → s.snkClosed = true → wellFormed hw i = true →
    ((∃ b, i = .wrbit b) ∨ (∃ n v, i = .wrbits n v) ∨ i = .wrclose ∨ i = .encode) →
      exec i s = .next { s with fault := some .sinkClosed, rsp := some (faultWord .sinkClosed) }

/-- 60_exceptions R145, R147: a port transaction that fails transfers nothing. For every command that ends in SRC_IO
or SNK_IO: the answers used up are successes and, last, the failure; the bytes consumed and appended are as many
as the successes, but for the one that found the end of the source in an ENCODE that ends in SNK_IO; the sink is
not closed. For each of the eight commands that make transactions: when it makes one and the first fails, it
ends in SRC_IO or SNK_IO with both streams untouched. After a fault in the middle of the command the values are
those of the pseudocode order (60_exceptions R144), which is the model's choice (log entry 9). -/
def Obligations.PortFailureTransfersNothing : Prop :=
  (∀ (i : Instr) (s t : State) (f : FaultCode), s.fault = none → exec i s = .next t → t.fault = some f →
    (f = .srcIo ∨ f = .snkIo) →
      ∃ (done rest : List PortAnswer) (sofar : List Byte), s.answers = done ++ .fail :: rest ∧
        (∀ a ∈ done, a = .ok) ∧ t.answers = rest ∧ t.rsp = some (faultWord f) ∧ t.snkClosed = s.snkClosed ∧
        t.src = s.src ∧ t.snk = s.snk ++ sofar ∧
        ((t.srcPos + sofar.length = s.srcPos + done.length) ∨
         (i = .encode ∧ f = .snkIo ∧ t.src.length ≤ t.srcPos ∧
           t.srcPos + sofar.length + 1 = s.srcPos + done.length))) ∧
  (∀ (s : State) (rest : List PortAnswer) (b : Bool) (n : BitVec 6) (value : BitVec 32),
    s.fault = none → s.answers = .fail :: rest →
    (s.rdCnt = 0 → FailsUntouched .rdbit s .srcIo rest) ∧
    (legalWidth hw n = true → s.rdCnt.toNat < n.toNat → FailsUntouched (.rdbits n) s .srcIo rest) ∧
    (s.snkClosed = false → s.wrCnt = 7 → FailsUntouched (.wrbit b) s .snkIo rest) ∧
    (s.snkClosed = false → legalWidth hw n = true → 8 ≤ s.wrCnt.toNat + n.toNat →
      FailsUntouched (.wrbits n value) s .snkIo rest) ∧
    (s.snkClosed = false → s.wrCnt ≠ 0 → FailsUntouched .wrclose s .snkIo rest) ∧
    (s.snkClosed = false → s.sp ≠ 0 → FailsUntouched .temit s .snkIo rest) ∧
    (s.snkClosed = false → FailsUntouched .encode s .srcIo rest) ∧
    FailsUntouched .decode s .srcIo rest)

/-! ## BitReader -/

/-- 40_bitreader R81: RDBIT delivers the next bit of the rack, pulls a byte first when the rack is empty, and
answers EOF, changing nothing, when there is no byte. -/
def Obligations.RdbitDelivers : Prop :=
  ∀ s : State, Ready s →
    (s.rdCnt ≠ 0 → exec .rdbit s = .next { s with
      rdCnt := s.rdCnt - 1
      rsp := some (okData (BitVec.ofNat 32 (s.rdRack.getLsbD (s.rdCnt - 1).toNat).toNat)) }) ∧
    (∀ b, s.rdCnt = 0 → s.src[s.srcPos]? = some b → exec .rdbit s = .next { s with
      rdRack := b, rdCnt := 7, srcPos := s.srcPos + 1, answers := s.answers.tail
      rsp := some (okData (BitVec.ofNat 32 (b.getLsbD 7).toNat)) }) ∧
    (s.rdCnt = 0 → s.src[s.srcPos]? = none → exec .rdbit s = .next { s with
      answers := s.answers.tail, rsp := some eofWord })

/-- 40_bitreader R82, R84 (b): RDBITS answers the number whose bits are the next `n` pending bits, first bit most
significant, and leaves the rest pending with no byte pulled ahead of need; with fewer than `n` bits pending it
answers EOF and every pending bit is consumed. -/
def Obligations.RdbitsReadsNextBits : Prop :=
  ∀ (s : State) (n : BitVec 6), Ready s → s.rdCnt.toNat ≤ 8 → legalWidth hw n = true →
    ∃ t, exec (.rdbits n) s = .next t ∧ t.rdCnt.toNat < 8 ∧
      t = { s with rdRack := t.rdRack, rdCnt := t.rdCnt, srcPos := t.srcPos, answers := t.answers, rsp := t.rsp } ∧
      (n.toNat ≤ (pendingBits s).length →
        t.rsp = some (okData (BitVec.ofNat 32 (bitsValue ((pendingBits s).take n.toNat)))) ∧
        pendingBits t = (pendingBits s).drop n.toNat) ∧
      ((pendingBits s).length < n.toNat → t.rsp = some eofWord ∧ pendingBits t = [])

/-- 20_memory R42: once EOF was answered, RDBIT and RDBITS answer EOF again and change nothing. -/
def Obligations.EofIsSticky : Prop :=
  ∀ (s t : State) (n : BitVec 6), exec .rdbit s = .next t → t.rsp = some eofWord → Served t →
    legalWidth hw n = true →
      exec .rdbit t = .next { t with answers := t.answers.tail } ∧
      exec (.rdbits n) t = .next { t with answers := t.answers.tail }

/-- 40_bitreader R84 (a): a field read in two parts gives the same number and the same state as the field read at
once. -/
def Obligations.RdbitsComposes : Prop :=
  ∀ (s t u : State) (a b : BitVec 6) (x y : BitVec 32), a.toNat + b.toNat ≤ 32 →
    exec (.rdbits a) s = .next t → t.rsp = some (okData x) →
    exec (.rdbits b) t = .next u → u.rsp = some (okData y) →
      exec (.rdbits (a + b)) s = .next { u with rsp := some (okData ((x <<< b.toNat) ||| y)) }

/-- 40_bitreader R80: RDBIT and RDBITS change no state but `rd_rack`, `rd_cnt`, `src_pos` and `fault` (and the
ports: the response, the answers used up). After a fault in the middle of the command the values are those of
the pseudocode order (60_exceptions R144), which is the model's choice (log entry 9). -/
def Obligations.ReaderFrame : Prop :=
  ∀ (i : Instr) (s t : State), (i = .rdbit ∨ ∃ n, i = .rdbits n) → exec i s = .next t →
    t = { s with
      rdRack := t.rdRack, rdCnt := t.rdCnt, srcPos := t.srcPos, fault := t.fault, rsp := t.rsp,
      answers := t.answers }

/-! ## BitWriter -/

/-- 41_bitwriter R91: WRBIT places the bit at `wr_rack[7 - wr_cnt]`; the eighth bit flushes the byte. -/
def Obligations.WrbitPlaces : Prop :=
  (∀ (rack : Byte) (k : Nat) (b : Bool) (j : Nat), k < 8 →
    (setRackBit rack k b).getLsbD j = if j = k then b else rack.getLsbD j) ∧
  (∀ (s : State) (b : Bool), Ready s → s.snkClosed = false →
    (s.wrCnt ≠ 7 → exec (.wrbit b) s = .next { s with
      wrRack := setRackBit s.wrRack (7 - s.wrCnt.toNat) b, wrCnt := s.wrCnt + 1, rsp := some okPlain }) ∧
    (s.wrCnt = 7 → exec (.wrbit b) s = .next { s with
      wrRack := 0, wrCnt := 0, snk := s.snk ++ [setRackBit s.wrRack 0 b], answers := s.answers.tail
      rsp := some okPlain }))

/-- 41_bitwriter R92, R94: WRBITS appends the `n` low bits of its value, most significant first, to the bits written
so far, and keeps the bits not yet placed 0. -/
def Obligations.WrbitsAppendsBits : Prop :=
  ∀ (s : State) (n : BitVec 6) (value : BitVec 32), Ready s → s.snkClosed = false → legalWidth hw n = true →
    ∃ t, exec (.wrbits n value) s = .next t ∧ t.rsp = some okPlain ∧
      placedBits t = placedBits s ++ lowBits value n.toNat ∧
      t = { s with wrRack := t.wrRack, wrCnt := t.wrCnt, snk := t.snk, answers := t.answers, rsp := t.rsp } ∧
      ((∀ j < 8 - s.wrCnt.toNat, s.wrRack.getLsbD j = false) → ∀ j < 8 - t.wrCnt.toNat, t.wrRack.getLsbD j = false)

/-- 41_bitwriter R92 (d): two fields written one after the other leave the same state and sink as one field of both. -/
def Obligations.WrbitsComposes : Prop :=
  ∀ (s t u : State) (p q : BitVec 6) (a b : BitVec 32), p.toNat + q.toNat ≤ 32 →
    exec (.wrbits p a) s = .next t → t.rsp = some okPlain →
    exec (.wrbits q b) t = .next u → u.rsp = some okPlain →
      exec (.wrbits (p + q) (BitVec.ofNat 32 ((a.toNat % 2 ^ p.toNat) * 2 ^ q.toNat + b.toNat % 2 ^ q.toNat))) s =
        .next u

/-- 41_bitwriter R93: WRCLOSE writes the partial byte, if there is one, and closes the sink. -/
def Obligations.WrcloseFlushes : Prop :=
  ∀ s : State, Ready s → s.snkClosed = false →
    exec .wrclose s = .next { s with
      wrRack := 0, wrCnt := 0, snkClosed := true, rsp := some okPlain
      snk := if s.wrCnt = 0 then s.snk else s.snk ++ [s.wrRack]
      answers := if s.wrCnt = 0 then s.answers else s.answers.tail }

/-- 41_bitwriter R90: WRBIT, WRBITS and WRCLOSE change no state but `wr_rack`, `wr_cnt`, `snk`, `snk_closed` and
`fault` (and the ports). After a fault in the middle of the command the values are those of the pseudocode order
(60_exceptions R144), which is the model's choice (log entry 9). -/
def Obligations.WriterFrame : Prop :=
  ∀ (i : Instr) (s t : State), ((∃ b, i = .wrbit b) ∨ (∃ n v, i = .wrbits n v) ∨ i = .wrclose) →
    exec i s = .next t →
      t = { s with
        wrRack := t.wrRack, wrCnt := t.wrCnt, snk := t.snk, snkClosed := t.snkClosed, fault := t.fault,
        rsp := t.rsp, answers := t.answers }

/-- 40_bitreader R84 (d): a field written, closed, bound as a source and read back is the value's `n` low bits. -/
def Obligations.FieldRoundTrip : Prop :=
  ∀ (s : State) (n : BitVec 6) (value : BitVec 32),
    Ready s → s.snkClosed = false → s.snk = [] → s.wrCnt = 0 → s.rdCnt = 0 → legalWidth hw n = true →
      ∃ t u v, exec (.wrbits n value) s = .next t ∧ exec .wrclose t = .next u ∧
        exec (.rdbits n) (bindStreams u.snk u) = .next v ∧
        v.rsp = some (okData (BitVec.ofNat 32 (value.toNat % 2 ^ n.toNat)))

/-! ## EncodeDictionary -/

/-- 42_encode_dictionary R103: DCLR makes every slot EMPTY and touches nothing else, and then every probe misses at
the key's hash. -/
def Obligations.DclrClears : Prop :=
  decode 0x6000000000000000 = .ok .dclr ∧
  ∀ s : State, s.fault = none →
    exec .dclr s = .next { s with dict := [], rsp := some okPlain } ∧
    ∀ (p : Code) (c : Byte), exec (.dprobe p c) { s with dict := [] } =
      .next { s with dict := [], rsp := some (okWord false (BitVec.ofNat 13 (hash hw p c)) 0) }

/-- 42_encode_dictionary R101, R102, R106 (a): the home index is `((c << 4) ^ p) mod 5021`; the slots a probe
examines from home index `h` are `h, 2h, 3h, ...` or, from 0, `0, 5020, 5019, ...`, modulo 5021; the 5021 of
them are all the slots. -/
def Obligations.ProbePathCoversSlots : Prop :=
  ∀ (p : Code) (c : Byte), hash hw p c = ((c.toNat * 16) ^^^ p.toNat) % 5021 ∧
    (∀ j < 5021, probeSlot p c j =
      if hash hw p c = 0 then (5021 - j) % 5021 else ((j + 1) * hash hw p c) % 5021) ∧
    ∀ slot < 5021, ∃ j < 5021, probeSlot p c j = slot

/-- 42_encode_dictionary R102, R104: DPROBE goes past the slots other keys occupy and answers the first slot of its
path that is EMPTY (a miss) or holds the key (a hit, with the code); it writes nothing. -/
def Obligations.DprobeAnswersFirst : Prop :=
  ∀ (s : State) (p : Code) (c : Byte) (k : Nat), s.fault = none → k < 5021 →
    (∀ j < k, ∃ e, lookup s.dict (probeSlot p c j) = some e ∧ ¬(e.parent = p ∧ e.char = c)) →
      (lookup s.dict (probeSlot p c k) = none → exec (.dprobe p c) s =
        .next { s with rsp := some (okWord false (BitVec.ofNat 13 (probeSlot p c k)) 0) }) ∧
      (∀ code, lookup s.dict (probeSlot p c k) = some ⟨code, p, c⟩ → exec (.dprobe p c) s =
        .next { s with rsp := some (okWord true (BitVec.ofNat 13 (probeSlot p c k)) (code ++ 0#20)) })

/-- 42_encode_dictionary R106 (b): with an EMPTY slot anywhere DPROBE completes, with a miss at an EMPTY slot or a
hit at a slot that holds the key. -/
def Obligations.DprobeCompletes : Prop :=
  ∀ (s : State) (p : Code) (c : Byte) (free : Nat), s.fault = none → free < 5021 → lookup s.dict free = none →
    ∃ slot < 5021,
      (lookup s.dict slot = none ∧ exec (.dprobe p c) s =
        .next { s with rsp := some (okWord false (BitVec.ofNat 13 slot) 0) }) ∨
      (∃ code, lookup s.dict slot = some ⟨code, p, c⟩ ∧ exec (.dprobe p c) s =
        .next { s with rsp := some (okWord true (BitVec.ofNat 13 slot) (code ++ 0#20)) })

/-- 60_exceptions R153: with every slot occupied and none holding the key, DPROBE records PROBE_EXHAUSTED.
PROBE_EXHAUSTED is raised in the middle of the command; that nothing else changes is the pseudocode order
(60_exceptions R144) and the model's choice (log entry 9). -/
def Obligations.DprobeExhausted : Prop :=
  ∀ (s : State) (p : Code) (c : Byte), s.fault = none →
    (∀ slot < 5021, ∃ e, lookup s.dict slot = some e ∧ ¬(e.parent = p ∧ e.char = c)) →
      exec (.dprobe p c) s = .next { s with
        fault := some .probeExhausted, rsp := some (faultWord .probeExhausted) }

/-- 42_encode_dictionary R105: DRSRV of an EMPTY slot and a code of 257 to 4095 fills that slot and no other. -/
def Obligations.DrsrvReserves : Prop :=
  ∀ (s : State) (slot : SlotIndex) (code parent : Code) (ch : Byte),
    s.fault = none → slot.toNat < 5021 → lookup s.dict slot.toNat = none → 257 ≤ code.toNat →
      ∃ d, exec (.drsrv slot code parent ch) s = .next { s with dict := d, rsp := some okPlain } ∧
        (rising s.dict → rising d) ∧
        ∀ j, lookup d j = if j = slot.toNat then some ⟨code, parent, ch⟩ else lookup s.dict j

/-- 42_encode_dictionary R106 (c): when every entry was reserved at the slot its own key's probe had missed at, a
probe hits exactly the reserved keys, each at its slot. -/
def Obligations.ProbeFindsExactlyReserved : Prop :=
  ∀ (d : List (Nat × DictEntry)), Built d → ∀ (p : Code) (c : Byte) (slot : Nat) (e : DictEntry),
    probeDict hw d p c = .hit slot e ↔ (lookup d slot = some e ∧ e.parent = p ∧ e.char = c)

/-- 42_encode_dictionary R100: DCLR, DPROBE and DRSRV change no state but the slots and `fault` (and the response);
DPROBE does not change the slots. After a fault in the middle of the command the values are those of the
pseudocode order (60_exceptions R144), which is the model's choice (log entry 9). -/
def Obligations.DictionaryFrame : Prop :=
  ∀ (i : Instr) (s t : State), (i = .dclr ∨ (∃ p c, i = .dprobe p c) ∨ ∃ a b p c, i = .drsrv a b p c) →
    exec i s = .next t →
      t = { s with dict := t.dict, fault := t.fault, rsp := t.rsp } ∧ ((∃ p c, i = .dprobe p c) → t.dict = s.dict)

/-! ## DecodeTable and stack -/

/-- 43_decode_table R111: TCLR makes every cell UNUSED and touches nothing else, and then a walk of any code above
256 records TABLE_UNASSIGNED. -/
def Obligations.TclrClears : Prop :=
  decode 0x9000000000000000 = .ok .tclr ∧
  ∀ s : State, s.fault = none →
    exec .tclr s = .next { s with table := [], rsp := some okPlain } ∧
    ∀ code : Code, 257 ≤ code.toNat → ∃ t, exec (.twalk code) { s with table := [] } = .next t ∧
      t.fault = some .tableUnassigned ∧ t.rsp = some (faultWord .tableUnassigned)

/-- 43_decode_table R112: TASSIGN of an UNUSED cell of 257 to 4095 assigns that cell and no other, whatever the
parent. -/
def Obligations.TassignAssigns : Prop :=
  ∀ (s : State) (code parent : Code) (ch : Byte),
    s.fault = none → 257 ≤ code.toNat → lookup s.table code.toNat = none →
      ∃ m, exec (.tassign code parent ch) s = .next { s with table := m, rsp := some okPlain } ∧
        (rising s.table → rising m) ∧
        ∀ j, lookup m j = if j = code.toNat then some ⟨parent, ch⟩ else lookup s.table j

/-- 43_decode_table R113, R114: TWALK of a code whose sequence has at most 4096 bytes leaves that sequence reversed
on the stack and answers its length and its first byte; entries at or above the new `sp` are unchanged. That an
entry at or above the new `sp` keeps the byte it held is the model's choice (log entry 15). -/
def Obligations.TwalkResolves : Prop :=
  ∀ (s : State) (code : Code) (bytes : List Byte), s.fault = none → rising s.stk →
    chainBytes s.table 4096 code = some bytes →
      ∃ m, exec (.twalk code) s = .next { s with
          stk := m, sp := BitVec.ofNat 13 bytes.length
          rsp := some (okWord false (BitVec.ofNat 13 bytes.length) ((bytes.getLastD 0).setWidth 32)) } ∧
        ∀ j, stkRead m j = (bytes[j]?).getD (stkRead s.stk j)

/-- 60_exceptions R151: a walk that comes to code 256 or to an UNUSED cell records TABLE_UNASSIGNED (a walk that
does comes past at most 3839 cells, which is as many as there are). -/
def Obligations.TwalkUnassigned : Prop :=
  ∀ (s : State) (code k : Code) (j : Nat), s.fault = none → j ≤ 3839 → linkAfter s.table j code = some k →
    (k.toNat = 256 ∨ (256 < k.toNat ∧ lookup s.table k.toNat = none)) →
      ∃ t, exec (.twalk code) s = .next t ∧ t.fault = some .tableUnassigned ∧
        t.rsp = some (faultWord .tableUnassigned)

/-- 60_exceptions R152, 43_decode_table R113: a walk that comes past more than 4096 assigned cells records
STACK_OVERFLOW; a cell that is its own parent gives such a walk. -/
def Obligations.TwalkOverflows : Prop :=
  (∀ (s : State) (code k : Code), s.fault = none → linkAfter s.table 4097 code = some k →
    ∃ t, exec (.twalk code) s = .next t ∧ t.fault = some .stackOverflow ∧
      t.rsp = some (faultWord .stackOverflow)) ∧
  (∀ (s : State) (code : Code) (ch : Byte), s.fault = none → 256 < code.toNat →
    lookup s.table code.toNat = some ⟨code, ch⟩ →
      ∃ t, exec (.twalk code) s = .next t ∧ t.fault = some .stackOverflow ∧
        t.rsp = some (faultWord .stackOverflow))

/-- 43_decode_table R115: TEMIT writes the valid stack entries to the sink, top first, and empties the stack; with
an empty stack nothing is written, whatever the sink. That an entry at or above the new `sp` keeps the byte it
held is the model's choice (log entry 15). -/
def Obligations.TemitWrites : Prop :=
  (∀ s : State, Ready s → s.snkClosed = false → exec .temit s = .next { s with
    sp := 0
    snk := s.snk ++ (List.range s.sp.toNat).reverse.map (stkRead s.stk)
    answers := s.answers.drop s.sp.toNat
    rsp := some (okIndex s.sp) }) ∧
  (∀ s : State, s.fault = none → s.sp = 0 → exec .temit s = .next { s with rsp := some (okIndex 0) })

/-- 60_exceptions R149, 43_decode_table R115: TEMIT with a byte to write and a closed sink records SINK_CLOSED and
writes nothing. After a fault in the middle of the command the values are those of the pseudocode order
(60_exceptions R144), which is the model's choice (log entry 9). -/
def Obligations.TemitClosedSink : Prop :=
  ∀ s : State, s.fault = none → s.snkClosed = true → s.sp ≠ 0 →
    ∃ t, exec .temit s = .next t ∧ t.fault = some .sinkClosed ∧ t.rsp = some (faultWord .sinkClosed) ∧ t.snk = s.snk

/-- 43_decode_table R110 to R115: TCLR and TASSIGN change no state but the cells and `fault`, TWALK none but the
stack below the new `sp` and `fault`, TEMIT none but `sp`, the sink's bytes and `fault` (and the ports). After a
fault in the middle of the command the values are those of the pseudocode order (60_exceptions R144), which is
the model's choice (log entry 9). That an entry at or above the new `sp` keeps the byte it held is the model's
choice (log entry 15). -/
def Obligations.TableFrame : Prop :=
  (∀ (i : Instr) (s t : State), (i = .tclr ∨ ∃ a p c, i = .tassign a p c) → exec i s = .next t →
    t = { s with table := t.table, fault := t.fault, rsp := t.rsp }) ∧
  (∀ (s t : State) (code : Code), exec (.twalk code) s = .next t →
    t = { s with stk := t.stk, sp := t.sp, fault := t.fault, rsp := t.rsp } ∧
    ∀ a, t.sp.toNat ≤ a → stkRead t.stk a = stkRead s.stk a) ∧
  (∀ s t : State, exec .temit s = .next t →
    t = { s with sp := t.sp, snk := t.snk, fault := t.fault, rsp := t.rsp, answers := t.answers })

/-! ## Encoder -/

/-- 30_encoding R63: ENCODE of nothing writes one 12-bit field equal to 256, padded to the two bytes `0x10, 0x00`
(44_encoder R121 gives the rest of the state). -/
def Obligations.EncodeOfNothing : Prop :=
  ∀ s : State, Ready s → s.snkClosed = false → s.src.length ≤ s.srcPos →
    exec .encode s = .next { s with
      mode := .enc, phase := .done, dict := [], encNext := 257, wrRack := 0, wrCnt := 0
      snk := s.snk ++ [0x10, 0x00], snkClosed := true, answers := s.answers.drop 3, rsp := some okPlain }

/-- 44_encoder R126: ENCODE of a single byte `X` writes `0000 X[7:4]`, `X[3:0] 0001`, `00`. -/
def Obligations.EncodeOfOneByte : Prop :=
  ∀ (s : State) (x : Byte), Ready s → s.snkClosed = false → s.src.drop s.srcPos = [x] →
    ∃ t, exec .encode s = .next t ∧ t.rsp = some okPlain ∧ t.phase = .done ∧ t.snkClosed = true ∧
      t.encNext = 257 ∧ t.dict = [] ∧
      t.snk = s.snk ++ [0#4 ++ x.extractLsb' 4 4, x.extractLsb' 0 4 ++ 1#4, 0x00]

/-- 44_encoder R124: ENCODE writes the greedy code list of its input, packed as 30_encoding R60 says, closes the
sink and reaches DONE; it reads the whole source. -/
def Obligations.EncodeWritesGreedyCodes : Prop :=
  ∀ s : State, Ready s → s.snkClosed = false →
    ∃ t, exec .encode s = .next t ∧ t.rsp = some okPlain ∧ t.fault = none ∧ t.mode = .enc ∧ t.phase = .done ∧
      t.snk = s.snk ++ wire (greedy (s.src.drop s.srcPos)) ∧ t.snkClosed = true ∧
      t.wrRack = 0 ∧ t.wrCnt = 0 ∧ t.srcPos = max s.srcPos s.src.length

/-- 44_encoder R120, R127, 42_encode_dictionary R106 (b): on any source ENCODE ends, DONE with a closed sink or with
SRC_IO or SNK_IO and the sink open; PROBE_EXHAUSTED does not occur. After a fault in the middle of the command
the values are those of the pseudocode order (60_exceptions R144), which is the model's choice (log entry 9). -/
def Obligations.EncodeAlwaysEnds : Prop :=
  ∀ s : State, s.fault = none → s.snkClosed = false → Answered s →
    ∃ t, exec .encode s = .next t ∧ t.mode = .enc ∧
      ((t.fault = none ∧ t.rsp = some okPlain ∧ t.phase = .done ∧ t.snkClosed = true) ∨
       ((t.fault = some .srcIo ∨ t.fault = some .snkIo) ∧ t.snkClosed = false))

/-- 44_encoder R125 (a), (b), (c): after a fault-free ENCODE the occupied slots are `enc_next - 257` in number, at
most 3839, with the codes 257 to `enc_next - 1` once each, and every parent is below its code and not 256. -/
def Obligations.EncodeAssignsCodesOnce : Prop :=
  ∀ s t : State, exec .encode s = .next t → t.fault = none →
    t.dict.length + 257 = t.encNext.toNat ∧ t.dict.length ≤ 3839 ∧
    (t.dict.map fun x => x.2.code).Nodup ∧
    (∀ c : Code, (∃ x ∈ t.dict, x.2.code = c) ↔ (257 ≤ c.toNat ∧ c.toNat < t.encNext.toNat)) ∧
    (∀ x ∈ t.dict, x.2.parent.toNat < x.2.code.toNat ∧ x.2.parent.toNat ≠ 256)

/-- 44_encoder R121: ENCODE touches neither the DecodeTable, the stack, the BitReader nor the Decoder's registers.
After a fault in the middle of the command the values are those of the pseudocode order (60_exceptions R144),
which is the model's choice (log entry 9). -/
def Obligations.EncodeFrame : Prop :=
  ∀ s t : State, exec .encode s = .next t →
    t = { s with
      wrRack := t.wrRack, wrCnt := t.wrCnt, dict := t.dict, encCur := t.encCur, encNext := t.encNext,
      mode := t.mode, phase := t.phase, fault := t.fault, srcPos := t.srcPos, snk := t.snk,
      snkClosed := t.snkClosed, rsp := t.rsp, answers := t.answers }

/-! ## Decoder -/

/-- 45_decoder R131, R136: DECODE of fewer than two bytes, or of a stream whose first code is 256, writes nothing
and reaches DONE, whether the sink is open or closed. -/
def Obligations.DecodeOfNothing : Prop :=
  ∀ s : State, Ready s →
    ((s.src.drop s.srcPos).length < 2 ∨
      ∃ (b : Byte) (rest : List Byte), s.src.drop s.srcPos = 0x10 :: b :: rest ∧ b.toNat < 16) →
      ∃ t, exec .decode s = .next t ∧ t.rsp = some okPlain ∧ t.fault = none ∧ t.mode = .dec ∧ t.phase = .done ∧
        t.snk = s.snk ∧ t.snkClosed = s.snkClosed ∧ t.table = [] ∧ t.sp = 0 ∧ t.decNext = 257 ∧ t.decOld = s.decOld

/-- 45_decoder R130 to R132, R137: DECODE of a single literal and END_OF_STREAM writes the literal, pulls the three
bytes that hold the two codes and none after them. That an entry at or above the new `sp` keeps the byte it held
is the model's choice (log entry 15). -/
def Obligations.DecodeOfOneLiteral : Prop :=
  ∀ (s : State) (x : Byte) (rest : List Byte), Ready s → s.snkClosed = false →
    s.src.drop s.srcPos = (0#4 ++ x.extractLsb' 4 4) :: (x.extractLsb' 0 4 ++ 1#4) :: 0x00 :: rest →
      exec .decode s = .next { s with
        mode := .dec, phase := .done, table := [], sp := 0, rdRack := 0, rdCnt := 0, decNext := 257
        decOld := x.setWidth 12, srcPos := s.srcPos + 3, snk := s.snk ++ [x]
        answers := s.answers.drop 4, rsp := some okPlain }

/-- 45_decoder R137, R138 (a): DECODE of the stream ENCODE writes for `x` (44_encoder R124) writes `x` and reads
that stream to its last byte and no further; so what a fault-free ENCODE wrote decodes to its input, and the two
next codes agree. -/
def Obligations.DecodeOfEncodedInput : Prop :=
  (∀ (s : State) (x rest : List Byte), Ready s → rising s.stk → s.snkClosed = false →
    s.src.drop s.srcPos = wire (greedy x) ++ rest →
      ∃ u, exec .decode s = .next u ∧ u.rsp = some okPlain ∧ u.fault = none ∧ u.mode = .dec ∧ u.phase = .done ∧
        u.snk = s.snk ++ x ∧ u.srcPos = s.srcPos + (wire (greedy x)).length) ∧
  (∀ s t : State, Ready s → rising s.stk → s.snk = [] → exec .encode s = .next t → t.fault = none →
    ∃ u, exec .decode (bindStreams t.snk t) = .next u ∧ u.rsp = some okPlain ∧ u.fault = none ∧ u.phase = .done ∧
      u.snk = s.src.drop s.srcPos ∧ u.decNext = t.encNext)

/-- 45_decoder R138 (c): on any byte sequence DECODE ends, in DONE or in one of its five faults. `mode` is DEC in
each case. After a fault in the middle of the command the values are those of the pseudocode order
(60_exceptions R144), which is the model's choice (log entry 9). -/
def Obligations.DecodeAlwaysEnds : Prop :=
  ∀ s : State, s.fault = none → Answered s →
    ∃ t, exec .decode s = .next t ∧ t.mode = .dec ∧
      ((t.fault = none ∧ t.rsp = some okPlain ∧ t.phase = .done) ∨
       t.fault = some .srcIo ∨ t.fault = some .snkIo ∨ t.fault = some .sinkClosed ∨
       t.fault = some .tableUnassigned ∨ t.fault = some .stackOverflow)

/-- 45_decoder R131, R136: DECODE touches neither the EncodeDictionary, the BitWriter, the Encoder's registers nor
`snk_closed`, and no stack entry outside 0 to 4095. After a fault in the middle of the command the values are
those of the pseudocode order (60_exceptions R144), which is the model's choice (log entry 9). -/
def Obligations.DecodeFrame : Prop :=
  ∀ s t : State, exec .decode s = .next t →
    t = { s with
      rdRack := t.rdRack, rdCnt := t.rdCnt, table := t.table, stk := t.stk, sp := t.sp, decOld := t.decOld,
      decNext := t.decNext, mode := t.mode, phase := t.phase, fault := t.fault, srcPos := t.srcPos,
      snk := t.snk, rsp := t.rsp, answers := t.answers } ∧
    ∀ a, 4096 ≤ a → stkRead t.stk a = stkRead s.stk a

/-! ## Rules of the whole machine -/

/-- 10_state R23: nothing left over from earlier commands is read by ENCODE or DECODE; what they write, consume and
answer depends only on the streams, the ports and `fault`. After a fault in the middle of the command the values
are those of the pseudocode order (60_exceptions R144), which is the model's choice (log entry 9). -/
def Obligations.OperationsIgnoreLeftovers : Prop :=
  ∀ (i : Instr) (s s' t : State), (i = .encode ∨ i = .decode) → Memory.wf s.stk → Memory.wf s'.stk →
    s'.src = s.src → s'.srcPos = s.srcPos → s'.snk = s.snk → s'.snkClosed = s.snkClosed → s'.fault = s.fault →
    s'.answers = s.answers → exec i s = .next t →
      ∃ t', exec i s' = .next t' ∧ t'.snk = t.snk ∧ t'.snkClosed = t.snkClosed ∧ t'.srcPos = t.srcPos ∧
        t'.fault = t.fault ∧ t'.rsp = t.rsp ∧ t'.answers = t.answers

/-- 20_memory R44: only WRCLOSE and ENCODE change `snk_closed`, and they set it. After a fault in the middle of the
command the values are those of the pseudocode order (60_exceptions R144), which is the model's choice (log
entry 9). -/
def Obligations.OnlyCloseClosesSink : Prop :=
  ∀ (i : Instr) (s t : State), exec i s = .next t → t.snkClosed ≠ s.snkClosed →
    (i = .wrclose ∨ i = .encode) ∧ t.snkClosed = true

/-- 20_memory R41, R43: no command withdraws or changes a byte of the sink, gives back a byte of the source, or
reads past its end. After a fault in the middle of the command the values are those of the pseudocode order
(60_exceptions R144), which is the model's choice (log entry 9). -/
def Obligations.StreamsOnlyAdvance : Prop :=
  ∀ (i : Instr) (s t : State), exec i s = .next t →
    s.snk <+: t.snk ∧ t.src = s.src ∧ s.srcPos ≤ t.srcPos ∧ (s.srcPos ≤ s.src.length → t.srcPos ≤ t.src.length) ∧
    t.answers <:+ s.answers ∧ t.host = s.host

/-- 10_state R18: the component commands neither read nor write `mode` and `phase`. After a fault in the middle of
the command the values are those of the pseudocode order (60_exceptions R144), which is the model's choice (log
entry 9). -/
def Obligations.ComponentsIgnoreControlState : Prop :=
  ∀ (i : Instr) (s t : State) (m : Mode) (p : Phase), component i = true → exec i s = .next t →
    t.mode = s.mode ∧ t.phase = s.phase ∧
    exec i { s with mode := m, phase := p } = .next { t with mode := m, phase := p }
end

