-- ==== Sys2Proof/Laws/Tables.lean ====
section
/-! SUPPORT. The sparse tables: reading after an insertion or an erasure, the rising order, and the canonical form of
the stack's storage (spec 10_state R13 to R15). -/

namespace Sys2Proof.Machine

variable {α : Type}

@[simp] theorem lookup_nil (i : Nat) : lookup ([] : List (Nat × α)) i = none := rfl

theorem lookup_cons (j : Nat) (x : α) (m : List (Nat × α)) (i : Nat) :
    lookup ((j, x) :: m) i = if j = i then some x else lookup m i := rfl

/-- Reading after an insertion: the element inserted at its index, the old one everywhere else. -/
theorem lookup_insert (m : List (Nat × α)) (i : Nat) (x : α) (j : Nat) :
    lookup (insert m i x) j = if j = i then some x else lookup m j := by
  induction m with
  | nil => simp [insert, lookup, eq_comm]
  | cons c m ih =>
    obtain ⟨k, y⟩ := c
    unfold insert
    by_cases h₁ : i < k
    · rw [if_pos h₁, lookup_cons]
      simp [eq_comm]
    · rw [if_neg h₁]
      by_cases h₂ : i = k
      · subst h₂
        rw [if_pos rfl, lookup_cons, lookup_cons]
        by_cases h : j = i
        · simp [h]
        · simp [h, Ne.symm h]
      · rw [if_neg h₂, lookup_cons, lookup_cons, ih]
        by_cases h : j = i
        · simp [h, Ne.symm h₂]
        · simp [h]

/-- Erasing an index leaves every other one as it was. -/
theorem lookup_erase_of_ne (m : List (Nat × α)) {i j : Nat} (h : j ≠ i) : lookup (erase m i) j = lookup m j := by
  induction m with
  | nil => rfl
  | cons c m ih =>
    obtain ⟨k, y⟩ := c
    unfold erase
    split_ifs with hk
    · subst hk
      simp [lookup, Ne.symm h]
    · simp [lookup, ih]

theorem rising_cons {c : Nat × α} {m : List (Nat × α)} : rising (c :: m) ↔ (∀ d ∈ m, c.1 < d.1) ∧ rising m := by
  simp [rising, List.pairwise_cons]

/-- An element that is listed stands at an index. -/
theorem mem_of_lookup {m : List (Nat × α)} {i : Nat} {x : α} (h : lookup m i = some x) : (i, x) ∈ m := by
  induction m with
  | nil => simp [lookup] at h
  | cons c m ih =>
    obtain ⟨k, y⟩ := c
    rw [lookup_cons] at h
    split_ifs at h with hk
    · simp_all
    · exact List.mem_cons_of_mem _ (ih h)

/-- In a rising table every listed element is found at its index. -/
theorem lookup_of_mem {m : List (Nat × α)} (hm : rising m) {c : Nat × α} (h : c ∈ m) : lookup m c.1 = some c.2 := by
  induction m with
  | nil => simp at h
  | cons d m ih =>
    obtain ⟨k, y⟩ := d
    obtain ⟨hlt, hr⟩ := rising_cons.1 hm
    rcases List.mem_cons.1 h with rfl | h
    · simp [lookup]
    · rw [lookup_cons, if_neg (Nat.ne_of_lt (hlt c h)), ih hr h]

theorem lookup_eq_none {m : List (Nat × α)} {i : Nat} (h : ∀ c ∈ m, c.1 ≠ i) : lookup m i = none := by
  cases hl : lookup m i with
  | none => rfl
  | some x => exact absurd rfl (h _ (mem_of_lookup hl))

/-- What an insertion lists: the new element and old ones at other indices (in a rising table). -/
theorem mem_insert {m : List (Nat × α)} {i : Nat} {x : α} {c : Nat × α} (h : c ∈ insert m i x) :
    c = (i, x) ∨ c ∈ m := by
  induction m with
  | nil => simpa [insert] using h
  | cons d m ih =>
    obtain ⟨k, y⟩ := d
    unfold insert at h
    split_ifs at h with h₁ h₂
    · simpa using h
    · rcases List.mem_cons.1 h with h | h
      · exact .inl h
      · exact .inr (List.mem_cons_of_mem _ h)
    · rcases List.mem_cons.1 h with h | h
      · exact .inr (h ▸ List.mem_cons_self)
      · exact (ih h).imp_right (List.mem_cons_of_mem _)

theorem mem_of_mem_erase {m : List (Nat × α)} {i : Nat} {c : Nat × α} (h : c ∈ erase m i) : c ∈ m := by
  induction m with
  | nil => simp [erase] at h
  | cons d m ih =>
    obtain ⟨k, y⟩ := d
    unfold erase at h
    split_ifs at h with hk
    · exact List.mem_cons_of_mem _ h
    · rcases List.mem_cons.1 h with h | h
      · exact h ▸ List.mem_cons_self
      · exact List.mem_cons_of_mem _ (ih h)

theorem rising_insert {m : List (Nat × α)} (hm : rising m) (i : Nat) (x : α) : rising (insert m i x) := by
  induction m with
  | nil => simp [insert, rising]
  | cons d m ih =>
    obtain ⟨k, y⟩ := d
    obtain ⟨hlt, hr⟩ := rising_cons.1 hm
    unfold insert
    split_ifs with h₁ h₂
    · refine rising_cons.2 ⟨fun d hd => ?_, hm⟩
      rcases List.mem_cons.1 hd with rfl | hd
      · exact h₁
      · exact h₁.trans (hlt d hd)
    · exact rising_cons.2 ⟨fun d hd => h₂ ▸ hlt d hd, hr⟩
    · refine rising_cons.2 ⟨fun d hd => ?_, ih hr⟩
      rcases mem_insert hd with rfl | hd
      · simp only at h₁ h₂ ⊢
        omega
      · exact hlt d hd

theorem rising_erase {m : List (Nat × α)} (hm : rising m) (i : Nat) : rising (erase m i) := by
  induction m with
  | nil => exact hm
  | cons d m ih =>
    obtain ⟨k, y⟩ := d
    obtain ⟨hlt, hr⟩ := rising_cons.1 hm
    unfold erase
    split_ifs with hk
    · exact hr
    · exact rising_cons.2 ⟨fun d hd => hlt d (mem_of_mem_erase hd), ih hr⟩

/-- An index erased from a rising table is no longer listed. -/
theorem lookup_erase_self {m : List (Nat × α)} (hm : rising m) (i : Nat) : lookup (erase m i) i = none := by
  induction m with
  | nil => rfl
  | cons d m ih =>
    obtain ⟨k, y⟩ := d
    obtain ⟨hlt, hr⟩ := rising_cons.1 hm
    unfold erase
    split_ifs with hk
    · exact lookup_eq_none fun c hc => by simpa [hk] using (Nat.ne_of_lt (hlt c hc)).symm
    · rw [lookup_cons, if_neg hk, ih hr]

/-- Inserting at an index that is not listed makes the table one element longer. -/
theorem length_insert {m : List (Nat × α)} {i : Nat} (h : lookup m i = none) (x : α) :
    (insert m i x).length = m.length + 1 := by
  induction m with
  | nil => rfl
  | cons d m ih =>
    obtain ⟨k, y⟩ := d
    rw [lookup_cons] at h
    split_ifs at h with hk
    unfold insert
    split_ifs with h₁ h₂
    · rfl
    · exact absurd h₂.symm hk
    · simp [ih h]

/-- A table that lists `n` indices from `a` on holds an element at each of them. -/
theorem lookup_run (f : Nat → α) (n a i : Nat) (hl : a ≤ i) (hu : i < a + n) :
    lookup ((List.range' a n).map fun j => (j, f j)) i = some (f i) := by
  induction n generalizing a with
  | zero => omega
  | succ n ih =>
    rw [List.range'_succ, List.map_cons, lookup_cons]
    by_cases h : a = i
    · simp [h]
    · rw [if_neg h]
      exact ih (a + 1) (by omega) (by omega)

/-! ## The stack's storage -/

/-- A write to another entry does not change what an entry reads as. -/
theorem stkRead_write_of_ne (m : List Host.Cell) {i j : Nat} (b : Byte) (h : j ≠ i) :
    stkRead (stkWrite m i b) j = stkRead m j := by
  unfold stkRead stkWrite
  split_ifs
  · rw [lookup_erase_of_ne m h]
  · rw [lookup_insert, if_neg h]

/-- An entry reads as what was last written to it. -/
theorem stkRead_write_self {m : List Host.Cell} (hm : rising m) (i : Nat) (b : Byte) :
    stkRead (stkWrite m i b) i = b := by
  unfold stkRead stkWrite
  split_ifs with hb
  · rw [lookup_erase_self hm, hb]
    rfl
  · rw [lookup_insert, if_pos rfl]
    rfl

theorem rising_stkWrite {m : List Host.Cell} (hm : rising m) (i : Nat) (b : Byte) : rising (stkWrite m i b) := by
  unfold stkWrite
  split_ifs
  · exact rising_erase hm i
  · exact rising_insert hm i b

/-- A write keeps the canonical form. -/
theorem wf_stkWrite {m : List Host.Cell} (hm : Memory.wf m) (i : Nat) (b : Byte) : Memory.wf (stkWrite m i b) := by
  refine ⟨rising_stkWrite hm.1 i b, fun c hc => ?_⟩
  unfold stkWrite at hc
  split_ifs at hc with hb
  · exact hm.2 c (mem_of_mem_erase hc)
  · rcases mem_insert hc with rfl | hc
    · exact hb
    · exact hm.2 c hc

/-- A write lists no index that was not listed but its own. -/
theorem mem_stkWrite {m : List Host.Cell} {i : Nat} {b : Byte} {c : Host.Cell} (h : c ∈ stkWrite m i b) :
    c = (i, b) ∨ c ∈ m := by
  unfold stkWrite at h
  split_ifs at h
  · exact .inr (mem_of_mem_erase h)
  · exact mem_insert h

/-- The storage after reset is in canonical form. -/
theorem wf_reset : Memory.wf State.reset.stk := by decide

end Sys2Proof.Machine
end

