-- ==== Sys2Proof/Laws/Ops.lean ====
section
/-! SUPPORT. The rules of pseudocode: how the statements of an `Op` run, what each port transaction can do, and how a
command ends. Later proofs use these and do not unfold `EStateM`. -/

namespace Sys2Proof.Machine

variable {α β : Type}

/-! ## Statements -/

@[simp] theorem op_pure (a : α) (s : State) : (pure a : Op α) s = .ok a s := rfl
@[simp] theorem op_get (s : State) : (get : Op State) s = .ok s s := rfl
@[simp] theorem op_set (t s : State) : (set t : Op PUnit) s = .ok ⟨⟩ t := rfl
@[simp] theorem op_modify (f : State → State) (s : State) : (modify f : Op PUnit) s = .ok ⟨⟩ (f s) := rfl
@[simp] theorem op_raise (f : FaultCode) (s : State) : (raise f : Op α) s = .error (.raised f) s := rfl
@[simp] theorem op_throw (e : Stop) (s : State) : (throw e : Op α) s = .error e s := rfl

/-- A sequence runs its second statement in the state the first one leaves. -/
theorem op_bind (x : Op α) (f : α → Op β) (s : State) :
    (x >>= f) s = match x s with
      | .ok a t => f a t
      | .error e t => .error e t := by
  cases h : x s <;> simp [bind, EStateM.bind, h]

@[simp] theorem op_bind_of_ok {x : Op α} {s t : State} {a : α} (h : x s = .ok a t) (f : α → Op β) :
    (x >>= f) s = f a t := by rw [op_bind, h]

@[simp] theorem op_bind_of_error {x : Op α} {s t : State} {e : Stop} (h : x s = .error e t) (f : α → Op β) :
    (x >>= f) s = .error e t := by rw [op_bind, h]

/-- A result mapped by a function is the result of a sequence. -/
theorem op_map (g : α → β) (x : Op α) (s : State) :
    (g <$> x) s = match x s with
      | .ok a t => .ok (g a) t
      | .error e t => .error e t := by
  cases h : x s <;> simp [Functor.map, EStateM.map, h]

/-- A sequence ends normally exactly when both statements do. -/
theorem op_bind_eq_ok {x : Op α} {f : α → Op β} {s u : State} {b : β} :
    (x >>= f) s = .ok b u ↔ ∃ a t, x s = .ok a t ∧ f a t = .ok b u := by
  rw [op_bind]
  cases x s <;> simp

/-- A sequence is ended by its first statement or by its second. -/
theorem op_bind_eq_error {x : Op α} {f : α → Op β} {s u : State} {e : Stop} :
    (x >>= f) s = .error e u ↔ x s = .error e u ∨ ∃ a t, x s = .ok a t ∧ f a t = .error e u := by
  rw [op_bind]
  cases x s <;> simp

/-! ## What holds after an operation -/

/-- `x`, run in `s`, ends with `Q` when it ends normally and with `E` when it is ended. -/
def Runs (x : Op α) (s : State) (Q : α → State → Prop) (E : Stop → State → Prop) : Prop :=
  match x s with
  | .ok a t => Q a t
  | .error e t => E e t

section Runs

variable {Q : α → State → Prop} {E : Stop → State → Prop} {s : State}

@[simp] theorem runs_pure (a : α) : Runs (pure a) s Q E ↔ Q a s := Iff.rfl
@[simp] theorem runs_get {Q : State → State → Prop} : Runs get s Q E ↔ Q s s := Iff.rfl
@[simp] theorem runs_set {Q : PUnit → State → Prop} (t : State) : Runs (set t) s Q E ↔ Q ⟨⟩ t := Iff.rfl
@[simp] theorem runs_modify {Q : PUnit → State → Prop} (f : State → State) :
    Runs (modify f) s Q E ↔ Q ⟨⟩ (f s) := Iff.rfl
@[simp] theorem runs_raise (f : FaultCode) : Runs (raise f : Op α) s Q E ↔ E (.raised f) s := Iff.rfl
@[simp] theorem runs_throw (e : Stop) : Runs (throw e : Op α) s Q E ↔ E e s := Iff.rfl

/-- The rule of sequence. -/
@[simp] theorem runs_bind {Q : β → State → Prop} (x : Op α) (f : α → Op β) :
    Runs (x >>= f) s Q E ↔ Runs x s (fun a t => Runs (f a) t Q E) E := by
  unfold Runs
  rw [op_bind]
  cases x s <;> rfl

@[simp] theorem runs_map {Q : β → State → Prop} (g : α → β) (x : Op α) :
    Runs (g <$> x) s Q E ↔ Runs x s (fun a t => Q (g a) t) E := by
  unfold Runs
  rw [op_map]
  cases x s <;> rfl

/-- The rule of consequence. -/
theorem Runs.mono {Q' : α → State → Prop} {E' : Stop → State → Prop} {x : Op α} (h : Runs x s Q E)
    (hQ : ∀ a t, Q a t → Q' a t) (hE : ∀ e t, E e t → E' e t) : Runs x s Q' E' := by
  unfold Runs at *
  cases hx : x s with
  | ok a t => exact hQ a t (by simpa [hx] using h)
  | error e t => exact hE e t (by simpa [hx] using h)

theorem Runs.of_ok {x : Op α} {a : α} {t : State} (h : Runs x s Q E) (hx : x s = .ok a t) : Q a t := by
  simpa [Runs, hx] using h

theorem Runs.of_error {x : Op α} {e : Stop} {t : State} (h : Runs x s Q E) (hx : x s = .error e t) : E e t := by
  simpa [Runs, hx] using h

end Runs

/-! ## The byte ports -/

/-- A transaction (20_memory R46): it uses up one answer, or none when there is none, and carries on, fails, or hangs
as the answer says. -/
theorem transact_run (f : FaultCode) (s : State) :
    transact f s = match s.answers with
      | [] => .ok () s
      | .ok :: rest => .ok () { s with answers := rest }
      | .fail :: rest => .error (.raised f) { s with answers := rest }
      | .never :: rest => .error .hung { s with answers := rest } := by
  unfold transact
  rw [op_bind]
  simp only [op_get]
  rcases h : s.answers with _ | ⟨a, rest⟩
  · rfl
  · cases a <;> rfl

/-- Everything a transaction can do: it uses up an answer, if there is one, and changes nothing else. -/
theorem transact_runs (f : FaultCode) (s : State) :
    Runs (transact f) s
      (fun _ t => ∃ rest, rest <:+ s.answers ∧ t = { s with answers := rest })
      (fun e t => ∃ rest, rest <:+ s.answers ∧ t = { s with answers := rest } ∧
        (e = .raised f ∨ e = .hung ∧ .never ∈ s.answers)) := by
  unfold Runs
  rw [transact_run]
  rcases ha : s.answers with _ | ⟨a, rest⟩
  · exact ⟨[], List.suffix_refl _, by rw [← ha]⟩
  · have hs : rest <:+ a :: rest := ⟨[a], rfl⟩
    cases a
    · exact ⟨rest, hs, rfl⟩
    · exact ⟨rest, hs, rfl, .inl rfl⟩
    · exact ⟨rest, hs, rfl, .inr ⟨rfl, List.mem_cons_self⟩⟩

/-- A transaction the host serves is carried out. -/
theorem transact_served {s : State} (h : Served s) (f : FaultCode) :
    transact f s = .ok () { s with answers := s.answers.tail } := by
  rw [transact_run]
  rcases ha : s.answers with _ | ⟨a, rest⟩
  · exact congrArg (EStateM.Result.ok ()) (by rw [List.tail_nil, ← ha])
  · obtain rfl : a = .ok := h a (by simp [ha])
    rfl

/-- Using up answers keeps the premise on the host. -/
theorem served_tail {s : State} (h : Served s) : Served { s with answers := s.answers.tail } :=
  fun a ha => h a (List.mem_of_mem_tail ha)

/-- `SrcRead` (20_memory R41) after a transaction that is carried out: the next byte is consumed, or EOF changes
nothing. -/
theorem srcRead_served {s : State} (h : Served s) :
    srcRead s = match s.src[s.srcPos]? with
      | none => .ok none { s with answers := s.answers.tail }
      | some b => .ok (some b) { s with answers := s.answers.tail, srcPos := s.srcPos + 1 } := by
  unfold srcRead
  rw [op_bind_of_ok (transact_served h _), op_bind_of_ok (op_get _)]
  cases s.src[s.srcPos]? <;> rfl

/-- Everything `SrcRead` can do (20_memory R41): `src_pos` moves past a byte that is there, or the streams stay. -/
theorem srcRead_runs (s : State) :
    Runs srcRead s
      (fun r t => ∃ rest, rest <:+ s.answers ∧
        ((r = none ∧ s.src[s.srcPos]? = none ∧ t = { s with answers := rest }) ∨
         (∃ b, r = some b ∧ s.src[s.srcPos]? = some b ∧ t = { s with answers := rest, srcPos := s.srcPos + 1 })))
      (fun e t => ∃ rest, rest <:+ s.answers ∧ t = { s with answers := rest } ∧
        (e = .raised .srcIo ∨ e = .hung ∧ .never ∈ s.answers)) := by
  unfold srcRead
  rw [runs_bind]
  refine (transact_runs _ s).mono ?_ fun _ _ h => h
  rintro _ _ ⟨rest, hs, rfl⟩
  rw [runs_bind, runs_get]
  cases hb : s.src[s.srcPos]? with
  | none => exact ⟨rest, hs, .inl ⟨rfl, rfl, rfl⟩⟩
  | some b => exact ⟨rest, hs, .inr ⟨b, rfl, rfl, rfl⟩⟩

/-- `SnkWrite` to a closed sink makes no transaction (20_memory R43). -/
theorem snkWrite_closed {s : State} (h : s.snkClosed = true) (b : Byte) :
    snkWrite b s = .error (.raised .sinkClosed) s := by
  unfold snkWrite
  rw [op_bind_of_ok (op_get s), if_pos h]
  rfl

/-- `SnkWrite` to an open sink is a transaction and an append (20_memory R43). -/
theorem snkWrite_open {s : State} (h : s.snkClosed = false) (b : Byte) :
    snkWrite b s = (transact .snkIo >>= fun _ => modify fun s => { s with snk := s.snk ++ [b] }) s := by
  unfold snkWrite
  rw [op_bind_of_ok (op_get s), if_neg (by simp [h])]

/-- `SnkWrite` (20_memory R43) to an open sink, after a transaction that is carried out, appends the byte. -/
theorem snkWrite_served {s : State} (h : Served s) (ho : s.snkClosed = false) (b : Byte) :
    snkWrite b s = .ok () { s with answers := s.answers.tail, snk := s.snk ++ [b] } := by
  rw [snkWrite_open ho, op_bind_of_ok (transact_served h _)]
  rfl

/-- Everything `SnkWrite` can do (20_memory R43): the byte is appended to an open sink, or the streams stay. -/
theorem snkWrite_runs (b : Byte) (s : State) :
    Runs (snkWrite b) s
      (fun _ t => s.snkClosed = false ∧ ∃ rest, rest <:+ s.answers ∧
        t = { s with answers := rest, snk := s.snk ++ [b] })
      (fun e t => (s.snkClosed = true ∧ e = .raised .sinkClosed ∧ t = s) ∨
        (s.snkClosed = false ∧ ∃ rest, rest <:+ s.answers ∧ t = { s with answers := rest } ∧
          (e = .raised .snkIo ∨ e = .hung ∧ .never ∈ s.answers))) := by
  by_cases hc : s.snkClosed = true
  · unfold Runs
    rw [snkWrite_closed hc]
    exact .inl ⟨hc, rfl, rfl⟩
  · have ho : s.snkClosed = false := by simpa using hc
    have hr : Runs (transact .snkIo >>= fun _ => modify fun s : State => { s with snk := s.snk ++ [b] }) s
        (fun _ t => ∃ rest, rest <:+ s.answers ∧ t = { s with answers := rest, snk := s.snk ++ [b] })
        (fun e t => ∃ rest, rest <:+ s.answers ∧ t = { s with answers := rest } ∧
          (e = .raised .snkIo ∨ e = .hung ∧ .never ∈ s.answers)) := by
      rw [runs_bind]
      refine (transact_runs _ s).mono ?_ fun _ _ h => h
      rintro _ _ ⟨rest, hs, rfl⟩
      exact ⟨rest, hs, rfl⟩
    unfold Runs at hr ⊢
    rw [snkWrite_open ho]
    split at hr
    · exact ⟨ho, hr⟩
    · exact .inr ⟨ho, hr⟩

/-! ## The end of a command -/

/-- A command in a faulted state is refused (60_exceptions R143). -/
theorem runCommand_faulted {s : State} {f : FaultCode} (h : s.fault = some f) (body : Op Word) :
    runCommand body s = .next (refuseWord f s) := by simp [runCommand, h]

theorem runCommand_ok {s t : State} {w : Word} {body : Op Word} (h : s.fault = none) (hb : body s = .ok w t) :
    runCommand body s = .next { t with rsp := some w } := by simp [runCommand, h, hb]

theorem runCommand_raised {s t : State} {f : FaultCode} {body : Op Word} (h : s.fault = none)
    (hb : body s = .error (.raised f) t) : runCommand body s = .next (takeFault f t) := by
  simp [runCommand, h, hb]

/-- Every way a command can end in a next state (60_exceptions R140). -/
theorem runCommand_next {s t : State} {body : Op Word} (h : runCommand body s = .next t) :
    (∃ f, s.fault = some f ∧ t = refuseWord f s) ∨
    (s.fault = none ∧ ∃ w u, body s = .ok w u ∧ t = { u with rsp := some w }) ∨
    (s.fault = none ∧ ∃ f u, body s = .error (.raised f) u ∧ t = takeFault f u) := by
  unfold runCommand at h
  split at h
  · next f hf =>
    cases h
    exact .inl ⟨f, hf, rfl⟩
  · next hf =>
    split at h
    · next w u hb =>
      cases h
      exact .inr (.inl ⟨hf, w, u, hb, rfl⟩)
    · next f u hb =>
      cases h
      exact .inr (.inr ⟨hf, f, u, hb, rfl⟩)
    · cases h

/-- A property of the end state of a command from what its body does. -/
theorem runCommand_keeps {P : State → Prop} {s t : State} {body : Op Word} (h : runCommand body s = .next t)
    (hrefused : ∀ f, s.fault = some f → P (refuseWord f s))
    (hbody : s.fault = none → Runs body s (fun w u => P { u with rsp := some w })
      (fun e u => ∀ f, e = .raised f → P (takeFault f u))) : P t := by
  rcases runCommand_next h with ⟨f, hf, rfl⟩ | ⟨hf, w, u, hb, rfl⟩ | ⟨hf, f, u, hb, rfl⟩
  · exact hrefused f hf
  · exact (hbody hf).of_ok hb
  · exact (hbody hf).of_error hb f rfl

end Sys2Proof.Machine
end

