-- ==== Sys2Proof/Laws/Bits.lean ====
section
/-! SUPPORT. What the operations of the BitReader and the BitWriter do (spec 40_bitreader R81, R82; 41_bitwriter R91 to
R93): their results when the host serves the ports, and all they can change whatever the host does. -/

namespace Sys2Proof.Machine

/-! ## Acceptance checks -/

theorem checkWidth_legal {cfg : Config} {n : BitVec 6} (h : legalWidth cfg n = true) (s : State) :
    checkWidth cfg n s = .ok () s := by
  unfold checkWidth
  rw [if_pos h]
  rfl

theorem checkWidth_illegal {cfg : Config} {n : BitVec 6} (h : legalWidth cfg n = false) (s : State) :
    checkWidth cfg n s = .error (.raised .illegalWidth) s := by
  unfold checkWidth
  rw [if_neg (by simp [h])]
  rfl

theorem checkOpen_open {s : State} (h : s.snkClosed = false) : checkOpen s = .ok () s := by
  unfold checkOpen
  rw [op_bind_of_ok (op_get s), if_neg (by simp [h])]
  rfl

theorem checkOpen_closed {s : State} (h : s.snkClosed = true) : checkOpen s = .error (.raised .sinkClosed) s := by
  unfold checkOpen
  rw [op_bind_of_ok (op_get s), if_pos h]
  rfl

/-! ## BitReader -/

theorem fillRack_ready {s : State} (h : s.rdCnt ≠ 0) : fillRack s = .ok true s := by
  unfold fillRack
  rw [op_bind_of_ok (op_get s), if_neg h]
  rfl

theorem fillRack_empty {s : State} (h : s.rdCnt = 0) :
    fillRack s = (srcRead >>= fun r => match r with
      | none => pure false
      | some b => (do modify fun s => { s with rdRack := b, rdCnt := 8 }; pure true)) s := by
  unfold fillRack
  exact (op_bind_of_ok (op_get s) _).trans (congrFun (if_pos h) s)

theorem takeBit_run (s : State) :
    takeBit s = .ok (s.rdRack.getLsbD (s.rdCnt - 1).toNat) { s with rdCnt := s.rdCnt - 1 } := rfl

/-- `ReadBit` with an undelivered bit in the rack (R81). -/
theorem readBit_ready {s : State} (h : s.rdCnt ≠ 0) :
    readBit s = .ok (some (s.rdRack.getLsbD (s.rdCnt - 1).toNat)) { s with rdCnt := s.rdCnt - 1 } := by
  unfold readBit
  rw [op_bind_of_ok (fillRack_ready h)]
  rfl

/-- `ReadBit` with an empty rack pulls a byte and delivers its bit 7 (R81). -/
theorem readBit_pulls {s : State} (hs : Served s) (h : s.rdCnt = 0) {b : Byte} (hb : s.src[s.srcPos]? = some b) :
    readBit s = .ok (some (b.getLsbD 7))
      { s with rdRack := b, rdCnt := 7, srcPos := s.srcPos + 1, answers := s.answers.tail } := by
  have hf : fillRack s = .ok true
      { s with rdRack := b, rdCnt := 8, srcPos := s.srcPos + 1, answers := s.answers.tail } := by
    rw [fillRack_empty h, op_bind, srcRead_served hs, hb]
    rfl
  unfold readBit
  rw [op_bind_of_ok hf, if_pos rfl, op_bind_of_ok (takeBit_run _), op_pure]
  simp

/-- `ReadBit` at EOF changes nothing (R81). -/
theorem readBit_eof {s : State} (hs : Served s) (h : s.rdCnt = 0) (hb : s.src[s.srcPos]? = none) :
    readBit s = .ok none { s with answers := s.answers.tail } := by
  have hf : fillRack s = .ok false { s with answers := s.answers.tail } := by
    rw [fillRack_empty h, op_bind, srcRead_served hs, hb]
    rfl
  unfold readBit
  rw [op_bind_of_ok hf]
  rfl

/-- One round of the loop of `ReadBits` (R82). -/
theorem readBitsFrom_succ (n v : Nat) (s : State) :
    readBitsFrom (n + 1) v s = match readBit s with
      | .ok none t => .ok none t
      | .ok (some b) t => readBitsFrom n (2 * v + b.toNat) t
      | .error e t => .error e t := by
  show (readBit >>= _) s = _
  rw [op_bind]
  rcases readBit s with ⟨_ | b, t⟩ | ⟨e, t⟩ <;> rfl

/-- All the BitReader may change (R80): its registers and the source position, which only advances. -/
def ReaderStep (s t : State) : Prop :=
  t = { s with rdRack := t.rdRack, rdCnt := t.rdCnt, srcPos := t.srcPos, answers := t.answers } ∧
  s.srcPos ≤ t.srcPos ∧ t.answers <:+ s.answers

theorem ReaderStep.refl (s : State) : ReaderStep s s := ⟨rfl, le_rfl, List.suffix_refl _⟩

theorem ReaderStep.trans {s t u : State} (h : ReaderStep s t) (h' : ReaderStep t u) : ReaderStep s u := by
  refine ⟨?_, h.2.1.trans h'.2.1, h'.2.2.trans h.2.2⟩
  have h₁ := h.1
  have h₂ := h'.1
  rw [h₁] at h₂
  exact h₂

/-- Everything `ReadBit` can do, whatever the host answers (R80, R81). -/
theorem readBit_runs (s : State) :
    Runs readBit s (fun _ t => ReaderStep s t)
      (fun e t => ReaderStep s t ∧ (e = .raised .srcIo ∨ e = .hung ∧ .never ∈ s.answers)) := by
  by_cases h : s.rdCnt = 0
  · unfold readBit
    rw [runs_bind]
    have hf : Runs fillRack s (fun _ t => ReaderStep s t)
        (fun e t => ReaderStep s t ∧ (e = .raised .srcIo ∨ e = .hung ∧ .never ∈ s.answers)) := by
      unfold Runs
      rw [fillRack_empty h]
      refine (runs_bind _ _).2 ((srcRead_runs s).mono ?_ ?_)
      · rintro _ _ ⟨rest, hs, ⟨rfl, -, rfl⟩ | ⟨b, rfl, -, rfl⟩⟩
        · exact ⟨rfl, le_rfl, hs⟩
        · exact ⟨rfl, Nat.le_succ _, hs⟩
      · rintro e _ ⟨rest, hs, rfl, he⟩
        exact ⟨⟨rfl, le_rfl, hs⟩, he⟩
    refine hf.mono ?_ fun _ _ h => h
    intro r t ht
    cases r
    · exact ht
    · exact ht.trans ⟨rfl, le_rfl, List.suffix_refl _⟩
  · unfold Runs
    rw [readBit_ready h]
    exact ⟨rfl, le_rfl, List.suffix_refl _⟩

/-- Everything `ReadBits` can do, whatever the host answers (R80, R82). -/
theorem readBitsFrom_runs (n v : Nat) (s : State) :
    Runs (readBitsFrom n v) s (fun _ t => ReaderStep s t)
      (fun e t => ReaderStep s t ∧ (e = .raised .srcIo ∨ e = .hung ∧ .never ∈ s.answers)) := by
  induction n generalizing v s with
  | zero => exact .refl s
  | succ n ih =>
    have hr := readBit_runs s
    unfold Runs at hr ⊢
    rw [readBitsFrom_succ]
    rcases hb : readBit s with ⟨_ | b, t⟩ | ⟨e, t⟩ <;> rw [hb] at hr
    · exact hr
    · refine (ih (2 * v + b.toNat) t).mono (fun _ _ => hr.trans) fun e u hu => ⟨hr.trans hu.1, ?_⟩
      exact hu.2.imp_right fun ⟨he, hm⟩ => ⟨he, hr.2.2.mem hm⟩
    · exact hr

/-! ## BitWriter -/

/-- `WriteBit` of a bit that does not fill the byte (R91). -/
theorem writeBit_places {s : State} (h : s.wrCnt ≠ 7) (b : Bool) :
    writeBit b s = .ok () { s with
      wrRack := setRackBit s.wrRack (7 - s.wrCnt.toNat) b, wrCnt := s.wrCnt + 1 } := by
  unfold writeBit
  rw [op_bind_of_ok (op_modify _ s), op_bind_of_ok (op_get _), if_neg h]
  rfl

/-- `WriteBit` of the eighth bit is a `SnkWrite` of the full byte, then an empty rack (R91). -/
theorem writeBit_fills {s : State} (h : s.wrCnt = 7) (b : Bool) :
    writeBit b s = (snkWrite (setRackBit s.wrRack 0 b) >>= fun _ =>
      modify fun t : State => { t with wrRack := 0, wrCnt := 0 }) { s with wrRack := setRackBit s.wrRack 0 b } := by
  have hk : 7 - s.wrCnt.toNat = 0 := by rw [h]; rfl
  unfold writeBit
  rw [op_bind_of_ok (op_modify _ s), op_bind_of_ok (op_get _), if_pos h]
  simp only [hk]

/-- `WriteBit` of the eighth bit, served by an open sink (R91). -/
theorem writeBit_flushes {s : State} (hs : Served s) (ho : s.snkClosed = false) (h : s.wrCnt = 7) (b : Bool) :
    writeBit b s = .ok () { s with
      wrRack := 0, wrCnt := 0, snk := s.snk ++ [setRackBit s.wrRack 0 b], answers := s.answers.tail } := by
  have hw := snkWrite_served (s := { s with wrRack := setRackBit s.wrRack 0 b }) hs ho (setRackBit s.wrRack 0 b)
  rw [writeBit_fills h]
  exact op_bind_of_ok hw _

/-- One round of the loop of `WriteBits` (R92). -/
theorem writeBits_succ {w : Nat} (v : BitVec w) (n : Nat) (s : State) :
    writeBits v (n + 1) s = match writeBit (v.getLsbD n) s with
      | .ok _ t => writeBits v n t
      | .error e t => .error e t := by
  show (writeBit (v.getLsbD n) >>= _) s = _
  rw [op_bind]
  cases writeBit (v.getLsbD n) s <;> rfl

/-- All the BitWriter may change before a close (R90): its registers and the sink's bytes, which only grow, in an open
sink. -/
def WriterStep (s t : State) : Prop :=
  t = { s with wrRack := t.wrRack, wrCnt := t.wrCnt, snk := t.snk, answers := t.answers } ∧
  s.snk <+: t.snk ∧ t.answers <:+ s.answers

theorem WriterStep.refl (s : State) : WriterStep s s := ⟨rfl, List.prefix_refl _, List.suffix_refl _⟩

theorem WriterStep.trans {s t u : State} (h : WriterStep s t) (h' : WriterStep t u) : WriterStep s u := by
  refine ⟨?_, h.2.1.trans h'.2.1, h'.2.2.trans h.2.2⟩
  have h₁ := h.1
  have h₂ := h'.1
  rw [h₁] at h₂
  exact h₂

/-- How an operation that writes to the sink can be ended (20_memory R43). -/
def SinkStop (s : State) (e : Stop) : Prop :=
  (s.snkClosed = true ∧ e = .raised .sinkClosed) ∨
  (s.snkClosed = false ∧ (e = .raised .snkIo ∨ e = .hung ∧ .never ∈ s.answers))

theorem SinkStop.of_step {s t : State} (h : WriterStep s t) {e : Stop} (he : SinkStop t e) : SinkStop s e := by
  have hc : t.snkClosed = s.snkClosed := by rw [h.1]
  unfold SinkStop at *
  rw [hc] at he
  exact he.imp_right fun ⟨ho, h'⟩ => ⟨ho, h'.imp_right fun ⟨he, hm⟩ => ⟨he, h.2.2.mem hm⟩⟩

theorem snkWrite_writes (b : Byte) (s : State) :
    Runs (snkWrite b) s (fun _ t => WriterStep s t) (fun e t => WriterStep s t ∧ SinkStop s e) := by
  refine (snkWrite_runs b s).mono ?_ ?_
  · rintro _ _ ⟨-, rest, hs, rfl⟩
    exact ⟨rfl, List.prefix_append _ _, hs⟩
  · rintro e _ (⟨hc, rfl, rfl⟩ | ⟨ho, rest, hs, rfl, he⟩)
    · exact ⟨.refl _, .inl ⟨hc, rfl⟩⟩
    · exact ⟨⟨rfl, List.prefix_refl _, hs⟩, .inr ⟨ho, he⟩⟩

/-- Everything `WriteBit` can do, whatever the host answers (R90, R91). -/
theorem writeBit_runs (b : Bool) (s : State) :
    Runs (writeBit b) s (fun _ t => WriterStep s t) (fun e t => WriterStep s t ∧ SinkStop s e) := by
  by_cases h : s.wrCnt = 7
  · unfold Runs
    rw [writeBit_fills h]
    have h₀ : WriterStep s { s with wrRack := setRackBit s.wrRack 0 b } := ⟨rfl, List.prefix_refl _, List.suffix_refl _⟩
    refine (runs_bind _ _).2 ((snkWrite_writes _ _).mono ?_ ?_)
    · intro _ t ht
      exact (h₀.trans ht).trans ⟨rfl, List.prefix_refl _, List.suffix_refl _⟩
    · intro e t ht
      exact ⟨h₀.trans ht.1, .of_step h₀ ht.2⟩
  · unfold Runs
    rw [writeBit_places h]
    exact ⟨rfl, List.prefix_refl _, List.suffix_refl _⟩

/-- Everything `WriteBits` can do, whatever the host answers (R90, R92). -/
theorem writeBits_runs {w : Nat} (v : BitVec w) (n : Nat) (s : State) :
    Runs (writeBits v n) s (fun _ t => WriterStep s t) (fun e t => WriterStep s t ∧ SinkStop s e) := by
  induction n generalizing s with
  | zero => exact .refl s
  | succ n ih =>
    refine (runs_bind _ _).2 ((writeBit_runs _ s).mono ?_ fun _ _ h => h)
    intro _ t ht
    exact (ih t).mono (fun _ _ => ht.trans) fun e u hu => ⟨ht.trans hu.1, .of_step ht hu.2⟩

/-- `Close` (R93): a `SnkWrite` of the rack when it holds a bit, then an empty rack and a closed sink. -/
theorem closeWriter_run (s : State) :
    closeWriter s = ((if s.wrCnt = 0 then pure () else snkWrite s.wrRack) >>= fun _ =>
      modify fun t => { t with wrRack := 0, wrCnt := 0, snkClosed := true }) s := by
  unfold closeWriter
  rw [op_bind_of_ok (op_get s)]
  by_cases h : s.wrCnt = 0
  · simp only [h, ne_eq, not_true_eq_false, if_false, if_true]
    rfl
  · simp only [h, ne_eq, not_false_eq_true, if_false, if_true, op_bind]
    cases snkWrite s.wrRack s <;> rfl

/-- `Close`, served by an open sink (R93). -/
theorem closeWriter_served {s : State} (hs : Served s) (ho : s.snkClosed = false) :
    closeWriter s = .ok () { s with
      wrRack := 0, wrCnt := 0, snkClosed := true
      snk := if s.wrCnt = 0 then s.snk else s.snk ++ [s.wrRack]
      answers := if s.wrCnt = 0 then s.answers else s.answers.tail } := by
  rw [closeWriter_run]
  by_cases h : s.wrCnt = 0
  · simp [h, op_bind]
  · simp only [h, if_false]
    rw [op_bind_of_ok (snkWrite_served hs ho _)]
    rfl

/-- Everything `Close` can do, whatever the host answers (R90, R93). -/
theorem closeWriter_runs (s : State) :
    Runs closeWriter s
      (fun _ t => ∃ u, WriterStep s u ∧ t = { u with wrRack := 0, wrCnt := 0, snkClosed := true })
      (fun e t => WriterStep s t ∧ SinkStop s e) := by
  unfold Runs
  rw [closeWriter_run]
  by_cases h : s.wrCnt = 0
  · rw [if_pos h]
    exact ⟨s, .refl s, rfl⟩
  · rw [if_neg h]
    exact (runs_bind _ _).2 ((snkWrite_writes _ s).mono (fun _ u hu => ⟨u, hu, rfl⟩) fun _ _ h => h)

end Sys2Proof.Machine
end

