-- ==== Sys2Proof/Laws/Dictionary.lean ====
section
/-! SUPPORT. What the operations of the EncodeDictionary do (spec 42_encode_dictionary R100 to R105), and the checks
DRSRV and TASSIGN make on their operands (30_encoding R75, R76). -/

namespace Sys2Proof.Machine

/-! ## Acceptance checks -/

/-- The check of DRSRV passes or records ILLEGAL_OPERAND, and changes nothing (R76 (4)). -/
theorem checkReserve_run (cfg : Config) (slot : SlotIndex) (code : Code) (s : State) :
    checkReserve cfg slot code s =
      if legalSlot cfg slot && (lookup s.dict slot.toNat).isNone && legalCode code then .ok () s
      else .error (.raised .illegalOperand) s := by
  unfold checkReserve
  rw [op_bind_of_ok (op_get s)]
  split_ifs <;> rfl

/-- The check of TASSIGN passes or records ILLEGAL_OPERAND, and changes nothing (R76 (4)). -/
theorem checkAssign_run (code : Code) (s : State) :
    checkAssign code s =
      if legalCode code && (lookup s.table code.toNat).isNone then .ok () s
      else .error (.raised .illegalOperand) s := by
  unfold checkAssign
  rw [op_bind_of_ok (op_get s)]
  split_ifs <;> rfl

/-- A 12-bit code is never above `MAX_CODE`, so only the lower bound of R75 can be missed. -/
theorem legalCode_iff (code : Code) : legalCode code = true ↔ 257 ≤ code.toNat := by
  have h : code.toNat < 4096 := code.isLt
  have hl : legalCode code = true ↔ firstCode ≤ code.toNat ∧ code.toNat ≤ maxCode := by
    simp [legalCode]
  rw [hl]
  simp only [firstCode, maxCode]
  omega

theorem legalSlot_iff (slot : SlotIndex) : legalSlot hw slot = true ↔ slot.toNat < 5021 := by
  exact decide_eq_true_iff (p := slot.toNat < hw.capacity)

theorem legalWidth_iff (n : BitVec 6) : legalWidth hw n = true ↔ 1 ≤ n.toNat ∧ n.toNat ≤ 32 := by
  have hl : legalWidth hw n = true ↔ 1 ≤ n.toNat ∧ n.toNat ≤ hw.maxFieldWidth := by simp [legalWidth]
  exact hl

/-! ## Slots -/

@[simp] theorem dictClear_run (s : State) : dictClear s = .ok () { s with dict := [] } := rfl

@[simp] theorem reserve_run (slot : Nat) (code p : Code) (c : Byte) (s : State) :
    reserve slot code p c s = .ok () { s with dict := insert s.dict slot ⟨code, p, c⟩ } := rfl

/-- `Probe` writes nothing (R100): it answers what it finds or records PROBE_EXHAUSTED. -/
theorem probe_run (cfg : Config) (p : Code) (c : Byte) (s : State) :
    probe cfg p c s =
      if probeDict cfg s.dict p c = .exhausted then .error (.raised .probeExhausted) s
      else .ok (probeDict cfg s.dict p c) s := by
  unfold probe
  rw [op_bind_of_ok (op_get s)]
  rcases h : probeDict cfg s.dict p c with slot | ⟨slot, e⟩ | _ <;> simp

section Probe

variable {cfg : Config} {d : List (Nat × DictEntry)} {p : Code} {c : Byte} {step : Nat}

/-- The probe ends at an EMPTY slot (R102). -/
theorem probeFrom_empty {i : Nat} (h : lookup d i = none) (n : Nat) :
    probeFrom cfg d p c step (n + 1) i = .miss i := by simp [probeFrom, h]

/-- The probe ends at the slot of its key (R102). -/
theorem probeFrom_match {i : Nat} {e : DictEntry} (h : lookup d i = some e) (hk : e.parent = p ∧ e.char = c) (n : Nat) :
    probeFrom cfg d p c step (n + 1) i = .hit i e := by
  simp only [probeFrom, h]
  rw [if_pos hk]

/-- The probe goes past the slot of another key (R102). -/
theorem probeFrom_other {i : Nat} {e : DictEntry} (h : lookup d i = some e) (hk : ¬(e.parent = p ∧ e.char = c))
    (n : Nat) : probeFrom cfg d p c step (n + 1) i = probeFrom cfg d p c step n (nextSlot cfg step i) := by
  simp only [probeFrom, h]
  rw [if_neg hk]

/-- A miss is at an EMPTY slot; a hit is at an occupied slot that holds the key (R102). -/
theorem probeFrom_found (n i : Nat) :
    match probeFrom cfg d p c step n i with
    | .miss slot => lookup d slot = none
    | .hit slot e => lookup d slot = some e ∧ e.parent = p ∧ e.char = c
    | .exhausted => True := by
  induction n generalizing i with
  | zero => trivial
  | succ n ih =>
    cases h : lookup d i with
    | none => rwa [probeFrom_empty h]
    | some e =>
      by_cases hk : e.parent = p ∧ e.char = c
      · rw [probeFrom_match h hk]
        exact ⟨h, hk⟩
      · rw [probeFrom_other h hk]
        exact ih _

end Probe

end Sys2Proof.Machine
end

