-- ==== Sys2Proof/Laws/PerInstr.lean ====
section
/-! SUPPORT. One statement made of each command: the `op` field of its word is the number of its row in the opcode map
(spec 30_encoding R65, R67), whatever its operands. -/

namespace Sys2Proof.Laws.OpField

/-- The `op` of a command's row (R67). -/
def opOf : Instr → BitVec 4
  | .rdbit => 0x1
  | .rdbits _ => 0x2
  | .wrbit _ => 0x3
  | .wrbits _ _ => 0x4
  | .wrclose => 0x5
  | .dclr => 0x6
  | .dprobe _ _ => 0x7
  | .drsrv _ _ _ _ => 0x8
  | .tclr => 0x9
  | .tassign _ _ _ => 0xA
  | .twalk _ => 0xB
  | .temit => 0xC
  | .encode => 0xD
  | .decode => 0xE

/-- `cmd[63:60]` of the command's word is its row's `op`. -/
def Statement (i : Instr) : Prop := opField (Sys2Proof.encode i) = opOf i

theorem opField_bitFields (op : BitVec 4) (n : BitVec 6) (value : BitVec 32) :
    opField (bitFields op n value) = op := by
  have h : ∀ j < 4, BitVec.getLsbD (w := 4 + 6 + 22 + 32) (op ++ n ++ 0#22 ++ value) (60 + j) = op.getLsbD j := by
    intro j hj
    have h : ¬60 + j < 32 ∧ ¬60 + j - 32 < 22 ∧ ¬60 + j - 32 - 22 < 6 ∧ 60 + j - 32 - 22 - 6 = j := by omega
    simp only [BitVec.getLsbD_append, h, if_false]
  ext j hj
  simpa [opField, bitFields, BitVec.getLsbD_eq_getElem hj] using h j hj

theorem opField_tableFields (op : BitVec 4) (slot : SlotIndex) (code parent : Code) (ch : Byte) :
    opField (tableFields op slot code parent ch) = op := by
  have h : ∀ j < 4, BitVec.getLsbD (w := 4 + 15 + 13 + 12 + 12 + 8) (op ++ 0#15 ++ slot ++ code ++ parent ++ ch)
      (60 + j) = op.getLsbD j := by
    intro j hj
    have h : ¬60 + j < 8 ∧ ¬60 + j - 8 < 12 ∧ ¬60 + j - 8 - 12 < 12 ∧ ¬60 + j - 8 - 12 - 12 < 13 ∧
        ¬60 + j - 8 - 12 - 12 - 13 < 15 ∧ 60 + j - 8 - 12 - 12 - 13 - 15 = j := by omega
    simp only [BitVec.getLsbD_append, h, if_false]
  ext j hj
  simpa [opField, tableFields, BitVec.getLsbD_eq_getElem hj] using h j hj

theorem rdbit : Statement .rdbit := opField_bitFields _ _ _
theorem rdbits (n : BitVec 6) : Statement (.rdbits n) := opField_bitFields _ _ _
theorem wrbit (bit : Bool) : Statement (.wrbit bit) := opField_bitFields _ _ _
theorem wrbits (n : BitVec 6) (value : BitVec 32) : Statement (.wrbits n value) := opField_bitFields _ _ _
theorem wrclose : Statement .wrclose := opField_bitFields _ _ _
theorem dclr : Statement .dclr := opField_bitFields _ _ _
theorem dprobe (parent : Code) (ch : Byte) : Statement (.dprobe parent ch) := opField_tableFields _ _ _ _ _
theorem drsrv (slot : SlotIndex) (code parent : Code) (ch : Byte) : Statement (.drsrv slot code parent ch) :=
  opField_tableFields _ _ _ _ _
theorem tclr : Statement .tclr := opField_bitFields _ _ _
theorem tassign (code parent : Code) (ch : Byte) : Statement (.tassign code parent ch) :=
  opField_tableFields _ _ _ _ _
theorem twalk (code : Code) : Statement (.twalk code) := opField_tableFields _ _ _ _ _
theorem temit : Statement .temit := opField_bitFields _ _ _
theorem encode : Statement .encode := opField_bitFields _ _ _
theorem decode : Statement .decode := opField_bitFields _ _ _

end Sys2Proof.Laws.OpField
end

