-- ==== Sys2Proof/Laws/Stack.lean ====
section
/-! SUPPORT. What the operations of the DecodeTable and the reconstruction stack do (spec 43_decode_table R110 to
R115). -/

namespace Sys2Proof.Machine

@[simp] theorem tableClear_run (s : State) : tableClear s = .ok () { s with table := [] } := rfl

@[simp] theorem assign_run (code : Nat) (p : Code) (c : Byte) (s : State) :
    assign code p c s = .ok () { s with table := insert s.table code ⟨p, c⟩ } := rfl

/-- A push onto a stack that is not full (R113). -/
theorem push_room {cfg : Config} {s : State} (h : s.sp.toNat ≠ cfg.stackDepth) (b : Byte) :
    push cfg b s = .ok () { s with stk := stkWrite s.stk s.sp.toNat b, sp := s.sp + 1 } := by
  unfold push
  rw [op_bind_of_ok (op_get s), if_neg h]
  rfl

/-- A push onto a full stack records STACK_OVERFLOW (R113, 60_exceptions R152). -/
theorem push_full {cfg : Config} {s : State} (h : s.sp.toNat = cfg.stackDepth) (b : Byte) :
    push cfg b s = .error (.raised .stackOverflow) s := by
  unfold push
  rw [op_bind_of_ok (op_get s), if_pos h]
  rfl

/-! ## Walk -/

/-- A literal ends the walk with a push (R113). -/
theorem walkFrom_literal {cfg : Config} {k : Code} (h : k.toNat < eos) (n : Nat) :
    walkFrom cfg (n + 1) k = push cfg (k.setWidth 8) := by
  simp only [walkFrom]
  rw [if_pos h]

/-- Code 256 ends the walk with TABLE_UNASSIGNED (R113). -/
theorem walkFrom_sentinel {cfg : Config} {k : Code} (h : k.toNat = eos) (n : Nat) (s : State) :
    walkFrom cfg (n + 1) k s = .error (.raised .tableUnassigned) s := by
  simp only [walkFrom]
  rw [if_neg (by omega), op_bind_of_ok (op_get s), if_pos h]
  rfl

/-- An UNUSED cell ends the walk with TABLE_UNASSIGNED (R113). -/
theorem walkFrom_unused {cfg : Config} {k : Code} {s : State} (h : eos < k.toNat) (hc : lookup s.table k.toNat = none)
    (n : Nat) : walkFrom cfg (n + 1) k s = .error (.raised .tableUnassigned) s := by
  simp only [walkFrom]
  rw [if_neg (by omega), op_bind_of_ok (op_get s), if_neg (by omega), hc]
  rfl

/-- An assigned cell: its character is pushed and the walk goes on at its parent (R113). -/
theorem walkFrom_cell {cfg : Config} {k : Code} {s : State} {e : TableEntry} (h : eos < k.toNat)
    (hc : lookup s.table k.toNat = some e) (n : Nat) :
    walkFrom cfg (n + 1) k s = (push cfg e.char >>= fun _ => walkFrom cfg n e.parent) s := by
  simp only [walkFrom]
  rw [if_neg (by omega), op_bind_of_ok (op_get s), if_neg (by omega), hc]

/-- All a walk may change (R110, R113): the stack. -/
def WalkStep (s t : State) : Prop := t = { s with stk := t.stk, sp := t.sp }

theorem WalkStep.trans {s t u : State} (h : WalkStep s t) (h' : WalkStep t u) : WalkStep s u := by
  unfold WalkStep at *
  rw [h] at h'
  exact h'

/-- Everything a walk can do (R110, R113). -/
theorem walkFrom_runs (cfg : Config) (n : Nat) (k : Code) (s : State) :
    Runs (walkFrom cfg n k) s (fun _ t => WalkStep s t)
      (fun e t => WalkStep s t ∧ (e = .raised .tableUnassigned ∨ e = .raised .stackOverflow)) := by
  have hp : ∀ (b : Byte) (s : State), Runs (push cfg b) s (fun _ t => WalkStep s t)
      (fun e t => WalkStep s t ∧ (e = .raised .tableUnassigned ∨ e = .raised .stackOverflow)) := by
    intro b s
    unfold Runs
    by_cases h : s.sp.toNat = cfg.stackDepth
    · rw [push_full h]
      exact ⟨rfl, .inr rfl⟩
    · rw [push_room h]
      exact rfl
  induction n generalizing k s with
  | zero => exact ⟨rfl, .inr rfl⟩
  | succ n ih =>
    rcases lt_trichotomy k.toNat eos with h | h | h
    · rw [walkFrom_literal h]
      exact hp _ s
    · unfold Runs
      rw [walkFrom_sentinel h]
      exact ⟨rfl, .inl rfl⟩
    · unfold Runs
      cases hc : lookup s.table k.toNat with
      | none =>
        rw [walkFrom_unused h hc]
        exact ⟨rfl, .inl rfl⟩
      | some e =>
        rw [walkFrom_cell h hc]
        refine (runs_bind _ _).2 ((hp e.char s).mono ?_ fun _ _ h => h)
        intro _ t ht
        exact (ih e.parent t).mono (fun _ _ => ht.trans) fun _ _ hu => ⟨ht.trans hu.1, hu.2⟩

/-- `Walk` sets `sp` and then walks (R113). -/
theorem walk_run (cfg : Config) (code : Code) (sp0 : BitVec 13) (s : State) :
    walk cfg code sp0 s = walkFrom cfg (cfg.stackDepth + 1) code { s with sp := sp0 } := rfl

/-! ## Emit -/

/-- One round of the loop of `Emit` (R115): the top entry is popped, then written to the sink. -/
theorem emitFrom_succ (n : Nat) (s : State) :
    emitFrom (n + 1) s =
      (snkWrite (stkRead s.stk (s.sp - 1).toNat) >>= fun _ => emitFrom n) { s with sp := s.sp - 1 } := rfl

/-- All `Emit` may change (R110, R115): `sp`, and the sink's bytes, which only grow. -/
def EmitStep (s t : State) : Prop :=
  t = { s with sp := t.sp, snk := t.snk, answers := t.answers } ∧ s.snk <+: t.snk ∧ t.answers <:+ s.answers

theorem EmitStep.trans {s t u : State} (h : EmitStep s t) (h' : EmitStep t u) : EmitStep s u := by
  refine ⟨?_, h.2.1.trans h'.2.1, h'.2.2.trans h.2.2⟩
  have h₁ := h.1
  have h₂ := h'.1
  rw [h₁] at h₂
  exact h₂

/-- Everything the loop of `Emit` can do, whatever the host answers (R110, R115). -/
theorem emitFrom_runs (n : Nat) (s : State) :
    Runs (emitFrom n) s (fun _ t => EmitStep s t) (fun e t => EmitStep s t ∧ SinkStop s e) := by
  induction n generalizing s with
  | zero => exact ⟨rfl, List.prefix_refl _, List.suffix_refl _⟩
  | succ n ih =>
    have h₀ : EmitStep s { s with sp := s.sp - 1 } := ⟨rfl, List.prefix_refl _, List.suffix_refl _⟩
    unfold Runs
    rw [emitFrom_succ]
    refine (runs_bind _ _).2 ((snkWrite_runs _ _).mono ?_ ?_)
    · rintro _ _ ⟨-, rest, hs, rfl⟩
      have h₁ : EmitStep s { s with
          sp := s.sp - 1, answers := rest, snk := s.snk ++ [stkRead s.stk (s.sp - 1).toNat] } :=
        ⟨rfl, List.prefix_append _ _, hs⟩
      refine (ih _).mono (fun _ _ => h₁.trans) fun e u hu => ⟨h₁.trans hu.1, ?_⟩
      exact hu.2.imp_right fun ⟨ho, h'⟩ => ⟨ho, h'.imp_right fun ⟨he, hm⟩ => ⟨he, hs.mem hm⟩⟩
    · rintro e _ (⟨hc, rfl, rfl⟩ | ⟨ho, rest, hs, rfl, he⟩)
      · exact ⟨h₀, .inl ⟨hc, rfl⟩⟩
      · exact ⟨h₀.trans ⟨rfl, List.prefix_refl _, hs⟩, .inr ⟨ho, he⟩⟩

/-- `Emit` answers how many entries there were (R115). -/
theorem emit_run (s : State) :
    emit s = (emitFrom s.sp.toNat >>= fun _ => pure s.sp) s := rfl

end Sys2Proof.Machine
end

