-- ==== Sys2Proof/Laws/State.lean ====
section
/-! SUPPORT. What each named update of the state does to each field, so that no later proof unfolds one. -/

namespace Sys2Proof.Machine

/-! Recording a fault (60_exceptions R142) writes `fault` and the response. -/

@[simp] theorem takeFault_rdRack (f : FaultCode) (s : State) : (takeFault f s).rdRack = s.rdRack := rfl
@[simp] theorem takeFault_rdCnt (f : FaultCode) (s : State) : (takeFault f s).rdCnt = s.rdCnt := rfl
@[simp] theorem takeFault_wrRack (f : FaultCode) (s : State) : (takeFault f s).wrRack = s.wrRack := rfl
@[simp] theorem takeFault_wrCnt (f : FaultCode) (s : State) : (takeFault f s).wrCnt = s.wrCnt := rfl
@[simp] theorem takeFault_dict (f : FaultCode) (s : State) : (takeFault f s).dict = s.dict := rfl
@[simp] theorem takeFault_table (f : FaultCode) (s : State) : (takeFault f s).table = s.table := rfl
@[simp] theorem takeFault_stk (f : FaultCode) (s : State) : (takeFault f s).stk = s.stk := rfl
@[simp] theorem takeFault_sp (f : FaultCode) (s : State) : (takeFault f s).sp = s.sp := rfl
@[simp] theorem takeFault_encCur (f : FaultCode) (s : State) : (takeFault f s).encCur = s.encCur := rfl
@[simp] theorem takeFault_encNext (f : FaultCode) (s : State) : (takeFault f s).encNext = s.encNext := rfl
@[simp] theorem takeFault_decOld (f : FaultCode) (s : State) : (takeFault f s).decOld = s.decOld := rfl
@[simp] theorem takeFault_decNext (f : FaultCode) (s : State) : (takeFault f s).decNext = s.decNext := rfl
@[simp] theorem takeFault_mode (f : FaultCode) (s : State) : (takeFault f s).mode = s.mode := rfl
@[simp] theorem takeFault_phase (f : FaultCode) (s : State) : (takeFault f s).phase = s.phase := rfl
@[simp] theorem takeFault_fault (f : FaultCode) (s : State) : (takeFault f s).fault = some (s.fault.getD f) := rfl
@[simp] theorem takeFault_src (f : FaultCode) (s : State) : (takeFault f s).src = s.src := rfl
@[simp] theorem takeFault_srcPos (f : FaultCode) (s : State) : (takeFault f s).srcPos = s.srcPos := rfl
@[simp] theorem takeFault_snk (f : FaultCode) (s : State) : (takeFault f s).snk = s.snk := rfl
@[simp] theorem takeFault_snkClosed (f : FaultCode) (s : State) : (takeFault f s).snkClosed = s.snkClosed := rfl
@[simp] theorem takeFault_rsp (f : FaultCode) (s : State) : (takeFault f s).rsp = some (faultWord (s.fault.getD f)) := rfl
@[simp] theorem takeFault_host (f : FaultCode) (s : State) : (takeFault f s).host = s.host := rfl
@[simp] theorem takeFault_answers (f : FaultCode) (s : State) : (takeFault f s).answers = s.answers := rfl

/-! Refusing a word (60_exceptions R143) writes the response. -/

@[simp] theorem refuseWord_rdRack (f : FaultCode) (s : State) : (refuseWord f s).rdRack = s.rdRack := rfl
@[simp] theorem refuseWord_rdCnt (f : FaultCode) (s : State) : (refuseWord f s).rdCnt = s.rdCnt := rfl
@[simp] theorem refuseWord_wrRack (f : FaultCode) (s : State) : (refuseWord f s).wrRack = s.wrRack := rfl
@[simp] theorem refuseWord_wrCnt (f : FaultCode) (s : State) : (refuseWord f s).wrCnt = s.wrCnt := rfl
@[simp] theorem refuseWord_dict (f : FaultCode) (s : State) : (refuseWord f s).dict = s.dict := rfl
@[simp] theorem refuseWord_table (f : FaultCode) (s : State) : (refuseWord f s).table = s.table := rfl
@[simp] theorem refuseWord_stk (f : FaultCode) (s : State) : (refuseWord f s).stk = s.stk := rfl
@[simp] theorem refuseWord_sp (f : FaultCode) (s : State) : (refuseWord f s).sp = s.sp := rfl
@[simp] theorem refuseWord_encCur (f : FaultCode) (s : State) : (refuseWord f s).encCur = s.encCur := rfl
@[simp] theorem refuseWord_encNext (f : FaultCode) (s : State) : (refuseWord f s).encNext = s.encNext := rfl
@[simp] theorem refuseWord_decOld (f : FaultCode) (s : State) : (refuseWord f s).decOld = s.decOld := rfl
@[simp] theorem refuseWord_decNext (f : FaultCode) (s : State) : (refuseWord f s).decNext = s.decNext := rfl
@[simp] theorem refuseWord_mode (f : FaultCode) (s : State) : (refuseWord f s).mode = s.mode := rfl
@[simp] theorem refuseWord_phase (f : FaultCode) (s : State) : (refuseWord f s).phase = s.phase := rfl
@[simp] theorem refuseWord_fault (f : FaultCode) (s : State) : (refuseWord f s).fault = s.fault := rfl
@[simp] theorem refuseWord_src (f : FaultCode) (s : State) : (refuseWord f s).src = s.src := rfl
@[simp] theorem refuseWord_srcPos (f : FaultCode) (s : State) : (refuseWord f s).srcPos = s.srcPos := rfl
@[simp] theorem refuseWord_snk (f : FaultCode) (s : State) : (refuseWord f s).snk = s.snk := rfl
@[simp] theorem refuseWord_snkClosed (f : FaultCode) (s : State) : (refuseWord f s).snkClosed = s.snkClosed := rfl
@[simp] theorem refuseWord_rsp (f : FaultCode) (s : State) : (refuseWord f s).rsp = some (faultWord f) := rfl
@[simp] theorem refuseWord_host (f : FaultCode) (s : State) : (refuseWord f s).host = s.host := rfl
@[simp] theorem refuseWord_answers (f : FaultCode) (s : State) : (refuseWord f s).answers = s.answers := rfl

/-! BIND (20_memory R45) writes the two streams. -/

@[simp] theorem bindStreams_rdRack (bytes : List Byte) (s : State) : (bindStreams bytes s).rdRack = s.rdRack := rfl
@[simp] theorem bindStreams_rdCnt (bytes : List Byte) (s : State) : (bindStreams bytes s).rdCnt = s.rdCnt := rfl
@[simp] theorem bindStreams_wrRack (bytes : List Byte) (s : State) : (bindStreams bytes s).wrRack = s.wrRack := rfl
@[simp] theorem bindStreams_wrCnt (bytes : List Byte) (s : State) : (bindStreams bytes s).wrCnt = s.wrCnt := rfl
@[simp] theorem bindStreams_dict (bytes : List Byte) (s : State) : (bindStreams bytes s).dict = s.dict := rfl
@[simp] theorem bindStreams_table (bytes : List Byte) (s : State) : (bindStreams bytes s).table = s.table := rfl
@[simp] theorem bindStreams_stk (bytes : List Byte) (s : State) : (bindStreams bytes s).stk = s.stk := rfl
@[simp] theorem bindStreams_sp (bytes : List Byte) (s : State) : (bindStreams bytes s).sp = s.sp := rfl
@[simp] theorem bindStreams_encCur (bytes : List Byte) (s : State) : (bindStreams bytes s).encCur = s.encCur := rfl
@[simp] theorem bindStreams_encNext (bytes : List Byte) (s : State) : (bindStreams bytes s).encNext = s.encNext := rfl
@[simp] theorem bindStreams_decOld (bytes : List Byte) (s : State) : (bindStreams bytes s).decOld = s.decOld := rfl
@[simp] theorem bindStreams_decNext (bytes : List Byte) (s : State) : (bindStreams bytes s).decNext = s.decNext := rfl
@[simp] theorem bindStreams_mode (bytes : List Byte) (s : State) : (bindStreams bytes s).mode = s.mode := rfl
@[simp] theorem bindStreams_phase (bytes : List Byte) (s : State) : (bindStreams bytes s).phase = s.phase := rfl
@[simp] theorem bindStreams_fault (bytes : List Byte) (s : State) : (bindStreams bytes s).fault = s.fault := rfl
@[simp] theorem bindStreams_src (bytes : List Byte) (s : State) : (bindStreams bytes s).src = bytes := rfl
@[simp] theorem bindStreams_srcPos (bytes : List Byte) (s : State) : (bindStreams bytes s).srcPos = 0 := rfl
@[simp] theorem bindStreams_snk (bytes : List Byte) (s : State) : (bindStreams bytes s).snk = [] := rfl
@[simp] theorem bindStreams_snkClosed (bytes : List Byte) (s : State) : (bindStreams bytes s).snkClosed = false := rfl
@[simp] theorem bindStreams_rsp (bytes : List Byte) (s : State) : (bindStreams bytes s).rsp = s.rsp := rfl
@[simp] theorem bindStreams_host (bytes : List Byte) (s : State) : (bindStreams bytes s).host = s.host := rfl
@[simp] theorem bindStreams_answers (bytes : List Byte) (s : State) : (bindStreams bytes s).answers = s.answers := rfl

/-! Presenting a command word writes the host's pending actions. -/

@[simp] theorem State.withFetchWord_rdRack (s : State) (nbits w : Nat) : (s.withFetchWord nbits w).rdRack = s.rdRack := rfl
@[simp] theorem State.withFetchWord_rdCnt (s : State) (nbits w : Nat) : (s.withFetchWord nbits w).rdCnt = s.rdCnt := rfl
@[simp] theorem State.withFetchWord_wrRack (s : State) (nbits w : Nat) : (s.withFetchWord nbits w).wrRack = s.wrRack := rfl
@[simp] theorem State.withFetchWord_wrCnt (s : State) (nbits w : Nat) : (s.withFetchWord nbits w).wrCnt = s.wrCnt := rfl
@[simp] theorem State.withFetchWord_dict (s : State) (nbits w : Nat) : (s.withFetchWord nbits w).dict = s.dict := rfl
@[simp] theorem State.withFetchWord_table (s : State) (nbits w : Nat) : (s.withFetchWord nbits w).table = s.table := rfl
@[simp] theorem State.withFetchWord_stk (s : State) (nbits w : Nat) : (s.withFetchWord nbits w).stk = s.stk := rfl
@[simp] theorem State.withFetchWord_sp (s : State) (nbits w : Nat) : (s.withFetchWord nbits w).sp = s.sp := rfl
@[simp] theorem State.withFetchWord_encCur (s : State) (nbits w : Nat) : (s.withFetchWord nbits w).encCur = s.encCur := rfl
@[simp] theorem State.withFetchWord_encNext (s : State) (nbits w : Nat) : (s.withFetchWord nbits w).encNext = s.encNext := rfl
@[simp] theorem State.withFetchWord_decOld (s : State) (nbits w : Nat) : (s.withFetchWord nbits w).decOld = s.decOld := rfl
@[simp] theorem State.withFetchWord_decNext (s : State) (nbits w : Nat) : (s.withFetchWord nbits w).decNext = s.decNext := rfl
@[simp] theorem State.withFetchWord_mode (s : State) (nbits w : Nat) : (s.withFetchWord nbits w).mode = s.mode := rfl
@[simp] theorem State.withFetchWord_phase (s : State) (nbits w : Nat) : (s.withFetchWord nbits w).phase = s.phase := rfl
@[simp] theorem State.withFetchWord_fault (s : State) (nbits w : Nat) : (s.withFetchWord nbits w).fault = s.fault := rfl
@[simp] theorem State.withFetchWord_src (s : State) (nbits w : Nat) : (s.withFetchWord nbits w).src = s.src := rfl
@[simp] theorem State.withFetchWord_srcPos (s : State) (nbits w : Nat) : (s.withFetchWord nbits w).srcPos = s.srcPos := rfl
@[simp] theorem State.withFetchWord_snk (s : State) (nbits w : Nat) : (s.withFetchWord nbits w).snk = s.snk := rfl
@[simp] theorem State.withFetchWord_snkClosed (s : State) (nbits w : Nat) : (s.withFetchWord nbits w).snkClosed = s.snkClosed := rfl
@[simp] theorem State.withFetchWord_rsp (s : State) (nbits w : Nat) : (s.withFetchWord nbits w).rsp = s.rsp := rfl
@[simp] theorem State.withFetchWord_host (s : State) (nbits w : Nat) : (s.withFetchWord nbits w).host = .command (tableWord nbits w) :: s.host := rfl
@[simp] theorem State.withFetchWord_answers (s : State) (nbits w : Nat) : (s.withFetchWord nbits w).answers = s.answers := rfl

/-! Reset (70_reset_and_hazards R170) writes every piece of state of the spec and the response. -/

@[simp] theorem hostReset_rdRack (s : State) : (hostReset s).rdRack = 0 := rfl
@[simp] theorem hostReset_rdCnt (s : State) : (hostReset s).rdCnt = 0 := rfl
@[simp] theorem hostReset_wrRack (s : State) : (hostReset s).wrRack = 0 := rfl
@[simp] theorem hostReset_wrCnt (s : State) : (hostReset s).wrCnt = 0 := rfl
@[simp] theorem hostReset_dict (s : State) : (hostReset s).dict = [] := rfl
@[simp] theorem hostReset_table (s : State) : (hostReset s).table = [] := rfl
@[simp] theorem hostReset_stk (s : State) : (hostReset s).stk = [] := rfl
@[simp] theorem hostReset_sp (s : State) : (hostReset s).sp = 0 := rfl
@[simp] theorem hostReset_encCur (s : State) : (hostReset s).encCur = 0 := rfl
@[simp] theorem hostReset_encNext (s : State) : (hostReset s).encNext = 257 := rfl
@[simp] theorem hostReset_decOld (s : State) : (hostReset s).decOld = 0 := rfl
@[simp] theorem hostReset_decNext (s : State) : (hostReset s).decNext = 257 := rfl
@[simp] theorem hostReset_mode (s : State) : (hostReset s).mode = .none := rfl
@[simp] theorem hostReset_phase (s : State) : (hostReset s).phase = .idle := rfl
@[simp] theorem hostReset_fault (s : State) : (hostReset s).fault = none := rfl
@[simp] theorem hostReset_src (s : State) : (hostReset s).src = [] := rfl
@[simp] theorem hostReset_srcPos (s : State) : (hostReset s).srcPos = 0 := rfl
@[simp] theorem hostReset_snk (s : State) : (hostReset s).snk = [] := rfl
@[simp] theorem hostReset_snkClosed (s : State) : (hostReset s).snkClosed = false := rfl
@[simp] theorem hostReset_rsp (s : State) : (hostReset s).rsp = none := rfl
@[simp] theorem hostReset_host (s : State) : (hostReset s).host = s.host := rfl
@[simp] theorem hostReset_answers (s : State) : (hostReset s).answers = s.answers := rfl

end Sys2Proof.Machine
end

