-- ==== Sys2Proof/Tests/Slice0.lean ====
section
/-! SUPPORT. The model's own tests. Expected words, bytes and register values are those of spec/95_test_vectors (the
vector is named beside each test). After them, for each statement with premises, a concrete state and operands that
meet the premises. -/

namespace Sys2Proof.Tests

open Sys2Proof.Machine

/-! ## Reading an outcome -/

/-- What `f` reads in the next state, if there is one. -/
def after {α : Type} (o : Host.Outcome State Machine.Fault Refusal) (f : State → α) : Option α :=
  match o with
  | .next t => some (f t)
  | .fault _ => none
  | .refused _ => none

/-- The next state, or the reset state when there is none. -/
def stateOf (o : Host.Outcome State Machine.Fault Refusal) : State := (after o id).getD State.reset

theorem next_of {o : Host.Outcome State Machine.Fault Refusal} (h : (after o fun _ => ()) = some ()) :
    o = .next (stateOf o) := by
  cases o <;> first | rfl | exact absurd h (by simp [after])

/-- The state after reset and a BIND of `bytes`. -/
def bound (bytes : List Byte) : State := { State.reset with src := bytes }

/-! ## Well-formed operands (30_encoding R75): an ill-formed term for each check -/

theorem test_wf_width_zero : wellFormed hw (.rdbits 0) = false := by decide
theorem test_wf_width_33 : wellFormed hw (.wrbits 33 0) = false := by decide
theorem test_wf_slot_5021 : wellFormed hw (.drsrv 5021 257 0 0) = false := by decide
theorem test_wf_reserve_code_256 : wellFormed hw (.drsrv 0 256 0 0) = false := by decide
theorem test_wf_assign_code_256 : wellFormed hw (.tassign 256 65 0x41) = false := by decide
theorem test_wf_legal : [Instr.rdbits 32, .wrbits 1 7, .drsrv 5020 4095 4095 255, .tassign 257 256 0].all
    (wellFormed hw) = true := by decide

/-- 00_scope R5: the values this hardware takes meet the constraints on them. -/
theorem test_hw_valid : hw.Valid :=
  ⟨by norm_num [hw], by decide, by decide, by decide, by decide, by decide, by decide, by decide⟩

/-! ## Decoding: words of 95_test_vectors, field by field as R73 lays them out -/

/-- V1. -/
theorem test_decode_rdbit : decode 0x1000000000000000 = .ok .rdbit := by decide
/-- V1: RDBITS 5. -/
theorem test_decode_rdbits : decode 0x2140000000000000 = .ok (.rdbits 5) := by decide
/-- V6: WRBIT 1. -/
theorem test_decode_wrbit : decode 0x3000000000000001 = .ok (.wrbit true) := by decide
/-- V9: WRBITS 0x1FF, 9. -/
theorem test_decode_wrbits : decode 0x42400000000001FF = .ok (.wrbits 9 0x1FF) := by decide
/-- V6. -/
theorem test_decode_wrclose : decode 0x5000000000000000 = .ok .wrclose := by decide
/-- R73: the word of DCLR. -/
theorem test_decode_dclr : decode 0x6000000000000000 = .ok .dclr := by decide
/-- V12: DPROBE 1105, 0. -/
theorem test_decode_dprobe : decode 0x7000000000045100 = .ok (.dprobe 1105 0) := by decide
/-- V12: DRSRV 5020, 261, 16, 1. -/
theorem test_decode_drsrv : decode 0x8000139C10501001 = .ok (.drsrv 5020 261 16 1) := by decide
/-- V30: TCLR. -/
theorem test_decode_tclr : decode 0x9000000000000000 = .ok .tclr := by decide
/-- V15: TASSIGN 258, 257, 'C'. -/
theorem test_decode_tassign : decode 0xA000000010210143 = .ok (.tassign 258 257 0x43) := by decide
/-- V15: TWALK 255. -/
theorem test_decode_twalk : decode 0xB00000000FF00000 = .ok (.twalk 255) := by decide
/-- V15. -/
theorem test_decode_temit : decode 0xC000000000000000 = .ok .temit := by decide
/-- P5. -/
theorem test_decode_decode : decode 0xE000000000000000 = .ok .decode := by decide
/-- R73: the word of ENCODE. -/
theorem test_decode_encode : decode 0xD000000000000000 = .ok .encode := by decide

/-- V28: each of these words is illegal. -/
theorem test_decode_illegal :
    [0x0000000000000000, 0xFFFFFFFFFFFFFFFF, 0xF000000000000000, 0x1000000000000001, 0x2300000000000001,
      0x2320000000000000, 0x3000000000000002, 0x4300000100000041, 0x7000000000100000, 0x8000200010100000,
      0xB000000010100001, 0xD040000000000000].all (fun w => (decodeTableWord 64 w).isNone) = true := by decide

/-- The table's number of a command is its word. -/
theorem test_table_word : decodeTableWord 64 0x2300000000000000 = some (.rdbits 12) := by decide

/-! ## One command each -/

/-- V28: the all-zero word is fault 3. -/
theorem test_illegal_word : after (step (State.reset.withFetchWord 64 0)) (fun t => (t.fault, t.rsp)) =
    some (some .illegalCommand, some 0x2300000000000000) := by decide

/-- V4: RDBIT of an empty source, fetched and run as the first command, answers EOF. -/
theorem test_step_rdbit : after (step (State.reset.withFetchWord 64 0x1000000000000000))
    (fun t => (t.rsp, t.rdCnt, t.srcPos)) = some (some 0x1000000000000000, 0, 0) := by decide

/-- V1: the first bit of A5 is its bit 7. -/
theorem test_rdbit_pulls : after (exec .rdbit (bound [0xA5, 0x3C])) (fun t => (t.rsp, t.rdRack, t.rdCnt, t.srcPos)) =
    some (some 1, 0xA5, 7, 1) := by decide

/-- V2: a field of 12 bits over a byte boundary. -/
theorem test_rdbits_straddles : after (exec (.rdbits 12) (bound [0x04, 0x11, 0x00]))
    (fun t => (t.rsp, t.rdRack, t.rdCnt, t.srcPos)) = some (some 0x41, 0x11, 4, 2) := by decide +kernel

/-- V3: EOF inside a field consumes the bits that were there. -/
theorem test_rdbits_eof : after (exec (.rdbits 8) { bound [0xDE, 0xAD, 0xBE, 0xEF, 0x80] with
      srcPos := 5, rdRack := 0x80, rdCnt := 7 }) (fun t => (t.rsp, t.rdRack, t.rdCnt, t.srcPos)) =
    some (some 0x1000000000000000, 0x80, 0, 5) := by decide +kernel

/-- V6: WRBIT 1 after the four bits 0101. -/
theorem test_wrbit_places : after (exec (.wrbit true) { State.reset with wrRack := 0x50, wrCnt := 4 })
    (fun t => (t.rsp, t.wrRack, t.wrCnt, t.snk)) = some (some 0, 0x58, 5, []) := by decide

/-- V9: the eighth bit flushes the byte. -/
theorem test_wrbit_flushes : after (exec (.wrbit true) { State.reset with wrCnt := 7 })
    (fun t => (t.rsp, t.wrRack, t.wrCnt, t.snk)) = some (some 0, 0, 0, [0x01]) := by decide

/-- V6: only the four low bits of the value are written. -/
theorem test_wrbits_truncates : after (exec (.wrbits 4 0xFFFFF5) State.reset)
    (fun t => (t.rsp, t.wrRack, t.wrCnt, t.snk)) = some (some 0, 0x50, 4, []) := by decide +kernel

/-- V9: a field over a byte boundary. -/
theorem test_wrbits_straddles : after (exec (.wrbits 9 0x1FF) { State.reset with snk := [0x01] })
    (fun t => (t.rsp, t.wrRack, t.wrCnt, t.snk)) = some (some 0, 0x80, 1, [0x01, 0xFF]) := by decide +kernel

/-- V6: the partial byte is padded with zeros and the sink closed. -/
theorem test_wrclose_flushes : after (exec .wrclose { State.reset with wrRack := 0xA0, wrCnt := 4, snk := [0x5A] })
    (fun t => (t.rsp, t.wrRack, t.wrCnt, t.snk, t.snkClosed)) = some (some 0, 0, 0, [0x5A, 0xA0], true) := by decide

/-- V8: with no bit placed no byte is written. -/
theorem test_wrclose_alone : after (exec .wrclose State.reset) (fun t => (t.rsp, t.snk, t.snkClosed)) =
    some (some 0, [], true) := by decide

/-- R103: an occupied slot becomes EMPTY. -/
theorem test_dclr : after (exec .dclr { State.reset with dict := [(1105, ⟨257, 65, 0x41⟩)] })
    (fun t => (t.rsp, t.dict)) = some (some 0, []) := by decide

/-- V12: DPROBE 1105, 0 with 1105 and 2210 taken misses at 3315. -/
theorem test_dprobe_miss : after (exec (.dprobe 1105 0) { State.reset with
      dict := [(1105, ⟨257, 65, 0x41⟩), (2210, ⟨258, 81, 0x40⟩)] }) (fun t => t.rsp) =
    some (some 0x00000CF300000000) := by decide +kernel

/-- V12: DPROBE 16, 1 goes from slot 0 to slot 5020 and hits. -/
theorem test_dprobe_hit_wraps : after (exec (.dprobe 16 1) { State.reset with
      dict := [(0, ⟨260, 0, 0⟩), (5020, ⟨261, 16, 1⟩)] }) (fun t => t.rsp) =
    some (some 0x0000339C10500000) := by decide +kernel

/-- V13: DRSRV 5020, 4095, 4095, 255. -/
theorem test_drsrv : after (exec (.drsrv 5020 4095 4095 255) State.reset) (fun t => (t.rsp, t.dict)) =
    some (some 0, [(5020, ⟨4095, 4095, 255⟩)]) := by decide

/-- V13: an occupied slot is not reserved again. -/
theorem test_drsrv_occupied : after (exec (.drsrv 5020 258 1 1) { State.reset with
      dict := [(5020, ⟨4095, 4095, 255⟩)] }) (fun t => (t.rsp, t.dict)) =
    some (some 0x2600000000000000, [(5020, ⟨4095, 4095, 255⟩)]) := by decide

/-- R111: an assigned cell becomes UNUSED. -/
theorem test_tclr : after (exec .tclr { State.reset with table := [(257, ⟨65, 0x42⟩)] })
    (fun t => (t.rsp, t.table)) = some (some 0, []) := by decide

/-- V15: TASSIGN 258, 257, 'C'. -/
theorem test_tassign : after (exec (.tassign 258 257 0x43) { State.reset with table := [(257, ⟨65, 0x42⟩)] })
    (fun t => (t.rsp, t.table)) = some (some 0, [(257, ⟨65, 0x42⟩), (258, ⟨257, 0x43⟩)]) := by decide

/-- V16a: a cell is not assigned twice. -/
theorem test_tassign_twice : after (exec (.tassign 257 65 0x42) { State.reset with table := [(257, ⟨65, 0x42⟩)] })
    (fun t => t.rsp) = some (some 0x2600000000000000) := by decide

/-- V15: TWALK 258 leaves C B A on the stack and answers 3 and A. -/
theorem test_twalk : after (exec (.twalk 258) { State.reset with
      table := [(257, ⟨65, 0x42⟩), (258, ⟨257, 0x43⟩)] }) (fun t => (t.rsp, t.stk, t.sp)) =
    some (some 0x0000000300000041, [(0, 0x43), (1, 0x42), (2, 0x41)], 3) := by decide +kernel

/-- V16a: TWALK 257 of a cell whose parent is 256 pushes one byte, then faults. -/
theorem test_twalk_unassigned : after (exec (.twalk 257) { State.reset with table := [(257, ⟨256, 0x42⟩)] })
    (fun t => (t.rsp, t.fault, t.sp)) = some (some 0x2700000000000000, some .tableUnassigned, 1) := by decide +kernel

/-- V15: TEMIT writes the stack, top first. -/
theorem test_temit : after (exec .temit { State.reset with stk := [(0, 0x43), (1, 0x42), (2, 0x41)], sp := 3 })
    (fun t => (t.rsp, t.snk, t.sp)) = some (some 0x0000000300000000, [0x41, 0x42, 0x43], 0) := by decide +kernel

/-- V29: TEMIT to a closed sink pops before it faults. -/
theorem test_temit_closed : after (exec .temit { State.reset with stk := [(0, 0x41)], sp := 1, snkClosed := true })
    (fun t => (t.rsp, t.snk, t.sp)) = some (some 0x2500000000000000, [], 0) := by decide +kernel

/-- S1: ENCODE of nothing. -/
theorem test_encode_nothing : after (exec .encode State.reset)
    (fun t => (t.rsp, t.snk, t.snkClosed, t.encNext, t.phase)) = some (some 0, [0x10, 0x00], true, 257, .done) := by
  decide +kernel

/-- V19: ENCODE of AABABABAB. -/
theorem test_encode : after (exec .encode (bound [0x41, 0x41, 0x42, 0x41, 0x42, 0x41, 0x42, 0x41, 0x42]))
    (fun t => (t.snk, t.encCur, t.encNext)) =
    some ([0x04, 0x10, 0x41, 0x04, 0x21, 0x02, 0x10, 0x40, 0x42, 0x10, 0x00], 66, 262) := by decide +kernel

/-- V21: DECODE of V19's stream takes the pending branch. -/
theorem test_decode_pending :
    after (exec .decode (bound [0x04, 0x10, 0x41, 0x04, 0x21, 0x02, 0x10, 0x40, 0x42, 0x10, 0x00]))
    (fun t => (t.snk, t.decOld, t.decNext, t.rdCnt, t.srcPos, t.sp)) =
    some ([0x41, 0x41, 0x42, 0x41, 0x42, 0x41, 0x42, 0x41, 0x42], 66, 262, 4, 11, 0) := by decide +kernel

/-- V25: DECODE of the codes 65, 300, 66, 258, 256 ends in TABLE_UNASSIGNED. -/
theorem test_decode_malformed :
    after (exec .decode (bound [0x04, 0x11, 0x2C, 0x04, 0x21, 0x02, 0x10, 0x00]))
    (fun t => (t.rsp, t.snk, t.srcPos)) =
    some (some 0x2700000000000000, [0x41, 0x41, 0x41, 0x42], 6) := by decide +kernel

/-! ## Premises that can be met

For each statement with premises, a concrete state and operands that meet all of them; for a statement with several
clauses, one for each clause, at a boundary of its range. A premise `exec i s = .next t` is met with `t` the next
state itself (`stateOf`). -/

/-- A legal state at the bounds of its registers, with a command pending. -/
def legalState : State := { bound [0x01] with
  rdRack := 0xA5, rdCnt := 8, wrRack := 0x80, wrCnt := 1
  dict := [(0, ⟨257, 0, 0⟩), (5020, ⟨4095, 4095, 255⟩)], table := [(257, ⟨65, 0x42⟩), (4095, ⟨4095, 0⟩)]
  stk := [(0, 1), (4095, 0x41)], sp := 4096, encNext := 4096, decNext := 257, mode := .enc, phase := .done
  srcPos := 1, host := [.command 0x1000000000000000] }

theorem legalState_inv : legalState.Inv where
  rdCnt := by decide
  wrRack := fun _ => by decide
  dictRising := by decide
  dictLegal := by decide
  tableRising := by decide
  tableLegal := by decide
  stkWf := by decide
  stkLegal := by decide
  sp := by decide
  encNext := by decide
  decNext := by decide
  srcPos := by decide
  scanning := by decide
  idle := by decide

theorem witness_EncodeOfDecode : decode 0x2300000000000000 = .ok (.rdbits 12) := by decide

theorem witness_OpcodeMapClassifies : ∃ (w : Word) (r r' : Word × Word), r ∈ opcodeRows ∧ r' ∈ opcodeRows ∧
    w &&& r.2 = r.1 ∧ w &&& r'.2 = r'.1 :=
  ⟨0x2300000000000000, _, _, List.mem_cons_of_mem _ List.mem_cons_self, List.mem_cons_of_mem _ List.mem_cons_self,
    by decide, by decide⟩

theorem witness_StepRunsDecodedCommand : ∃ (s : State) (w : Word) (rest : List HostAction) (i : Instr),
    s.host = .command w :: rest ∧ decode w = .ok i :=
  ⟨legalState, _, _, .rdbit, rfl, by decide⟩

theorem witness_IllegalWordRecorded : ∃ (s : State) (w : Word) (rest : List HostAction) (r : Reject),
    s.fault = none ∧ s.host = .command w :: rest ∧ decode w = .error r :=
  ⟨State.reset.withFetchWord 64 0, _, _, .reservedOp, rfl, rfl, by decide⟩

theorem witness_FaultRefusesUntilReset_word : ∃ (s : State) (f : FaultCode) (w : Word) (rest : List HostAction),
    s.fault = some f ∧ s.host = .command w :: rest :=
  ⟨{ legalState with fault := some .probeExhausted }, _, _, _, rfl, rfl⟩

theorem witness_FaultRefusesUntilReset_reset : ∃ (s t : State) (f : FaultCode),
    s.fault = some f ∧ step s = .next t ∧ t.fault ≠ some f :=
  ⟨{ legalState with fault := some .srcIo, host := [.reset] }, _, _, rfl, next_of (by decide), by decide⟩

theorem witness_BindReplacesStreams : ∃ (s : State) (bytes : List Byte) (rest : List HostAction),
    s.host = .bind bytes :: rest :=
  ⟨{ legalState with host := [.bind [0xA5]] }, _, _, rfl⟩

theorem witness_ResetLeavesResetValues : ∃ (s s' : State) (rest rest' : List HostAction) (w : Word),
    s.host = .reset :: rest ∧ s'.host = .resetDuring w :: rest' :=
  ⟨{ legalState with host := [.reset] }, { legalState with host := [.resetDuring 0xD000000000000000] }, _, _, _, rfl,
    rfl⟩

theorem witness_StepKeepsLegal : legalState.Inv ∧ step legalState = .next (stateOf (step legalState)) :=
  ⟨legalState_inv, next_of (by decide)⟩

theorem witness_CommandEndsInOneOfThreeWays : Answered { legalState with answers := [.fail, .ok] } := by decide

theorem witness_OnlySilentHostStops : ∃ (s : State) (f : Machine.Fault) (rest : List PortAnswer),
    exec .rdbit s = .fault f ∧ s.fault = none ∧ s.rdCnt = 0 ∧ s.answers = .never :: rest :=
  ⟨{ State.reset with answers := [.never] }, .portNeverAnswered, _, rfl, rfl, rfl, rfl⟩

theorem witness_IllegalWidthRefused : State.reset.fault = none ∧ (0 : BitVec 6).toNat = 0 ∧ 32 < (33 : BitVec 6).toNat ∧
    32 < (63 : BitVec 6).toNat := by decide

theorem witness_IllegalOperandRefused : ∃ s : State, s.fault = none ∧ 5021 ≤ (5021 : SlotIndex).toNat ∧
    (∃ e, lookup s.dict (5020 : SlotIndex).toNat = some e) ∧ (256 : Code).toNat < 257 ∧
    ∃ e, lookup s.table (4095 : Code).toNat = some e :=
  ⟨legalState, rfl, by decide, ⟨_, rfl⟩, by decide, _, rfl⟩

theorem witness_ClosedSinkRefused : ∃ s : State, s.fault = none ∧ s.snkClosed = true ∧
    [Instr.wrbit true, .wrbits 1 1, .wrbits 32 0, .wrclose, .encode].all (wellFormed hw) = true :=
  ⟨{ State.reset with snkClosed := true }, by decide⟩

/-- The first clause: ENCODE of one byte, whose first write fails (SNK_IO, at the end of the source) and whose first
read fails (SRC_IO). -/
theorem witness_PortFailureTransfersNothing_any : ∃ s s' t t' : State, s.fault = none ∧ s'.fault = none ∧
    exec .encode s = .next t ∧ t.fault = some .snkIo ∧ exec .encode s' = .next t' ∧ t'.fault = some .srcIo :=
  ⟨{ bound [0x41] with answers := [.ok, .ok, .fail] }, { bound [0x41] with answers := [.fail] }, _, _, rfl, rfl,
    next_of (by decide +kernel), by decide +kernel, next_of (by decide +kernel), by decide +kernel⟩

/-- The second clause: each command's premises, RDBITS and WRBITS at the least width that makes a transaction. -/
theorem witness_PortFailureTransfersNothing_first : ∃ s s' : State,
    (s.fault = none ∧ s.answers = .fail :: [] ∧ s.rdCnt = 0 ∧ legalWidth hw 1 = true ∧
      s.rdCnt.toNat < (1 : BitVec 6).toNat) ∧
    s'.fault = none ∧ s'.answers = .fail :: [] ∧ s'.snkClosed = false ∧ s'.wrCnt = 7 ∧ s'.wrCnt ≠ 0 ∧
    8 ≤ s'.wrCnt.toNat + (1 : BitVec 6).toNat ∧ s'.sp ≠ 0 ∧ s'.rdCnt.toNat < (9 : BitVec 6).toNat ∧
    legalWidth hw 9 = true :=
  ⟨{ State.reset with answers := [.fail] }, { legalState with answers := [.fail], wrRack := 0xFE, wrCnt := 7 },
    by decide⟩

theorem witness_RdbitDelivers : ∃ s s' s'' : State, (Ready s ∧ s.rdCnt ≠ 0) ∧
    (Ready s' ∧ s'.rdCnt = 0 ∧ s'.src[s'.srcPos]? = some 0xA5) ∧
    (Ready s'' ∧ s''.rdCnt = 0 ∧ s''.src[s''.srcPos]? = none) :=
  ⟨{ bound [] with rdRack := 0x80, rdCnt := 8, answers := [.ok] }, { bound [0xA5] with answers := [.ok] }, bound [],
    by decide⟩

theorem witness_RdbitsReadsNextBits : ∃ s : State, Ready s ∧ s.rdCnt.toNat ≤ 8 ∧ legalWidth hw 1 = true ∧
    legalWidth hw 32 = true ∧ (1 : BitVec 6).toNat ≤ (pendingBits s).length ∧
    (pendingBits s).length < (32 : BitVec 6).toNat :=
  ⟨{ bound [0xA5, 0x3C] with rdRack := 0x80, rdCnt := 8 }, by decide⟩

theorem witness_EofIsSticky : ∃ (s t : State) (n : BitVec 6), exec .rdbit s = .next t ∧ t.rsp = some eofWord ∧
    Served t ∧ legalWidth hw n = true :=
  ⟨bound [], _, 32, next_of (by decide), by decide, by decide, by decide⟩

theorem witness_RdbitsComposes : ∃ (s t u : State) (a b : BitVec 6) (x y : BitVec 32), a.toNat + b.toNat ≤ 32 ∧
    exec (.rdbits a) s = .next t ∧ t.rsp = some (okData x) ∧ exec (.rdbits b) t = .next u ∧ u.rsp = some (okData y) :=
  ⟨bound [0xDE, 0xAD, 0xBE, 0xEF], _, _, 12, 20, 0xDEA, 0xDBEEF, by decide, next_of (by decide +kernel),
    by decide +kernel, next_of (by decide +kernel), by decide +kernel⟩

theorem witness_ReaderFrame : ∃ (i : Instr) (s t : State), (∃ n, i = .rdbits n) ∧ exec i s = .next t :=
  ⟨_, bound [0xA5], _, ⟨8, rfl⟩, next_of (by decide +kernel)⟩

theorem witness_WrbitPlaces : ∃ s s' : State, (Ready s ∧ s.snkClosed = false ∧ s.wrCnt ≠ 7) ∧
    Ready s' ∧ s'.snkClosed = false ∧ s'.wrCnt = 7 ∧ 7 < 8 :=
  ⟨{ State.reset with wrCnt := 6 }, { State.reset with wrRack := 0xFE, wrCnt := 7, answers := [.ok] }, by decide⟩

theorem witness_WrbitsAppendsBits : ∃ s : State, Ready s ∧ s.snkClosed = false ∧ legalWidth hw 1 = true ∧
    legalWidth hw 32 = true ∧ ∀ j < 8 - s.wrCnt.toNat, s.wrRack.getLsbD j = false :=
  ⟨{ State.reset with wrRack := 0xFE, wrCnt := 7 }, by decide⟩

theorem witness_WrbitsComposes : ∃ (s t u : State) (p q : BitVec 6) (a b : BitVec 32), p.toNat + q.toNat ≤ 32 ∧
    exec (.wrbits p a) s = .next t ∧ t.rsp = some okPlain ∧ exec (.wrbits q b) t = .next u ∧ u.rsp = some okPlain :=
  ⟨State.reset, _, _, 12, 20, 0xDEA, 0xDBEEF, by decide, next_of (by decide +kernel), by decide +kernel,
    next_of (by decide +kernel), by decide +kernel⟩

theorem witness_WrcloseFlushes : ∃ s s' : State, (Ready s ∧ s.snkClosed = false ∧ s.wrCnt = 0) ∧
    Ready s' ∧ s'.snkClosed = false ∧ s'.wrCnt = 7 :=
  ⟨State.reset, { State.reset with wrRack := 0xFE, wrCnt := 7 }, by decide⟩

theorem witness_WriterFrame : ∃ (s t t' t'' : State), exec (.wrbit true) s = .next t ∧
    exec (.wrbits 32 7) s = .next t' ∧ exec .wrclose s = .next t'' :=
  ⟨legalState, _, _, _, next_of (by decide +kernel), next_of (by decide +kernel), next_of (by decide +kernel)⟩

theorem witness_FieldRoundTrip : ∃ (s : State) (n : BitVec 6), Ready s ∧ s.snkClosed = false ∧ s.snk = [] ∧
    s.wrCnt = 0 ∧ s.rdCnt = 0 ∧ legalWidth hw n = true :=
  ⟨State.reset, 32, by decide⟩

theorem witness_DclrClears : legalState.fault = none := rfl

/-- Every slot occupied, none by the key (0, 0). -/
def fullDict : List (Nat × DictEntry) := (List.range' 0 5021).map fun i => (i, ⟨257, 66, 0x42⟩)

theorem lookup_fullDict {slot : Nat} (h : slot < 5021) : lookup fullDict slot = some ⟨257, 66, 0x42⟩ :=
  lookup_run (fun _ => DictEntry.mk 257 66 0x42) 5021 0 slot (Nat.zero_le _) (by omega)

/-- The path of the key (0, 0): slot 0, then downwards from 5020. -/
theorem probeSlot_zero (j : Nat) (h : j < 5020) : probeSlot 0 0 (j + 1) = 5020 - j := by
  induction j with
  | zero => decide +kernel
  | succ j ih =>
    have hs : probeSlot 0 0 (j + 1 + 1) = nextSlot hw (probeStep hw (hash hw 0 0)) (probeSlot 0 0 (j + 1)) :=
      Function.iterate_succ_apply' _ _ _
    have h1 : probeStep hw (hash hw 0 0) = 1 := by decide
    rw [hs, ih (by omega), h1]
    unfold nextSlot
    rw [if_pos (by omega)]
    omega

/-- The last slot of the path of (0, 0) is slot 1. -/
theorem probeSlot_zero_last : probeSlot 0 0 5020 = 1 := probeSlot_zero 5019 (by omega)

theorem probeSlot_zero_other {j : Nat} (h : j < 5020) : probeSlot 0 0 j < 5021 ∧ probeSlot 0 0 j ≠ 1 := by
  cases j with
  | zero => decide +kernel
  | succ j =>
    rw [probeSlot_zero j (by omega)]
    omega

/-- Both clauses at the last slot of a path: every other slot is occupied by another key. -/
theorem witness_DprobeAnswersFirst : ∃ s s' : State, s.fault = none ∧ s'.fault = none ∧
    (∀ j < 5020, ∃ e, lookup s.dict (probeSlot 0 0 j) = some e ∧ ¬(e.parent = 0 ∧ e.char = 0)) ∧
    (∀ j < 5020, ∃ e, lookup s'.dict (probeSlot 0 0 j) = some e ∧ ¬(e.parent = 0 ∧ e.char = 0)) ∧
    lookup s.dict (probeSlot 0 0 5020) = none ∧ lookup s'.dict (probeSlot 0 0 5020) = some ⟨300, 0, 0⟩ := by
  refine ⟨{ State.reset with dict := (0, ⟨257, 66, 0x42⟩) :: (List.range' 2 5019).map fun i => (i, ⟨257, 66, 0x42⟩) },
    { State.reset with dict := insert fullDict 1 ⟨300, 0, 0⟩ }, rfl, rfl, fun j hj => ?_, fun j hj => ?_, ?_, ?_⟩
  · obtain ⟨hl, hn⟩ := probeSlot_zero_other hj
    refine ⟨⟨257, 66, 0x42⟩, ?_, by decide⟩
    rw [lookup_cons]
    split_ifs
    · rfl
    · exact lookup_run (fun _ => DictEntry.mk 257 66 0x42) 5019 2 _ (by omega) (by omega)
  · obtain ⟨hl, hn⟩ := probeSlot_zero_other hj
    refine ⟨⟨257, 66, 0x42⟩, ?_, by decide⟩
    rw [lookup_insert, if_neg hn]
    exact lookup_fullDict hl
  · rw [probeSlot_zero_last]
    refine lookup_eq_none fun c hc => ?_
    rcases List.mem_cons.1 hc with rfl | hc
    · decide
    · obtain ⟨i, hi, rfl⟩ := List.mem_map.1 hc
      have := List.mem_range'_1.1 hi
      simp only
      omega
  · rw [probeSlot_zero_last, lookup_insert, if_pos rfl]

theorem witness_DprobeCompletes : legalState.fault = none ∧ 5019 < 5021 ∧ lookup legalState.dict 5019 = none := by
  decide

theorem witness_DprobeExhausted : ∃ s : State, s.fault = none ∧
    ∀ slot < 5021, ∃ e, lookup s.dict slot = some e ∧ ¬(e.parent = 0 ∧ e.char = 0) :=
  ⟨{ State.reset with dict := fullDict }, rfl, fun _ h => ⟨_, lookup_fullDict h, by decide⟩⟩

theorem witness_DrsrvReserves : ∃ s : State, s.fault = none ∧ (5020 : SlotIndex).toNat < 5021 ∧
    lookup s.dict (5020 : SlotIndex).toNat = none ∧ 257 ≤ (257 : Code).toNat ∧ 257 ≤ (4095 : Code).toNat :=
  ⟨State.reset, by decide⟩

theorem witness_ProbeFindsExactlyReserved : Built (insert (insert [] 1105 ⟨257, 65, 0x41⟩) 2210 ⟨258, 81, 0x40⟩) :=
  .reserve _ (.reserve _ .clear (by decide +kernel)) (by decide +kernel)

theorem witness_DictionaryFrame : ∃ s t t' t'' : State, exec .dclr s = .next t ∧ exec (.dprobe 65 0x41) s = .next t' ∧
    exec (.drsrv 5019 257 0 0) s = .next t'' :=
  ⟨legalState, _, _, _, next_of (by decide), next_of (by decide +kernel), next_of (by decide)⟩

theorem witness_TclrClears : legalState.fault = none ∧ 257 ≤ (257 : Code).toNat ∧ 257 ≤ (4095 : Code).toNat := by decide

theorem witness_TassignAssigns : legalState.fault = none ∧ 257 ≤ (258 : Code).toNat ∧
    lookup legalState.table (258 : Code).toNat = none ∧ lookup State.reset.table (4095 : Code).toNat = none := by decide

theorem witness_TwalkResolves : ∃ (s : State) (code : Code), s.fault = none ∧ rising s.stk ∧
    chainBytes s.table 4096 code = some [0x43, 0x42, 0x41] ∧ chainBytes s.table 4096 255 = some [0xFF] :=
  ⟨{ legalState with table := [(257, ⟨65, 0x42⟩), (258, ⟨257, 0x43⟩)] }, 258, rfl, by decide, by decide +kernel,
    by decide +kernel⟩

/-- All 3839 cells, each with the code below it as its parent: a walk of 4095 comes past all of them to 256. -/
def chainTable : List (Nat × TableEntry) := (List.range' 257 3839).map fun c => (c, ⟨BitVec.ofNat 12 (c - 1), 0⟩)

theorem linkAfter_chainTable (j : Nat) : j ≤ 3839 → ∀ c, c = 256 + j → linkAfter chainTable j (BitVec.ofNat 12 c) =
    some 256 := by
  induction j with
  | zero =>
    rintro - c rfl
    rfl
  | succ j ih =>
    rintro hj c rfl
    have hc : (BitVec.ofNat 12 (256 + (j + 1))).toNat = 256 + (j + 1) := by
      rw [BitVec.toNat_ofNat]
      omega
    unfold linkAfter
    rw [hc, if_neg (by simp only [eos]; omega)]
    have hl : lookup chainTable (256 + (j + 1)) = some ⟨BitVec.ofNat 12 (256 + (j + 1) - 1), 0⟩ :=
      lookup_run (fun c => TableEntry.mk (BitVec.ofNat 12 (c - 1)) 0) 3839 257 _ (by omega) (by omega)
    rw [hl]
    exact ih (by omega) _ (by omega)

/-- The first clause at the longest chain there is, the second at once. -/
theorem witness_TwalkUnassigned : ∃ s s' : State, s.fault = none ∧ s'.fault = none ∧
    linkAfter s.table 3839 4095 = some 256 ∧ linkAfter s'.table 0 257 = some 257 ∧
    256 < (257 : Code).toNat ∧ lookup s'.table (257 : Code).toNat = none :=
  ⟨{ State.reset with table := chainTable }, State.reset, rfl, rfl, linkAfter_chainTable 3839 le_rfl 4095 rfl, rfl,
    by decide, rfl⟩

theorem witness_TwalkOverflows : ∃ s : State, s.fault = none ∧ linkAfter s.table 4097 257 = some 257 ∧
    256 < (257 : Code).toNat ∧ lookup s.table (257 : Code).toNat = some ⟨257, 0x42⟩ :=
  ⟨{ State.reset with table := [(257, ⟨257, 0x42⟩)] }, rfl, by decide +kernel, by decide, rfl⟩

theorem witness_TemitWrites : ∃ s s' : State, (Ready s ∧ s.snkClosed = false ∧ s.sp = 4096) ∧
    s'.fault = none ∧ s'.sp = 0 ∧ s'.snkClosed = true :=
  ⟨legalState, { State.reset with snkClosed := true }, by decide⟩

theorem witness_TemitClosedSink : ∃ s : State, s.fault = none ∧ s.snkClosed = true ∧ s.sp ≠ 0 :=
  ⟨{ State.reset with snkClosed := true, sp := 1 }, by decide⟩

theorem witness_TableFrame : ∃ s t t' t'' u : State, exec .tclr s = .next t ∧
    exec (.tassign 258 257 0x43) s = .next t' ∧ exec (.twalk 257) s = .next t'' ∧
    exec .temit { s with sp := 1 } = .next u :=
  ⟨legalState, _, _, _, _, next_of (by decide), next_of (by decide), next_of (by decide +kernel),
    next_of (by decide +kernel)⟩

theorem witness_EncodeOfNothing : ∃ s : State, Ready s ∧ s.snkClosed = false ∧ s.src.length ≤ s.srcPos :=
  ⟨legalState, by decide⟩

theorem witness_EncodeOfOneByte : ∃ (s : State) (x : Byte), Ready s ∧ s.snkClosed = false ∧
    s.src.drop s.srcPos = [x] :=
  ⟨bound [0xFF], 0xFF, by decide⟩

theorem witness_EncodeWritesGreedyCodes : ∃ s : State, Ready s ∧ s.snkClosed = false ∧ s.srcPos < s.src.length :=
  ⟨{ bound [0x41, 0x41, 0x41] with answers := [.ok] }, by decide⟩

theorem witness_EncodeAlwaysEnds : ∃ s : State, s.fault = none ∧ s.snkClosed = false ∧ Answered s :=
  ⟨{ bound [0x41] with answers := [.ok, .fail] }, by decide⟩

theorem witness_EncodeAssignsCodesOnce : ∃ s t : State, exec .encode s = .next t ∧ t.fault = none ∧
    t.dict.length = 2 :=
  ⟨bound [0x00, 0x01, 0x02], _, next_of (by decide +kernel), by decide +kernel, by decide +kernel⟩

theorem witness_EncodeFrame : ∃ s t : State, exec .encode s = .next t :=
  ⟨{ legalState with src := [0x41, 0x41], srcPos := 0 }, _, next_of (by decide +kernel)⟩

theorem witness_DecodeOfNothing : ∃ s s' : State, (Ready s ∧ (s.src.drop s.srcPos).length < 2) ∧
    (Ready s' ∧ s'.src.drop s'.srcPos = 0x10 :: 0x0F :: [0x41] ∧ (0x0F : Byte).toNat < 16) :=
  ⟨bound [0x41], { bound [0x10, 0x0F, 0x41] with snkClosed := true }, by decide⟩

theorem witness_DecodeOfOneLiteral : ∃ (s : State) (x : Byte), Ready s ∧ s.snkClosed = false ∧
    s.src.drop s.srcPos = (0#4 ++ x.extractLsb' 4 4) :: (x.extractLsb' 0 4 ++ 1#4) :: 0x00 :: [0xFF] :=
  ⟨bound [0x0F, 0xF1, 0x00, 0xFF], 0xFF, by decide⟩

/-- The first clause on V16's third row and a byte after it, the second on that row's input. -/
theorem witness_DecodeOfEncodedInput : ∃ s s' t : State, (Ready s ∧ rising s.stk ∧ s.snkClosed = false ∧
      s.src.drop s.srcPos = wire (greedy [0x41, 0x41]) ++ [0xFF]) ∧
    Ready s' ∧ rising s'.stk ∧ s'.snk = [] ∧ exec .encode s' = .next t ∧ t.fault = none :=
  ⟨bound [0x04, 0x10, 0x41, 0x10, 0x00, 0xFF], bound [0x41, 0x41], _, by decide +kernel, by decide, by decide, rfl,
    next_of (by decide +kernel), by decide +kernel⟩

theorem witness_DecodeAlwaysEnds : ∃ s : State, s.fault = none ∧ Answered s :=
  ⟨{ bound [0x04, 0x11, 0x2C] with answers := [.ok, .fail] }, by decide⟩

theorem witness_DecodeFrame : ∃ (s t : State) (a : Nat), exec .decode s = .next t ∧ 4096 ≤ a :=
  ⟨{ legalState with src := [0x04, 0x11, 0x01, 0x10, 0x00], srcPos := 0 }, _, 4096, next_of (by decide +kernel),
    le_rfl⟩

theorem witness_OperationsIgnoreLeftovers : ∃ s s' t t' : State, s ≠ s' ∧ Memory.wf s.stk ∧ Memory.wf s'.stk ∧
    s'.src = s.src ∧ s'.srcPos = s.srcPos ∧ s'.snk = s.snk ∧ s'.snkClosed = s.snkClosed ∧ s'.fault = s.fault ∧
    s'.answers = s.answers ∧ exec .encode s = .next t ∧ exec .decode s = .next t' :=
  ⟨{ legalState with src := [0x04, 0x11, 0x00], srcPos := 0 }, bound [0x04, 0x11, 0x00], _, _, by decide, by decide,
    by decide, rfl, rfl, rfl, rfl, rfl, rfl, next_of (by decide +kernel), next_of (by decide +kernel)⟩

theorem witness_OnlyCloseClosesSink : ∃ s t t' : State, exec .wrclose s = .next t ∧ t.snkClosed ≠ s.snkClosed ∧
    exec .encode s = .next t' ∧ t'.snkClosed ≠ s.snkClosed :=
  ⟨State.reset, _, _, next_of (by decide), by decide, next_of (by decide +kernel), by decide +kernel⟩

theorem witness_StreamsOnlyAdvance : ∃ s t : State, exec .decode s = .next t ∧ s.srcPos ≤ s.src.length :=
  ⟨bound [0x04, 0x11, 0x00], _, next_of (by decide +kernel), by decide⟩

theorem witness_ComponentsIgnoreControlState : ∃ (i : Instr) (s t : State), component i = true ∧ exec i s = .next t :=
  ⟨.temit, { State.reset with stk := [(0, 0x41)], sp := 1 }, _, rfl, next_of (by decide +kernel)⟩

end Sys2Proof.Tests
end

namespace Sys2Proof.Machine

variable {α β : Type}

/-! ## Everything an operation of the bit units can do -/

/-- Two properties of one run hold together. -/
theorem Runs.and {Q Q' : α → State → Prop} {E E' : Stop → State → Prop} {x : Op α} {s : State}
    (h : Runs x s Q E) (h' : Runs x s Q' E') :
    Runs x s (fun a t => Q a t ∧ Q' a t) (fun e t => E e t ∧ E' e t) := by
  unfold Runs at *
  cases hx : x s <;> rw [hx] at h h' <;> exact ⟨h, h'⟩

/-- What `ReadBit` leaves (40_bitreader R81): one bit fewer in the rack, or a byte pulled and seven of its bits in the
rack, or at EOF everything as it was. -/
theorem readBit_cases (s : State) :
    Runs readBit s
      (fun r t => (s.rdCnt ≠ 0 ∧ t = { s with rdCnt := s.rdCnt - 1 }) ∨
        ∃ rest, (r = none ∧ t = { s with answers := rest }) ∨
          ∃ b, s.rdCnt = 0 ∧ s.srcPos < s.src.length ∧
            t = { s with rdRack := b, rdCnt := 8 - 1, srcPos := s.srcPos + 1, answers := rest })
      (fun _ t => ∃ rest, t = { s with answers := rest }) := by
  by_cases h : s.rdCnt = 0
  · unfold readBit
    rw [runs_bind]
    unfold Runs
    rw [fillRack_empty h]
    refine (runs_bind _ _).2 ((srcRead_runs s).mono ?_ ?_)
    · rintro _ _ ⟨rest, -, ⟨rfl, -, rfl⟩ | ⟨b, rfl, hb, rfl⟩⟩
      · exact .inr ⟨rest, .inl ⟨rfl, rfl⟩⟩
      · exact .inr ⟨rest, .inr ⟨b, h, (List.getElem?_eq_some_iff.1 hb).1, rfl⟩⟩
    · rintro _ _ ⟨rest, -, rfl, -⟩
      exact ⟨rest, rfl⟩
  · unfold Runs
    rw [readBit_ready h]
    exact .inl ⟨h, rfl⟩

/-! ## The legal states, in two parts -/

/-- The clauses of the invariant that hold in the middle of a command too, after each statement of it. -/
structure Shape (s : State) : Prop where
  rdCnt : s.rdCnt.toNat ≤ 8
  dictRising : rising s.dict
  dictLegal : ∀ x ∈ s.dict, x.1 < hw.capacity ∧ firstCode ≤ x.2.code.toNat
  tableRising : rising s.table
  tableLegal : ∀ x ∈ s.table, firstCode ≤ x.1 ∧ x.1 ≤ maxCode
  stkWf : Memory.wf s.stk
  stkLegal : ∀ c ∈ s.stk, c.1 < hw.stackDepth
  sp : s.sp.toNat ≤ hw.stackDepth
  encNext : firstCode ≤ s.encNext.toNat ∧ s.encNext.toNat ≤ maxCode + 1
  decNext : firstCode ≤ s.decNext.toNat ∧ s.decNext.toNat ≤ maxCode + 1
  srcPos : s.srcPos ≤ s.src.length
  idle : s.mode = .none → s.phase = .idle

/-- The bits of `wr_rack` that are not yet placed are 0 (10_state R12). -/
def Tidy (s : State) : Prop := ∀ i < 8 - s.wrCnt.toNat, s.wrRack.getLsbD i = false

/-- The invariant is the shape, with the two clauses that a fault in the middle of a command suspends. -/
theorem inv_iff (s : State) : s.Inv ↔ Shape s ∧ (s.fault = none → Tidy s ∧ s.phase ≠ .scanning) := by
  constructor
  · intro h
    exact ⟨{ h with }, fun hf => ⟨h.wrRack hf, fun hp => h.scanning hp hf⟩⟩
  · rintro ⟨h, hc⟩
    exact { h with wrRack := fun hf => (hc hf).1, scanning := fun hp hf => (hc hf).2 hp }

theorem reset_inv : State.reset.Inv := by
  refine (inv_iff _).2 ⟨?_, fun _ => ⟨fun i _ => BitVec.getLsbD_zero, by decide⟩⟩
  constructor <;> decide


/-- A command word that is refused, or ended by a fault, leaves a legal state when the shape is kept. -/
theorem inv_of_fault {s : State} (h : Shape s) (hf : s.fault ≠ none) : s.Inv :=
  (inv_iff s).2 ⟨h, fun hn => absurd hn hf⟩

/-- A command that keeps the shape, and at its end has left the rack tidy and no operation under way, keeps the
invariant. -/
theorem runCommand_inv {s t : State} {body : Op Word} (h : runCommand body s = .next t) (hs : s.Inv)
    (hb : s.fault = none → Runs body s (fun _ u => Shape u ∧ Tidy u ∧ u.phase ≠ .scanning) (fun _ u => Shape u)) :
    t.Inv := by
  obtain ⟨hshape, -⟩ := (inv_iff s).1 hs
  refine runCommand_keeps (P := State.Inv) h (fun f hf => ?_) fun hf => (hb hf).mono ?_ ?_
  · exact inv_of_fault { hshape with } (by simp [hf])
  · rintro w u ⟨hu, ht, hp⟩
    exact (inv_iff _).2 ⟨{ hu with }, fun _ => ⟨ht, hp⟩⟩
  · intro e u hu f _
    exact inv_of_fault { hu with } (by simp)

/-- A state in the middle of a command, between two of its operations: the mode is `m`, the phase `p`, and at most `r`
bytes of the source are left. -/
structure Midway (m : Mode) (p : Phase) (r : Nat) (s : State) : Prop extends Shape s where
  tidy : Tidy s
  mode : s.mode = m
  phase : s.phase = p
  left : s.src.length - s.srcPos ≤ r

theorem Midway.of_shape {s : State} (h : Shape s) (ht : Tidy s) :
    Midway s.mode s.phase (s.src.length - s.srcPos) s := { h with tidy := ht, mode := rfl, phase := rfl, left := le_rfl }

section Midway

variable {m : Mode} {p : Phase} {r : Nat} {s t : State}

/-! ## The BitReader keeps the legal states -/

theorem lowBits_length {w : Nat} (v : BitVec w) (n : Nat) : (lowBits v n).length = n := by
  induction n with
  | zero => rfl
  | succ n ih => simp [lowBits, ih]

/-- How many bits the BitReader can still deliver. -/
theorem pendingBits_length (s : State) :
    (pendingBits s).length = s.rdCnt.toNat + 8 * (s.src.length - s.srcPos) := by
  have hb : ∀ bytes : List Byte, (bytesBits bytes).length = 8 * bytes.length := fun bytes => by
    simp [bytesBits, List.length_flatMap, lowBits_length, Nat.mul_comm]
  simp [pendingBits, hb, lowBits_length]

/-- The clauses of the invariant that speak of what the BitReader writes (10_state R11, R20). -/
def ReaderLegal (s : State) : Prop := s.rdCnt.toNat ≤ 8 ∧ s.srcPos ≤ s.src.length

/-- `ReadBit` keeps the BitReader's clauses, and a bit it answers is one pending bit fewer. -/
theorem readBit_legal (h : ReaderLegal s) :
    Runs readBit s
      (fun o t => ReaderLegal t ∧ (o ≠ none → (pendingBits t).length + 1 = (pendingBits s).length))
      (fun _ t => ReaderLegal t) := by
  obtain ⟨hc, hp⟩ := h
  simp only [ReaderLegal, pendingBits_length]
  refine (readBit_cases s).mono ?_ ?_
  · rintro o _ (⟨h0, rfl⟩ | ⟨rest, ⟨rfl, rfl⟩ | ⟨b, h0, hlt, rfl⟩⟩)
    · have hd : (s.rdCnt - 1).toNat + 1 = s.rdCnt.toNat := by bv_omega
      simp only
      omega
    · exact ⟨⟨hc, hp⟩, fun h => absurd rfl h⟩
    · have h7 : ((8 : BitVec 4) - 1).toNat = 7 := rfl
      have hz : s.rdCnt.toNat = 0 := by rw [h0]; rfl
      simp only [h7, hz]
      omega
  · rintro _ _ ⟨rest, rfl⟩
    exact ⟨hc, hp⟩

/-- `ReadBits` keeps the BitReader's clauses, and a field it answers is as many pending bits fewer as it is wide. -/
theorem readBitsFrom_legal (n v : Nat) (h : ReaderLegal s) :
    Runs (readBitsFrom n v) s
      (fun o t => ReaderLegal t ∧ (o ≠ none → (pendingBits t).length + n = (pendingBits s).length))
      (fun _ t => ReaderLegal t) := by
  induction n generalizing v s with
  | zero => exact ⟨h, fun _ => rfl⟩
  | succ n ih =>
    simp only [readBitsFrom]
    refine (runs_bind _ _).2 ((readBit_legal h).mono ?_ fun _ _ h => h)
    rintro (_ | b) t ⟨ht, hb⟩
    · exact ⟨ht, fun h => absurd rfl h⟩
    · refine (ih _ ht).mono (fun o u ⟨hu, hn⟩ => ⟨hu, fun ho => ?_⟩) fun _ _ h => h
      have h₁ := hb (by simp)
      have h₂ := hn ho
      omega

theorem Shape.of_reader (h : Shape s) (w : ReaderStep s t) (ht : ReaderLegal t) : Shape t := by
  obtain ⟨hw, -, -⟩ := w
  rw [hw] at ht ⊢
  exact { h with rdCnt := ht.1, srcPos := ht.2 }

theorem Midway.of_reader (h : Midway m p r s) (w : ReaderStep s t) (ht : ReaderLegal t) : Midway m p r t := by
  have hs := h.toShape.of_reader w ht
  obtain ⟨hw, hle, -⟩ := w
  have hl := h.left
  rw [hw] at hs ⊢
  exact { h with toShape := hs, left := by simp only; omega }

/-- `ReadBits` of more bits than the rack holds pulls a byte. -/
theorem readBits_midway (n : Nat) (h : Midway m p r s) :
    Runs (readBits n) s (fun o t => Midway m p r t ∧ (8 < n → o ≠ none → ∃ r' < r, Midway m p r' t))
      (fun _ t => Shape t) := by
  refine ((readBitsFrom_runs n 0 s).and (readBitsFrom_legal n 0 ⟨h.rdCnt, h.srcPos⟩)).mono ?_ ?_
  · rintro o t ⟨hw, ht, hb⟩
    have hm := h.of_reader hw ht
    refine ⟨hm, fun hn ho => ?_⟩
    have hb := hb ho
    rw [pendingBits_length, pendingBits_length] at hb
    have hsrc : t.src = s.src := by rw [hw.1]
    have hl := h.left
    have hc := h.rdCnt
    exact ⟨t.src.length - t.srcPos, by omega, { hm with left := le_rfl }⟩
  · rintro e t ⟨⟨hw, -⟩, ht⟩
    exact h.toShape.of_reader hw ht

theorem readBit_midway (h : Midway m p r s) :
    Runs readBit s (fun _ t => Midway m p r t) (fun _ t => Shape t) :=
  ((readBit_runs s).and (readBit_legal ⟨h.rdCnt, h.srcPos⟩)).mono (fun _ _ ⟨hw, ht, _⟩ => h.of_reader hw ht)
    fun _ _ ⟨⟨hw, _⟩, ht⟩ => h.toShape.of_reader hw ht

/-- `SrcRead` answers EOF, or one byte of the source fewer is left. -/
theorem srcRead_midway (h : Midway m p r s) :
    Runs srcRead s (fun o t => (o = none ∧ Midway m p r t) ∨ ∃ b, o = some b ∧ ∃ r' < r, Midway m p r' t)
      (fun _ t => Shape t) := by
  refine (srcRead_runs s).mono ?_ ?_
  · rintro _ _ ⟨rest, -, ⟨rfl, -, rfl⟩ | ⟨b, rfl, hb, rfl⟩⟩
    · exact .inl ⟨rfl, { h with }⟩
    · have hlt : s.srcPos < s.src.length := (List.getElem?_eq_some_iff.1 hb).1
      have hl := h.left
      exact .inr ⟨b, rfl, r - 1, by omega, { h with srcPos := hlt, left := by simp only; omega }⟩
  · rintro _ _ ⟨rest, -, rfl, -⟩
    exact { h.toShape with }

/-! ## The BitWriter keeps the legal states -/

/-- Setting a bit of the rack leaves the others. -/
theorem setRackBit_other (rack : Byte) {i j : Nat} (h : j ≠ i) (b : Bool) :
    (setRackBit rack i b).getLsbD j = rack.getLsbD j := by
  have hm : (1#8 <<< i).getLsbD j = false := by
    rw [BitVec.getLsbD_shiftLeft, BitVec.getLsbD_one]
    by_cases hlt : j < i
    · simp [hlt]
    · have : j - i ≠ 0 := by omega
      simp [this]
  unfold setRackBit
  generalize 1#8 <<< i = mask at hm ⊢
  cases b
  · by_cases hj : j < 8
    · rw [if_neg Bool.false_ne_true, BitVec.getLsbD_and, BitVec.getLsbD_not, hm]
      simp [hj]
    · rw [BitVec.getLsbD_of_ge _ _ (by omega), BitVec.getLsbD_of_ge _ _ (by omega)]
  · simp [hm]

/-- An empty rack is tidy. -/
theorem tidy_of_zero (h : s.wrRack = 0) : Tidy s := fun i _ => by rw [h]; exact BitVec.getLsbD_zero

/-- `WriteBit` places a bit above those not yet placed, or empties the rack (41_bitwriter R91). -/
theorem writeBit_tidy (b : Bool) (h : Tidy s) : Runs (writeBit b) s (fun _ t => Tidy t) (fun _ _ => True) := by
  unfold Runs
  by_cases h7 : s.wrCnt = 7
  · rw [writeBit_fills h7]
    exact (runs_bind _ _).2 ((snkWrite_runs _ _).mono (fun _ _ _ => tidy_of_zero rfl) fun _ _ _ => trivial)
  · rw [writeBit_places h7]
    intro i hi
    have hc : (s.wrCnt + 1).toNat = s.wrCnt.toNat + 1 := by bv_omega
    simp only [hc] at hi
    simp only
    rw [setRackBit_other _ (by omega)]
    exact h i (by omega)

theorem writeBits_tidy {w : Nat} (v : BitVec w) (n : Nat) (h : Tidy s) :
    Runs (writeBits v n) s (fun _ t => Tidy t) (fun _ _ => True) := by
  induction n generalizing s with
  | zero => exact h
  | succ n ih => exact (runs_bind _ _).2 ((writeBit_tidy _ h).mono (fun _ _ => ih) fun _ _ _ => trivial)

theorem Shape.of_writer (h : Shape s) (w : WriterStep s t) : Shape t := by
  obtain ⟨hw, -, -⟩ := w
  rw [hw]
  exact { h with }

theorem Midway.of_writer (h : Midway m p r s) (w : WriterStep s t) (ht : Tidy t) : Midway m p r t := by
  obtain ⟨hw, -, -⟩ := w
  rw [hw] at ht ⊢
  exact { h with tidy := ht }

theorem writeBit_midway (b : Bool) (h : Midway m p r s) :
    Runs (writeBit b) s (fun _ t => Midway m p r t) (fun _ t => Shape t) :=
  ((writeBit_runs b s).and (writeBit_tidy b h.tidy)).mono (fun _ _ ⟨hw, ht⟩ => h.of_writer hw ht)
    fun _ _ ⟨⟨hw, _⟩, _⟩ => h.toShape.of_writer hw

theorem writeBits_midway {w : Nat} (v : BitVec w) (n : Nat) (h : Midway m p r s) :
    Runs (writeBits v n) s (fun _ t => Midway m p r t) (fun _ t => Shape t) :=
  ((writeBits_runs v n s).and (writeBits_tidy v n h.tidy)).mono (fun _ _ ⟨hw, ht⟩ => h.of_writer hw ht)
    fun _ _ ⟨⟨hw, _⟩, _⟩ => h.toShape.of_writer hw

theorem closeWriter_midway (h : Midway m p r s) :
    Runs closeWriter s (fun _ t => Midway m p r t) (fun _ t => Shape t) := by
  refine (closeWriter_runs s).mono ?_ fun _ _ ⟨hw, _⟩ => h.toShape.of_writer hw
  rintro _ _ ⟨u, ⟨hu, -, -⟩, rfl⟩
  rw [hu]
  exact { h with tidy := tidy_of_zero rfl }

theorem snkWrite_midway (b : Byte) (h : Midway m p r s) :
    Runs (snkWrite b) s (fun _ t => Midway m p r t) (fun _ t => Shape t) := by
  refine (snkWrite_runs b s).mono ?_ fun e t he => ?_
  · rintro _ _ ⟨-, rest, -, rfl⟩
    exact { h with }
  · rcases he with ⟨-, -, rfl⟩ | ⟨-, rest, -, rfl, -⟩
    · exact h.toShape
    · exact { h.toShape with }

end Midway
end Sys2Proof.Machine

namespace Sys2Proof.Machine
variable {α β : Type}
section Midway

variable {m : Mode} {p : Phase} {r : Nat} {s t : State}

/-! ## The tables and the stack keep the legal states -/

/-- `Assign` of a cell the table has (43_decode_table R112). -/
theorem Midway.assign (h : Midway m p r s) {code : Nat} (hl : firstCode ≤ code) (hu : code ≤ maxCode) (e : TableEntry) :
    Midway m p r { s with table := insert s.table code e } :=
  { h with
    tableRising := rising_insert h.tableRising _ _
    tableLegal := fun x hx => by
      rcases mem_insert hx with rfl | hx
      · exact ⟨hl, hu⟩
      · exact h.tableLegal x hx }

/-- `Reserve` of a slot the dictionary has (42_encode_dictionary R105). -/
theorem Midway.reserve (h : Midway m p r s) {slot : Nat} {e : DictEntry} (hs : slot < hw.capacity)
    (hc : firstCode ≤ e.code.toNat) : Midway m p r { s with dict := insert s.dict slot e } :=
  { h with
    dictRising := rising_insert h.dictRising _ _
    dictLegal := fun x hx => by
      rcases mem_insert hx with rfl | hx
      · exact ⟨hs, hc⟩
      · exact h.dictLegal x hx }

/-- A write to an entry of the stack (10_state R15). -/
theorem Midway.stkWrite (h : Midway m p r s) {i : Nat} (hi : i < hw.stackDepth) (b : Byte) :
    Midway m p r { s with stk := stkWrite s.stk i b } :=
  { h with
    stkWf := wf_stkWrite h.stkWf _ _
    stkLegal := fun c hc => by
      rcases mem_stkWrite hc with rfl | hc
      · exact hi
      · exact h.stkLegal c hc }

/-- The stack pointer after a push that finds room. -/
theorem sp_succ {sp : BitVec 13} (hl : sp.toNat ≤ hw.stackDepth) (hne : sp.toNat ≠ hw.stackDepth) :
    (sp + 1).toNat = sp.toNat + 1 := by
  have hlt : sp.toNat < 4096 := lt_of_le_of_ne hl hne
  bv_omega

theorem push_midway (b : Byte) (h : Midway m p r s) :
    Runs (push hw b) s (fun _ t => Midway m p r t) (fun _ t => Shape t) := by
  unfold Runs
  by_cases hf : s.sp.toNat = hw.stackDepth
  · rw [push_full hf]
    exact h.toShape
  · rw [push_room hf]
    have hsp : s.sp.toNat < hw.stackDepth := lt_of_le_of_ne h.sp hf
    exact { h.stkWrite hsp b with sp := by simp only [sp_succ h.sp hf]; omega }

theorem walkFrom_midway (n : Nat) (k : Code) (h : Midway m p r s) :
    Runs (walkFrom hw n k) s (fun _ t => Midway m p r t) (fun _ t => Shape t) := by
  induction n generalizing k s with
  | zero => exact h.toShape
  | succ n ih =>
    rcases lt_trichotomy k.toNat eos with hk | hk | hk
    · rw [walkFrom_literal hk]
      exact push_midway _ h
    · unfold Runs
      rw [walkFrom_sentinel hk]
      exact h.toShape
    · unfold Runs
      cases hc : lookup s.table k.toNat with
      | none =>
        rw [walkFrom_unused hk hc]
        exact h.toShape
      | some e =>
        rw [walkFrom_cell hk hc]
        exact (runs_bind _ _).2 ((push_midway e.char h).mono (fun _ _ => ih e.parent) fun _ _ h => h)

theorem walk_midway (k : Code) {sp0 : BitVec 13} (hsp : sp0.toNat ≤ hw.stackDepth) (h : Midway m p r s) :
    Runs (walk hw k sp0) s (fun _ t => Midway m p r t) (fun _ t => Shape t) :=
  walkFrom_midway (s := { s with sp := sp0 }) _ k { h with sp := hsp }

theorem emitFrom_midway (n : Nat) (hn : n ≤ s.sp.toNat) (h : Midway m p r s) :
    Runs (emitFrom n) s (fun _ t => Midway m p r t) (fun _ t => Shape t) := by
  induction n generalizing s with
  | zero => exact h
  | succ n ih =>
    have hd : (s.sp - 1).toNat = s.sp.toNat - 1 := by bv_omega
    have hsp := h.sp
    have hpop : Midway m p r { s with sp := s.sp - 1 } := { h with sp := by simp only [hd]; omega }
    unfold Runs
    rw [emitFrom_succ]
    refine (runs_bind _ _).2 (((snkWrite_writes _ _).and (snkWrite_midway _ hpop)).mono ?_ fun _ _ h => h.2)
    rintro _ t ⟨⟨hw, -, -⟩, ht⟩
    have : t.sp = s.sp - 1 := by rw [hw]
    exact ih (by rw [this, hd]; omega) ht

theorem emit_midway (h : Midway m p r s) : Runs emit s (fun _ t => Midway m p r t) (fun _ t => Shape t) := by
  unfold Runs
  rw [emit_run]
  exact (runs_bind _ _).2 (emitFrom_midway _ le_rfl h)

/-! ## ENCODE keeps the legal states -/

theorem nextSlot_lt {cfg : Config} {step i : Nat} (h : i < cfg.capacity) : nextSlot cfg step i < cfg.capacity := by
  unfold nextSlot
  split_ifs <;> omega

theorem probeFrom_miss_lt {cfg : Config} {d : List (Nat × DictEntry)} {k : Code} {c : Byte} {step slot : Nat} (n : Nat)
    {i : Nat} (hi : i < cfg.capacity) (hm : probeFrom cfg d k c step n i = .miss slot) : slot < cfg.capacity := by
  induction n generalizing i with
  | zero => simp [probeFrom] at hm
  | succ n ih =>
    cases hl : lookup d i with
    | none =>
      rw [probeFrom_empty hl] at hm
      cases hm
      exact hi
    | some e =>
      by_cases hk : e.parent = k ∧ e.char = c
      · simp [probeFrom_match hl hk] at hm
      · rw [probeFrom_other hl hk] at hm
        exact ih (nextSlot_lt hi) hm

/-- A miss is at a slot the dictionary has (42_encode_dictionary R102). -/
theorem probeDict_miss_lt {cfg : Config} (h : 0 < cfg.capacity) {d : List (Nat × DictEntry)} {k : Code} {c : Byte}
    {slot : Nat} (hm : probeDict cfg d k c = .miss slot) : slot < cfg.capacity :=
  probeFrom_miss_lt _ (Nat.mod_lt _ h) hm

/-- Where one step of an operation leads: it is over, or fewer bytes of the source are left. -/
def Advanced (m : Mode) (r : Nat) (s : State) : Prop :=
  Midway m .done r s ∨ ∃ r' < r, Midway m .scanning r' s

theorem Midway.setPhase (h : Midway m p r s) (hm : m ≠ .none) (q : Phase) : Midway m q r { s with phase := q } :=
  { h with idle := fun hn => absurd (h.mode.symm.trans hn) hm, phase := rfl }

theorem encFinish_midway (h : Midway .enc p r s) :
    Runs encFinish s (fun _ t => Midway .enc .done r t) (fun _ t => Shape t) := by
  unfold encFinish
  simp only [runs_bind]
  refine (writeBits_midway _ _ h).mono (fun _ t ht => ?_) fun _ _ h => h
  exact (closeWriter_midway ht).mono (fun _ u hu => hu.setPhase (by decide) _) fun _ _ h => h

/-- The next code is one that a slot and a cell can hold, or all codes are assigned (44_encoder R122). -/
theorem nextCode_succ {n : BitVec 13} (hl : firstCode ≤ n.toNat) (hu : n.toNat ≤ maxCode) :
    firstCode ≤ (n + 1).toNat ∧ (n + 1).toNat ≤ maxCode + 1 := by
  simp only [firstCode, maxCode] at *
  bv_omega

theorem encMiss_midway {slot : Nat} (hslot : slot < hw.capacity) (b : Byte) (h : Midway m p r s) :
    Runs (encMiss slot b) s (fun _ t => Midway m p r t) (fun _ t => Shape t) := by
  unfold encMiss
  simp only [runs_bind, runs_get]
  refine ((writeBits_runs _ _ s).and (writeBits_midway _ _ h)).mono ?_ fun _ _ h => h.2
  rintro _ t ⟨⟨hw, -, -⟩, ht⟩
  have hnext : t.encNext = s.encNext := by rw [hw]
  split_ifs with hn
  · have hcode : (s.encNext.setWidth 12).toNat = s.encNext.toNat := by
      simp only [maxCode] at hn
      simp only [BitVec.toNat_setWidth]
      omega
    have hr := ht.reserve (e := ⟨s.encNext.setWidth 12, s.encCur, b⟩) hslot (hcode ▸ h.encNext.1)
    have hsucc := nextCode_succ ht.encNext.1 (by rwa [hnext])
    exact { hr with encNext := hsucc }
  · exact { ht with }

theorem firstCode_legal : firstCode ≤ (BitVec.ofNat 13 firstCode).toNat ∧
    (BitVec.ofNat 13 firstCode).toNat ≤ maxCode + 1 := by decide

theorem encStart_midway (h : Shape s) :
    Runs encStart s (fun _ t => ∃ r, Midway .enc .done r t ∨ Midway .enc .scanning r t) (fun _ t => Shape t) := by
  have hs : Midway .enc s.phase (s.src.length - s.srcPos)
      { s with mode := .enc, dict := [], encNext := BitVec.ofNat 13 firstCode, wrRack := 0, wrCnt := 0 } :=
    { h with
      dictRising := List.Pairwise.nil
      dictLegal := fun x hx => absurd hx List.not_mem_nil
      encNext := firstCode_legal
      idle := fun hn => by cases hn
      tidy := tidy_of_zero rfl
      mode := rfl
      phase := rfl
      left := le_rfl }
  unfold encStart
  simp only [runs_bind, runs_modify]
  refine (srcRead_midway hs).mono ?_ fun _ _ h => h
  rintro _ t (⟨rfl, ht⟩ | ⟨b, rfl, r', -, ht⟩)
  · exact (encFinish_midway ht).mono (fun _ _ hu => ⟨_, .inl hu⟩) fun _ _ h => h
  · exact ⟨r', .inr { ht.setPhase (by decide) .scanning with }⟩

theorem encStep_advances (h : Midway .enc .scanning r s) :
    Runs (encStep hw) s (fun _ t => Advanced .enc r t) (fun _ t => Shape t) := by
  unfold encStep
  simp only [runs_bind]
  refine (srcRead_midway h).mono ?_ fun _ _ h => h
  rintro _ t (⟨rfl, ht⟩ | ⟨b, rfl, r', hr, ht⟩)
  · simp only [runs_bind, runs_get]
    refine (writeBits_midway _ _ ht).mono (fun _ u hu => ?_) fun _ _ h => h
    exact (encFinish_midway hu).mono (fun _ _ => .inl) fun _ _ h => h
  · have hadv : ∀ u, Midway .enc .scanning r' u → Advanced .enc r u := fun u hu => .inr ⟨r', hr, hu⟩
    simp only [runs_bind, runs_get]
    unfold Runs
    rw [probe_run]
    cases hf : probeDict hw t.dict t.encCur b with
    | miss slot =>
      have hslot := probeDict_miss_lt (by decide) hf
      exact (encMiss_midway hslot b ht).mono (fun _ => hadv) fun _ _ h => h
    | hit slot e => exact hadv _ { ht with }
    | exhausted => exact ht.toShape

/-- `loop` runs `step` while the phase is SCANNING, for at most the given number of steps. -/
structure IsLoop (step : Op Unit) (loop : Nat → Op Unit) : Prop where
  zero : ∀ s, loop 0 s = .ok () s
  succ : ∀ n s, loop (n + 1) s = if s.phase = .scanning then (step >>= fun _ => loop n) s else .ok () s

theorem encLoop_isLoop (cfg : Config) : IsLoop (encStep cfg) (encLoop cfg) where
  zero _ := rfl
  succ n s := by
    simp only [encLoop]
    rw [op_bind_of_ok (op_get s)]
    split_ifs <;> rfl

theorem decLoop_isLoop (cfg : Config) : IsLoop (decStep cfg) (decLoop cfg) where
  zero _ := rfl
  succ n s := by
    simp only [decLoop]
    rw [op_bind_of_ok (op_get s)]
    split_ifs <;> rfl

/-- The loop of an operation is over within its bound, since each step consumes a byte of the source or is the last
(44_encoder R120, 45_decoder R130). -/
theorem loop_ends {step : Op Unit} {loop : Nat → Op Unit} (hl : IsLoop step loop)
    (hstep : ∀ r s, Midway m .scanning r s → Runs step s (fun _ t => Advanced m r t) (fun _ t => Shape t)) (n : Nat)
    (h : Midway m .done r s ∨ r < n ∧ Midway m .scanning r s) :
    Runs (loop n) s (fun _ t => ∃ r, Midway m .done r t) (fun _ t => Shape t) := by
  induction n generalizing r s with
  | zero =>
    obtain h | ⟨hr, -⟩ := h
    · simpa only [Runs, hl.zero] using ⟨r, h⟩
    · exact absurd hr (Nat.not_lt_zero _)
  | succ n ih =>
    unfold Runs
    rw [hl.succ]
    obtain h | ⟨hr, h⟩ := h
    · rw [if_neg (by simp [h.phase])]
      exact ⟨r, h⟩
    · rw [if_pos h.phase]
      refine (runs_bind _ _).2 ((hstep r s h).mono (fun _ t ht => ?_) fun _ _ h => h)
      obtain ht | ⟨r', hr', ht⟩ := ht
      · exact ih (.inl ht)
      · exact ih (.inr ⟨by omega, ht⟩)

theorem encodeAll_ends (h : Shape s) :
    Runs (encodeAll hw) s (fun _ t => ∃ r, Midway .enc .done r t) (fun _ t => Shape t) := by
  unfold encodeAll
  simp only [runs_bind, runs_get]
  refine (encStart_midway h).mono (fun _ t ht => ?_) fun _ _ h => h
  refine loop_ends (encLoop_isLoop hw) (fun _ _ => encStep_advances) _ (r := t.src.length - t.srcPos) ?_
  obtain ⟨r, ht | ht⟩ := ht
  · exact .inl { ht with left := le_rfl }
  · exact .inr ⟨Nat.lt_succ_self _, { ht with left := le_rfl }⟩

/-! ## DECODE keeps the legal states -/

/-- A code that is read takes 12 bits, more than the rack holds. -/
theorem readCode_midway (h : Midway m p r s) :
    Runs readCode s (fun o t => Midway m p r t ∧ (o ≠ none → ∃ r' < r, Midway m p r' t)) (fun _ t => Shape t) := by
  unfold readCode
  rw [runs_bind]
  refine (readBits_midway codeBits h).mono ?_ fun _ _ h => h
  rintro (_ | v) t ⟨ht, hv⟩
  · exact ⟨ht, fun ho => absurd rfl ho⟩
  · simp only
    split_ifs
    · exact ⟨ht, fun ho => absurd rfl ho⟩
    · exact ⟨ht, fun _ => hv (by decide) (by simp)⟩

theorem decStart_midway (h : Shape s) (hw : Tidy s) :
    Runs decStart s (fun _ t => ∃ r, Midway .dec .done r t ∨ Midway .dec .scanning r t) (fun _ t => Shape t) := by
  have hs : Midway .dec s.phase (s.src.length - s.srcPos) { s with
      mode := .dec, table := [], sp := 0, rdRack := 0, rdCnt := 0, decNext := BitVec.ofNat 13 firstCode } :=
    { h with
      rdCnt := Nat.zero_le _
      tableRising := List.Pairwise.nil
      tableLegal := fun x hx => absurd hx List.not_mem_nil
      sp := Nat.zero_le _
      decNext := firstCode_legal
      idle := fun hn => by cases hn
      tidy := hw
      mode := rfl
      phase := rfl
      left := le_rfl }
  unfold decStart
  simp only [runs_bind, runs_modify, tableClear]
  refine (readCode_midway hs).mono ?_ fun _ _ h => h
  rintro (_ | c) t ⟨ht, -⟩
  · exact ⟨_, .inl (ht.setPhase (by decide) _)⟩
  · simp only [runs_bind, runs_modify]
    refine (snkWrite_midway _ ht).mono (fun _ u hu => ?_) fun _ _ h => h
    exact ⟨_, .inr { hu.setPhase (by decide) .scanning with }⟩

theorem decResolve_midway (new : Code) (h : Midway m p r s) :
    Runs (decResolve hw new) s (fun _ t => Midway m p r t) (fun _ t => Shape t) := by
  unfold decResolve
  simp only [runs_bind, runs_get]
  split_ifs
  · simp only [runs_bind, runs_modify]
    exact (walk_midway _ (by decide) h).mono (fun _ t ht => ht.stkWrite (by decide) _) fun _ _ h => h
  · exact walk_midway _ (by decide) h

theorem decAssign_midway (first : Byte) (h : Midway m p r s) :
    Runs (decAssign first) s (fun _ t => Midway m p r t) (fun _ t => Shape t) := by
  unfold decAssign
  simp only [runs_bind, runs_get]
  split_ifs with hn
  · exact { h.assign h.decNext.1 hn ⟨s.decOld, first⟩ with decNext := nextCode_succ h.decNext.1 hn }
  · exact h

theorem decStep_advances (h : Midway .dec .scanning r s) :
    Runs (decStep hw) s (fun _ t => Advanced .dec r t) (fun _ t => Shape t) := by
  unfold decStep
  simp only [runs_bind]
  refine (readCode_midway h).mono ?_ fun _ _ h => h
  rintro (_ | new) t ⟨ht, hadv⟩
  · exact .inl (ht.setPhase (by decide) _)
  · obtain ⟨r', hr, ht⟩ := hadv (by simp)
    simp only [runs_bind, runs_get, runs_modify]
    refine (decResolve_midway new ht).mono (fun _ u hu => ?_) fun _ _ h => h
    refine (emit_midway hu).mono (fun _ v hv => ?_) fun _ _ h => h
    exact (decAssign_midway _ hv).mono (fun _ x hx => .inr ⟨r', hr, { hx with }⟩) fun _ _ h => h

theorem decodeAll_ends (h : Shape s) (hw : Tidy s) :
    Runs (decodeAll Machine.hw) s (fun _ t => ∃ r, Midway .dec .done r t) (fun _ t => Shape t) := by
  unfold decodeAll
  simp only [runs_bind, runs_get]
  refine (decStart_midway h hw).mono (fun _ t ht => ?_) fun _ _ h => h
  refine loop_ends (decLoop_isLoop _) (fun _ _ => decStep_advances) _ (r := t.src.length - t.srcPos) ?_
  obtain ⟨r, ht | ht⟩ := ht
  · exact .inl { ht with left := le_rfl }
  · exact .inr ⟨Nat.lt_succ_self _, { ht with left := le_rfl }⟩

end Midway

/-! ## Every command and every step keeps the legal states -/

/-- A command whose operations keep the legal states, whatever the mode and the phase, keeps the invariant. -/
theorem runCommand_inv_of_midway {s t : State} {body : Op Word} (h : runCommand body s = .next t) (hs : s.Inv)
    (hb : ∀ {m p r}, Midway m p r s → Runs body s (fun _ u => Midway m p r u) (fun _ u => Shape u)) : t.Inv := by
  refine runCommand_inv h hs fun hf => ?_
  obtain ⟨hshape, hclean⟩ := (inv_iff s).1 hs
  obtain ⟨htidy, hphase⟩ := hclean hf
  exact (hb (.of_shape hshape htidy)).mono (fun _ u hu => ⟨hu.toShape, hu.tidy, hu.phase ▸ hphase⟩) fun _ _ h => h

/-- A command that runs a whole operation and ends it keeps the invariant. -/
theorem runCommand_inv_of_done {s t : State} {body : Op Word} (h : runCommand body s = .next t) (hs : s.Inv)
    (hb : Shape s → Tidy s → Runs body s (fun _ u => ∃ m r, Midway m .done r u) (fun _ u => Shape u)) : t.Inv := by
  refine runCommand_inv h hs fun hf => ?_
  obtain ⟨hshape, hclean⟩ := (inv_iff s).1 hs
  refine (hb hshape (hclean hf).1).mono ?_ fun _ _ h => h
  rintro _ u ⟨m, r, hu⟩
  exact ⟨hu.toShape, hu.tidy, by simp [hu.phase]⟩

/-! The acceptance checks change nothing; what they let pass is legal (30_encoding R76). -/

theorem checkWidth_runs (cfg : Config) (n : BitVec 6) (s : State) :
    Runs (checkWidth cfg n) s (fun _ t => t = s) (fun _ t => t = s) := by
  unfold Runs
  cases hl : legalWidth cfg n
  · rw [checkWidth_illegal hl]
  · rw [checkWidth_legal hl]

theorem checkOpen_runs (s : State) : Runs checkOpen s (fun _ t => t = s) (fun _ t => t = s) := by
  unfold Runs
  cases hc : s.snkClosed
  · rw [checkOpen_open hc]
  · rw [checkOpen_closed hc]

theorem checkReserve_runs (cfg : Config) (slot : SlotIndex) (code : Code) (s : State) :
    Runs (checkReserve cfg slot code) s (fun _ t => t = s ∧ legalSlot cfg slot = true ∧ legalCode code = true)
      (fun _ t => t = s) := by
  unfold Runs
  rw [checkReserve_run]
  split_ifs with h
  · simp only [Bool.and_eq_true] at h
    exact ⟨rfl, h.1.1, h.2⟩
  · rfl

theorem checkAssign_runs (code : Code) (s : State) :
    Runs (checkAssign code) s (fun _ t => t = s ∧ legalCode code = true) (fun _ t => t = s) := by
  unfold Runs
  rw [checkAssign_run]
  split_ifs with h
  · simp only [Bool.and_eq_true] at h
    exact ⟨rfl, h.1⟩
  · rfl

section Commands

variable {m : Mode} {p : Phase} {r : Nat} {s t : State}

/-- A check that changes nothing, before an operation. -/
theorem runs_after_check {x : Op Unit} {f : Unit → Op β} {Q : β → State → Prop} (hs : Shape s)
    (hx : Runs x s (fun _ t => t = s) (fun _ t => t = s)) (hf : Runs (f ()) s Q (fun _ t => Shape t)) :
    Runs (x >>= f) s Q (fun _ t => Shape t) := by
  refine (runs_bind _ _).2 (hx.mono ?_ ?_)
  · rintro _ _ rfl
    exact hf
  · rintro _ _ rfl
    exact hs

/-- A last statement that only answers a response. -/
theorem runs_then_pure {x : Op α} {f : α → Op β} {Q : State → Prop}
    (hx : Runs x s (fun _ t => Q t) (fun _ t => Shape t)) (hf : ∀ a t, ∃ b, f a t = .ok b t) :
    Runs (x >>= f) s (fun _ t => Q t) (fun _ t => Shape t) := by
  refine (runs_bind _ _).2 (hx.mono (fun a t ht => ?_) fun _ _ h => h)
  obtain ⟨b, hb⟩ := hf a t
  simpa only [Runs, hb] using ht

theorem exec_component_inv {i : Instr} (hi : component i = true) (h : exec i s = .next t) (hs : s.Inv) : t.Inv := by
  cases i with
  | encode | decode => cases hi
  | rdbit =>
    refine runCommand_inv_of_midway h hs fun hm => runs_then_pure (readBit_midway hm) fun o u => ?_
    cases o <;> exact ⟨_, rfl⟩
  | rdbits n =>
    refine runCommand_inv_of_midway h hs fun hm => runs_after_check hm.toShape (checkWidth_runs _ _ _) ?_
    refine runs_then_pure ((readBits_midway _ hm).mono (fun _ _ h => h.1) fun _ _ h => h) fun o u => ?_
    cases o <;> exact ⟨_, rfl⟩
  | wrbit bit =>
    exact runCommand_inv_of_midway h hs fun hm => runs_after_check hm.toShape (checkOpen_runs _) <|
      runs_then_pure (writeBit_midway _ hm) fun _ _ => ⟨_, rfl⟩
  | wrbits n value =>
    exact runCommand_inv_of_midway h hs fun hm => runs_after_check hm.toShape (checkWidth_runs _ _ _) <|
      runs_after_check hm.toShape (checkOpen_runs _) <|
      runs_then_pure (writeBits_midway _ _ hm) fun _ _ => ⟨_, rfl⟩
  | wrclose =>
    exact runCommand_inv_of_midway h hs fun hm => runs_after_check hm.toShape (checkOpen_runs _) <|
      runs_then_pure (closeWriter_midway hm) fun _ _ => ⟨_, rfl⟩
  | dclr =>
    refine runCommand_inv_of_midway (body := do dictClear; pure okPlain) h hs fun hm => ?_
    have hc : Midway _ _ _ { s with dict := [] } :=
      { hm with dictRising := List.Pairwise.nil, dictLegal := fun x hx => absurd hx List.not_mem_nil }
    exact hc
  | dprobe parent ch =>
    refine runCommand_inv_of_midway h hs fun hm => runs_then_pure (Q := Midway _ _ _) ?_ fun _ _ => ⟨_, rfl⟩
    unfold Runs
    rw [probe_run]
    split_ifs
    · exact hm.toShape
    · exact hm
  | drsrv slot code parent ch =>
    refine runCommand_inv_of_midway h hs fun hm => (runs_bind _ _).2 ((checkReserve_runs _ _ _ _).mono ?_ ?_)
    · rintro _ _ ⟨rfl, hslot, hcode⟩
      exact hm.reserve (by simpa [legalSlot] using hslot) ((legalCode_iff _).1 hcode)
    · rintro _ _ rfl
      exact hm.toShape
  | tclr =>
    refine runCommand_inv_of_midway (body := do tableClear; pure okPlain) h hs fun hm => ?_
    have hc : Midway _ _ _ { s with table := [] } :=
      { hm with tableRising := List.Pairwise.nil, tableLegal := fun x hx => absurd hx List.not_mem_nil }
    exact hc
  | tassign code parent ch =>
    refine runCommand_inv_of_midway h hs fun hm => (runs_bind _ _).2 ((checkAssign_runs _ _).mono ?_ ?_)
    · rintro _ _ ⟨rfl, hcode⟩
      exact hm.assign ((legalCode_iff _).1 hcode) (Nat.lt_succ_iff.1 code.isLt) _
    · rintro _ _ rfl
      exact hm.toShape
  | twalk code =>
    exact runCommand_inv_of_midway h hs fun hm =>
      runs_then_pure (walk_midway _ (by decide) hm) fun _ _ => ⟨_, rfl⟩
  | temit =>
    exact runCommand_inv_of_midway h hs fun hm => runs_then_pure (emit_midway hm) fun _ _ => ⟨_, rfl⟩

theorem exec_inv {i : Instr} (h : exec i s = .next t) (hs : s.Inv) : t.Inv := by
  by_cases hi : component i = true
  · exact exec_component_inv hi h hs
  · cases i with
    | encode =>
      refine runCommand_inv_of_done h hs fun hshape _ => runs_after_check hshape (checkOpen_runs _) ?_
      exact runs_then_pure ((encodeAll_ends hshape).mono (fun _ _ hr => ⟨_, hr⟩) fun _ _ h => h) fun _ _ => ⟨_, rfl⟩
    | decode =>
      refine runCommand_inv_of_done h hs fun hshape htidy => ?_
      exact runs_then_pure ((decodeAll_ends hshape htidy).mono (fun _ _ hr => ⟨_, hr⟩) fun _ _ h => h)
        fun _ _ => ⟨_, rfl⟩
    | _ => exact absurd rfl hi

end Commands

theorem hostReset_inv (s : State) : (hostReset s).Inv :=
  { reset_inv with }

theorem bindStreams_inv {s : State} (h : s.Inv) (bytes : List Byte) : (bindStreams bytes s).Inv :=
  { h with srcPos := Nat.zero_le _ }

theorem step_inv {s t : State} (hs : s.Inv) (h : step s = .next t) : t.Inv := by
  unfold step at h
  split at h
  · cases h
    exact hs
  · split at h
    · exact exec_inv h { hs with }
    · exact runCommand_inv_of_midway h { hs with } fun hm => hm.toShape
  · next bytes rest _ =>
    cases h
    exact bindStreams_inv (s := { s with host := rest }) { hs with } bytes
  · cases h
    exact hostReset_inv _
  · cases h
    exact hostReset_inv _

end Sys2Proof.Machine

/-- Settles O11. -/
theorem resetIsLegal : Obligations.ResetIsLegal := Sys2Proof.Machine.reset_inv

/-- Settles O12: each statement of a command keeps the shape of the state, and a command that ends normally leaves the
rack tidy and no operation under way. -/
theorem stepKeepsLegal : Obligations.StepKeepsLegal := fun _ _ => Sys2Proof.Machine.step_inv

namespace Sys2Proof.Machine

variable {α β : Type} {R R' S : State → State → Prop} {s s' : State}

/-! ## Two runs of one operation that differ only in what it does not read

The rules below compare an operation run in two states. Each says: if `R` relates the states, the operation ends in both
the same way, with related states, provided that `R` fixes every field the operation reads (the fields of
the premise that are equations) and every write of the operation keeps `R` (its other fields). -/

/-- Two results are alike: the same answer in states related by `R`, or the same end of the command in states related
by `S`. -/
inductive Alike (S R : State → State → Prop) : EStateM.Result Stop State α → EStateM.Result Stop State α → Prop where
  | ok (a : α) {t t' : State} (h : R t t') : Alike S R (.ok a t) (.ok a t')
  | error (e : Stop) {t t' : State} (h : S t t') : Alike S R (.error e t) (.error e t')

/-- The rule of sequence. -/
theorem Alike.bind {x y : Op α} {f g : α → Op β} (hx : Alike S R (x s) (y s'))
    (hf : ∀ a t t', R t t' → Alike S R' (f a t) (g a t')) : Alike S R' ((x >>= f) s) ((y >>= g) s') := by
  rw [op_bind, op_bind]
  generalize x s = r, y s' = r' at hx ⊢
  cases hx with
  | ok a h => exact hf a _ _ h
  | error e h => exact .error e h

/-- A sequence that begins by looking at the state. -/
theorem Alike.get {f g : State → Op β} (h : Alike S R (f s s) (g s' s')) :
    Alike S R ((get >>= f) s) ((get >>= g) s') := h

/-- The rule of consequence. -/
theorem Alike.mono {r r' : EStateM.Result Stop State α} (h : Alike S R r r') (hR : ∀ t t', R t t' → R' t t') :
    Alike S R' r r' := by
  cases h with
  | ok a h => exact .ok a (hR _ _ h)
  | error e h => exact .error e h

/-- What the first of two runs is known to leave holds beside the relation. -/
theorem Alike.and_runs {x : Op α} {r' : EStateM.Result Stop State α} {Q : State → Prop} (h : Alike S R (x s) r')
    (hq : Runs x s (fun _ t => Q t) (fun _ _ => True)) : Alike S (fun t t' => R t t' ∧ Q t) (x s) r' := by
  cases hx : x s with
  | ok a t =>
    rw [hx] at h
    cases h with
    | ok _ h => exact .ok a ⟨h, hq.of_ok hx⟩
  | error e t =>
    rw [hx] at h
    cases h with
    | error _ h => exact .error e h

/-! ### What a relation must respect -/

/-- `R` respects the byte ports (20_memory R41 to R43). -/
structure PortsAlike (R : State → State → Prop) : Prop where
  answers : ∀ {s s'}, R s s' → s'.answers = s.answers
  src : ∀ {s s'}, R s s' → s'.src = s.src
  srcPos : ∀ {s s'}, R s s' → s'.srcPos = s.srcPos
  snkClosed : ∀ {s s'}, R s s' → s'.snkClosed = s.snkClosed
  setAnswers : ∀ {s s'} rest, R s s' → R { s with answers := rest } { s' with answers := rest }
  pull : ∀ {s s'}, R s s' → R { s with srcPos := s.srcPos + 1 } { s' with srcPos := s'.srcPos + 1 }
  append : ∀ {s s'} b, R s s' → R { s with snk := s.snk ++ [b] } { s' with snk := s'.snk ++ [b] }

/-- `R` respects the BitReader (40_bitreader R80). -/
structure ReaderAlike (R : State → State → Prop) : Prop extends PortsAlike R where
  rdRack : ∀ {s s'}, R s s' → s'.rdRack = s.rdRack
  rdCnt : ∀ {s s'}, R s s' → s'.rdCnt = s.rdCnt
  fill : ∀ {s s'} b, R s s' → R { s with rdRack := b, rdCnt := 8 } { s' with rdRack := b, rdCnt := 8 }
  take : ∀ {s s'}, R s s' → R { s with rdCnt := s.rdCnt - 1 } { s' with rdCnt := s'.rdCnt - 1 }

/-- `R` respects the BitWriter (41_bitwriter R90). -/
structure WriterAlike (R : State → State → Prop) : Prop extends PortsAlike R where
  wrRack : ∀ {s s'}, R s s' → s'.wrRack = s.wrRack
  wrCnt : ∀ {s s'}, R s s' → s'.wrCnt = s.wrCnt
  setWrRack : ∀ {s s'} b, R s s' → R { s with wrRack := b } { s' with wrRack := b }
  setWriter : ∀ {s s'} b n, R s s' → R { s with wrRack := b, wrCnt := n } { s' with wrRack := b, wrCnt := n }
  close : ∀ {s s'}, R s s' →
    R { s with wrRack := 0, wrCnt := 0, snkClosed := true } { s' with wrRack := 0, wrCnt := 0, snkClosed := true }

/-- `R` respects the EncodeDictionary (42_encode_dictionary R100). -/
structure DictAlike (R : State → State → Prop) : Prop where
  dict : ∀ {s s'}, R s s' → s'.dict = s.dict
  setDict : ∀ {s s'} d, R s s' → R { s with dict := d } { s' with dict := d }

/-- `R` respects the DecodeTable and pushes onto the stack (43_decode_table R110, R113). -/
structure TableAlike (R : State → State → Prop) : Prop where
  table : ∀ {s s'}, R s s' → s'.table = s.table
  sp : ∀ {s s'}, R s s' → s'.sp = s.sp
  setTable : ∀ {s s'} d, R s s' → R { s with table := d } { s' with table := d }
  push : ∀ {s s'} b, s.sp.toNat ≠ hw.stackDepth → R s s' →
    R { s with stk := stkWrite s.stk s.sp.toNat b, sp := s.sp + 1 }
      { s' with stk := stkWrite s'.stk s.sp.toNat b, sp := s.sp + 1 }

/-- `R` respects pops of the stack into the sink (43_decode_table R115). -/
structure PopAlike (R : State → State → Prop) : Prop extends PortsAlike R where
  sp : ∀ {s s'}, R s s' → s'.sp = s.sp
  top : ∀ {s s'}, s.sp ≠ 0 → R s s' → stackTop s' = stackTop s
  pop : ∀ {s s'}, s.sp ≠ 0 → R s s' → R { s with sp := s.sp - 1 } { s' with sp := s.sp - 1 }

/-! ### Writes to the tables -/

theorem reserve_alike (hR : DictAlike R) (slot : Nat) (code p : Code) (c : Byte) (h : R s s') :
    Alike S R (reserve slot code p c s) (reserve slot code p c s') := by
  rw [reserve_run, reserve_run, hR.dict h]
  exact .ok _ (hR.setDict _ h)

theorem assign_alike (hR : TableAlike R) (code : Nat) (p : Code) (c : Byte) (h : R s s') :
    Alike S R (assign code p c s) (assign code p c s') := by
  rw [assign_run, assign_run, hR.table h]
  exact .ok _ (hR.setTable _ h)

section Operations

variable (hS : ∀ {s s'}, R s s' → S s s')
include hS

/-! ### The byte ports -/

theorem transact_alike (hR : PortsAlike R) (f : FaultCode) (h : R s s') :
    Alike S R (transact f s) (transact f s') := by
  rw [transact_run, transact_run, hR.answers h]
  rcases s.answers with _ | ⟨_ | _ | _, rest⟩
  · exact .ok _ h
  · exact .ok _ (hR.setAnswers rest h)
  · exact .error _ (hS (hR.setAnswers rest h))
  · exact .error _ (hS (hR.setAnswers rest h))

theorem srcRead_alike (hR : PortsAlike R) (h : R s s') : Alike S R (srcRead s) (srcRead s') := by
  refine (transact_alike hS hR _ h).bind fun _ t t' ht => ?_
  have hb : t'.src[t'.srcPos]? = t.src[t.srcPos]? := by rw [hR.src ht, hR.srcPos ht]
  refine Alike.get ?_
  rw [hb]
  cases t.src[t.srcPos]? with
  | none => exact .ok _ ht
  | some b => exact .ok _ (hR.pull ht)

theorem snkWrite_alike (hR : PortsAlike R) (b : Byte) (h : R s s') : Alike S R (snkWrite b s) (snkWrite b s') := by
  have hc' := hR.snkClosed h
  cases hc : s.snkClosed with
  | true =>
    rw [snkWrite_closed hc, snkWrite_closed (hc'.trans hc)]
    exact .error _ (hS h)
  | false =>
    rw [snkWrite_open hc, snkWrite_open (hc'.trans hc)]
    exact (transact_alike hS hR _ h).bind fun _ _ _ ht => .ok _ (hR.append b ht)

/-! ### The BitReader -/

theorem readBit_alike (hR : ReaderAlike R) (h : R s s') : Alike S R (readBit s) (readBit s') := by
  have hfill : Alike S R (fillRack s) (fillRack s') := by
    have hc' := hR.rdCnt h
    by_cases hc : s.rdCnt = 0
    · rw [fillRack_empty hc, fillRack_empty (hc'.trans hc)]
      refine (srcRead_alike hS hR.toPortsAlike h).bind fun o t t' ht => ?_
      cases o with
      | none => exact .ok _ ht
      | some b => exact .ok _ (hR.fill b ht)
    · rw [fillRack_ready hc, fillRack_ready (by rwa [hc'])]
      exact .ok _ h
  refine hfill.bind fun ready t t' ht => ?_
  cases ready with
  | false => exact .ok _ ht
  | true =>
    refine Alike.bind (R := R) (x := takeBit) (y := takeBit) ?_ fun b u u' hu => .ok _ hu
    have hb : t'.rdRack.getLsbD (t'.rdCnt - 1).toNat = t.rdRack.getLsbD (t.rdCnt - 1).toNat := by
      rw [hR.rdRack ht, hR.rdCnt ht]
    rw [takeBit_run, takeBit_run, hb]
    exact .ok _ (hR.take ht)

theorem readBitsFrom_alike (hR : ReaderAlike R) (n v : Nat) (h : R s s') :
    Alike S R (readBitsFrom n v s) (readBitsFrom n v s') := by
  induction n generalizing v s s' with
  | zero => exact .ok _ h
  | succ n ih =>
    refine (readBit_alike hS hR h).bind fun o t t' ht => ?_
    cases o with
    | none => exact .ok _ ht
    | some b => exact ih _ ht

/-! ### The BitWriter -/

theorem writeBit_alike (hR : WriterAlike R) (b : Bool) (h : R s s') :
    Alike S R (writeBit b s) (writeBit b s') := by
  have hc' := hR.wrCnt h
  by_cases hc : s.wrCnt = 7
  · rw [writeBit_fills hc, writeBit_fills (hc'.trans hc), hR.wrRack h]
    exact (snkWrite_alike hS hR.toPortsAlike _ (hR.setWrRack _ h)).bind
      fun _ _ _ ht => .ok _ (hR.setWriter _ _ ht)
  · rw [writeBit_places hc, writeBit_places (by rwa [hc']), hR.wrRack h, hc']
    exact .ok _ (hR.setWriter _ _ h)

theorem writeBits_alike (hR : WriterAlike R) {w : Nat} (v : BitVec w) (n : Nat) (h : R s s') :
    Alike S R (writeBits v n s) (writeBits v n s') := by
  induction n generalizing s s' with
  | zero => exact .ok _ h
  | succ n ih => exact (writeBit_alike hS hR _ h).bind fun _ _ _ ht => ih ht

theorem closeWriter_alike (hR : WriterAlike R) (h : R s s') :
    Alike S R (closeWriter s) (closeWriter s') := by
  rw [closeWriter_run, closeWriter_run, hR.wrCnt h, hR.wrRack h]
  refine Alike.bind (R := R) ?_ fun _ _ _ ht => .ok _ (hR.close ht)
  split_ifs
  · exact .ok _ h
  · exact snkWrite_alike hS hR.toPortsAlike _ h

/-! ### The dictionary -/

theorem probe_alike (hR : DictAlike R) (p : Code) (c : Byte) (h : R s s') :
    Alike S R (probe hw p c s) (probe hw p c s') := by
  rw [probe_run, probe_run, hR.dict h]
  split_ifs
  · exact .error _ (hS h)
  · exact .ok _ h

/-! ### The table and the stack -/

theorem push_alike (hR : TableAlike R) (b : Byte) (h : R s s') : Alike S R (push hw b s) (push hw b s') := by
  have hsp := hR.sp h
  by_cases hf : s.sp.toNat = hw.stackDepth
  · rw [push_full hf, push_full (by rwa [hsp])]
    exact .error _ (hS h)
  · rw [push_room hf, push_room (by rwa [hsp]), hsp]
    exact .ok _ (hR.push b hf h)

theorem walkFrom_alike (hR : TableAlike R) (n : Nat) (k : Code) (h : R s s') :
    Alike S R (walkFrom hw n k s) (walkFrom hw n k s') := by
  induction n generalizing k s s' with
  | zero => exact .error _ (hS h)
  | succ n ih =>
    rcases lt_trichotomy k.toNat eos with hk | hk | hk
    · rw [walkFrom_literal hk]
      exact push_alike hS hR _ h
    · rw [walkFrom_sentinel hk, walkFrom_sentinel hk]
      exact .error _ (hS h)
    · have hc' := hR.table h
      cases hc : lookup s.table k.toNat with
      | none =>
        rw [walkFrom_unused hk hc, walkFrom_unused hk (by rwa [hc'])]
        exact .error _ (hS h)
      | some e =>
        rw [walkFrom_cell hk hc, walkFrom_cell hk (by rwa [hc'])]
        exact (push_alike hS hR _ h).bind fun _ _ _ ht => ih _ ht

theorem emitFrom_alike (hR : PopAlike R) (n : Nat) (hn : n ≤ s.sp.toNat) (h : R s s') :
    Alike S R (emitFrom n s) (emitFrom n s') := by
  induction n generalizing s s' with
  | zero => exact .ok _ h
  | succ n ih =>
    have hne : s.sp ≠ 0 := by
      intro h0
      simp [h0] at hn
    have htop : stkRead s'.stk (s'.sp - 1).toNat = stkRead s.stk (s.sp - 1).toNat := hR.top hne h
    rw [emitFrom_succ, emitFrom_succ, htop, hR.sp h]
    have hw := (snkWrite_writes (stkRead s.stk (s.sp - 1).toNat) { s with sp := s.sp - 1 }).mono
      (Q' := fun _ t => t.sp = s.sp - 1) (E' := fun _ _ => True) (fun _ t ht => by rw [ht.1]) fun _ _ _ => trivial
    refine ((snkWrite_alike hS hR.toPortsAlike _ (hR.pop hne h)).and_runs hw).bind ?_
    rintro _ t t' ⟨ht, hsp⟩
    exact ih (by rw [hsp]; bv_omega) ht

theorem emit_alike (hR : PopAlike R) (h : R s s') : Alike S R (emit s) (emit s') := by
  rw [emit_run, emit_run, hR.sp h]
  exact (emitFrom_alike hS hR _ le_rfl h).bind fun _ _ _ ht => .ok _ ht

/-! ### Acceptance checks -/

theorem checkWidth_alike (n : BitVec 6) (h : R s s') : Alike S R (checkWidth hw n s) (checkWidth hw n s') := by
  cases hl : legalWidth hw n with
  | true =>
    rw [checkWidth_legal hl, checkWidth_legal hl]
    exact .ok _ h
  | false =>
    rw [checkWidth_illegal hl, checkWidth_illegal hl]
    exact .error _ (hS h)

theorem checkOpen_alike (hR : PortsAlike R) (h : R s s') : Alike S R (checkOpen s) (checkOpen s') := by
  have hc' := hR.snkClosed h
  cases hc : s.snkClosed with
  | true =>
    rw [checkOpen_closed hc, checkOpen_closed (hc'.trans hc)]
    exact .error _ (hS h)
  | false =>
    rw [checkOpen_open hc, checkOpen_open (hc'.trans hc)]
    exact .ok _ h

theorem checkReserve_alike (hR : DictAlike R) (slot : SlotIndex) (code : Code) (h : R s s') :
    Alike S R (checkReserve hw slot code s) (checkReserve hw slot code s') := by
  rw [checkReserve_run, checkReserve_run, hR.dict h]
  split_ifs
  · exact .ok _ h
  · exact .error _ (hS h)

theorem checkAssign_alike (hR : TableAlike R) (code : Code) (h : R s s') :
    Alike S R (checkAssign code s) (checkAssign code s') := by
  rw [checkAssign_run, checkAssign_run, hR.table h]
  split_ifs
  · exact .ok _ h
  · exact .error _ (hS h)

end Operations

/-- Commands whose bodies are alike end alike: both refused, both answered, or both ended by the same fault. -/
theorem runCommand_alike {t : State} {body : Op Word} (hb : Alike S R (body s) (body s'))
    (hf : s'.fault = s.fault) (h : runCommand body s = .next t) :
    ∃ t', runCommand body s' = .next t' ∧
      ((∃ f, t = refuseWord f s ∧ t' = refuseWord f s') ∨
       (∃ w u u', R u u' ∧ t = { u with rsp := some w } ∧ t' = { u' with rsp := some w }) ∨
       (∃ f u u', S u u' ∧ t = takeFault f u ∧ t' = takeFault f u')) := by
  rcases runCommand_next h with ⟨f, hs, rfl⟩ | ⟨hs, w, u, hu, rfl⟩ | ⟨hs, f, u, hu, rfl⟩
  · exact ⟨_, runCommand_faulted (hf.trans hs) _, .inl ⟨f, rfl, rfl⟩⟩
  · rw [hu] at hb
    generalize hr : body s' = r at hb
    cases hb with
    | ok _ h => exact ⟨_, runCommand_ok (hf.trans hs) hr, .inr (.inl ⟨w, u, _, h, rfl, rfl⟩)⟩
  · rw [hu] at hb
    generalize hr : body s' = r at hb
    cases hb with
    | error _ h => exact ⟨_, runCommand_raised (hf.trans hs) hr, .inr (.inr ⟨f, u, _, h, rfl, rfl⟩)⟩

/-! ## The component commands and the control state (10_state R18) -/

/-- The second state is the first one with mode `m'` and phase `p'` in place of `m` and `p`. -/
def ControlChanged (m m' : Mode) (p p' : Phase) (s s' : State) : Prop :=
  s' = { s with mode := m', phase := p' } ∧ s.mode = m ∧ s.phase = p

section Control

variable {m m' : Mode} {p p' : Phase}

theorem controlChanged_ports : PortsAlike (ControlChanged m m' p p') where
  answers h := by rw [h.1]
  src h := by rw [h.1]
  srcPos h := by rw [h.1]
  snkClosed h := by rw [h.1]
  setAnswers _ h := ⟨by rw [h.1], h.2⟩
  pull h := ⟨by rw [h.1], h.2⟩
  append _ h := ⟨by rw [h.1], h.2⟩

theorem controlChanged_reader : ReaderAlike (ControlChanged m m' p p') where
  toPortsAlike := controlChanged_ports
  rdRack h := by rw [h.1]
  rdCnt h := by rw [h.1]
  fill _ h := ⟨by rw [h.1], h.2⟩
  take h := ⟨by rw [h.1], h.2⟩

theorem controlChanged_writer : WriterAlike (ControlChanged m m' p p') where
  toPortsAlike := controlChanged_ports
  wrRack h := by rw [h.1]
  wrCnt h := by rw [h.1]
  setWrRack _ h := ⟨by rw [h.1], h.2⟩
  setWriter _ _ h := ⟨by rw [h.1], h.2⟩
  close h := ⟨by rw [h.1], h.2⟩

theorem controlChanged_dict : DictAlike (ControlChanged m m' p p') where
  dict h := by rw [h.1]
  setDict _ h := ⟨by rw [h.1], h.2⟩

theorem controlChanged_table : TableAlike (ControlChanged m m' p p') where
  table h := by rw [h.1]
  sp h := by rw [h.1]
  setTable _ h := ⟨by rw [h.1], h.2⟩
  push _ _ h := ⟨by rw [h.1], h.2⟩

theorem controlChanged_pop : PopAlike (ControlChanged m m' p p') where
  toPortsAlike := controlChanged_ports
  sp h := by rw [h.1]
  top _ h := by rw [h.1]; rfl
  pop _ h := ⟨by rw [h.1], h.2⟩

theorem ControlChanged.keepsRsp {s s' : State} (h : ControlChanged m m' p p' s s') (w : Word) :
    ControlChanged m m' p p' { s with rsp := some w } { s' with rsp := some w } := ⟨by rw [h.1], h.2⟩

/-- A command whose body does not look at the control state. -/
theorem runCommand_controlChanged {s t : State} {body : Op Word}
    (hb : ∀ {s s'}, ControlChanged m m' p p' s s' →
      Alike (ControlChanged m m' p p') (ControlChanged m m' p p') (body s) (body s'))
    (hm : s.mode = m) (hp : s.phase = p) (h : runCommand body s = .next t) :
    t.mode = m ∧ t.phase = p ∧
      runCommand body { s with mode := m', phase := p' } = .next { t with mode := m', phase := p' } := by
  have hc : ControlChanged m m' p p' s { s with mode := m', phase := p' } := ⟨rfl, hm, hp⟩
  obtain ⟨t', ht', hend⟩ := runCommand_alike (hb hc) rfl h
  have hct : ControlChanged m m' p p' t t' := by
    rcases hend with ⟨f, rfl, rfl⟩ | ⟨w, u, u', hu, rfl, rfl⟩ | ⟨f, u, u', hu, rfl, rfl⟩
    · exact hc.keepsRsp _
    · exact hu.keepsRsp w
    · exact ⟨by rw [hu.1]; rfl, hu.2⟩
  exact ⟨hct.2.1, hct.2.2, hct.1 ▸ ht'⟩

theorem exec_controlChanged {i : Instr} {s t : State} (hi : component i = true) (h : exec i s = .next t) (m' : Mode)
    (p' : Phase) : t.mode = s.mode ∧ t.phase = s.phase ∧
      exec i { s with mode := m', phase := p' } = .next { t with mode := m', phase := p' } := by
  cases i with
  | encode | decode => cases hi
  | rdbit =>
    refine runCommand_controlChanged (fun h => (readBit_alike id controlChanged_reader h).bind ?_) rfl rfl h
    rintro (_ | _) _ _ h <;> exact .ok _ h
  | rdbits n =>
    refine runCommand_controlChanged (fun h => (checkWidth_alike id n h).bind fun _ _ _ h =>
      (readBitsFrom_alike id controlChanged_reader _ _ h).bind ?_) rfl rfl h
    rintro (_ | _) _ _ h <;> exact .ok _ h
  | wrbit bit =>
    exact runCommand_controlChanged (fun h => (checkOpen_alike id controlChanged_ports h).bind fun _ _ _ h =>
      (writeBit_alike id controlChanged_writer bit h).bind fun _ _ _ h => .ok _ h) rfl rfl h
  | wrbits n value =>
    exact runCommand_controlChanged (fun h => (checkWidth_alike id n h).bind fun _ _ _ h =>
      (checkOpen_alike id controlChanged_ports h).bind fun _ _ _ h =>
      (writeBits_alike id controlChanged_writer value _ h).bind fun _ _ _ h => .ok _ h) rfl rfl h
  | wrclose =>
    exact runCommand_controlChanged (fun h => (checkOpen_alike id controlChanged_ports h).bind fun _ _ _ h =>
      (closeWriter_alike id controlChanged_writer h).bind fun _ _ _ h => .ok _ h) rfl rfl h
  | dclr =>
    exact runCommand_controlChanged (body := do dictClear; pure okPlain)
      (fun h => .ok _ (controlChanged_dict.setDict [] h)) rfl rfl h
  | dprobe parent ch =>
    exact runCommand_controlChanged (fun h => (probe_alike id controlChanged_dict parent ch h).bind
      fun _ _ _ h => .ok _ h) rfl rfl h
  | drsrv slot code parent ch =>
    exact runCommand_controlChanged (fun h =>
      (checkReserve_alike id controlChanged_dict slot code h).bind fun _ _ _ h =>
      (reserve_alike controlChanged_dict _ code parent ch h).bind fun _ _ _ h => .ok _ h) rfl rfl h
  | tclr =>
    exact runCommand_controlChanged (body := do tableClear; pure okPlain)
      (fun h => .ok _ (controlChanged_table.setTable [] h)) rfl rfl h
  | tassign code parent ch =>
    exact runCommand_controlChanged (fun h => (checkAssign_alike id controlChanged_table code h).bind fun _ _ _ h =>
      (assign_alike controlChanged_table _ parent ch h).bind fun _ _ _ h => .ok _ h) rfl rfl h
  | twalk code =>
    refine runCommand_controlChanged
      (fun h => Alike.bind (R := ControlChanged s.mode m' s.phase p') ?_ fun _ t t' ht => ?_) rfl rfl h
    · exact walkFrom_alike id controlChanged_table _ code ⟨by rw [h.1], h.2⟩
    · have hw : walkWord t' = walkWord t := by rw [ht.1]; rfl
      refine Alike.get ?_
      rw [hw]
      exact .ok _ ht
  | temit =>
    exact runCommand_controlChanged (fun h => (emit_alike id controlChanged_pop h).bind
      fun _ _ _ h => .ok _ h) rfl rfl h

end Control

end Sys2Proof.Machine

/-- Settles O60: a component command's operations read neither register and each of their writes leaves both. -/
theorem componentsIgnoreControlState : Obligations.ComponentsIgnoreControlState :=
  fun _ _ _ m p hi h => Sys2Proof.Machine.exec_controlChanged hi h m p

namespace Sys2Proof.Machine

/-! ## What ENCODE and DECODE read of the state they find (10_state R23) -/

/-- The streams, the fault and the port answers agree. -/
structure SamePorts (s s' : State) : Prop where
  src : s'.src = s.src
  srcPos : s'.srcPos = s.srcPos
  snk : s'.snk = s.snk
  snkClosed : s'.snkClosed = s.snkClosed
  fault : s'.fault = s.fault
  answers : s'.answers = s.answers

/-- Operations whose bodies agree on the ports end with the same output and the same response. -/
theorem runCommand_samePorts {R : State → State → Prop} {s s' t : State} {body : Op Word} (hs : SamePorts s s')
    (hR : ∀ u u', R u u' → SamePorts u u') (hb : Alike SamePorts R (body s) (body s'))
    (h : runCommand body s = .next t) :
    ∃ t', runCommand body s' = .next t' ∧ SamePorts t t' ∧ t'.rsp = t.rsp := by
  obtain ⟨t', ht', hend⟩ := runCommand_alike hb hs.fault h
  refine ⟨t', ht', ?_⟩
  rcases hend with ⟨f, rfl, rfl⟩ | ⟨w, u, u', hu, rfl, rfl⟩ | ⟨f, u, u', hu, rfl, rfl⟩
  · exact ⟨{ hs with }, rfl⟩
  · exact ⟨{ hR u u' hu with }, rfl⟩
  · have hf := hu.fault
    exact ⟨{ hu with fault := by simp [hf] }, by simp [takeFault, hf]⟩

/-- The loop of an operation whose phase is DONE does nothing. -/
theorem loop_done {step : Op Unit} {loop : Nat → Op Unit} (hl : IsLoop step loop) {s : State} (h : s.phase = .done)
    (n : Nat) : loop n s = .ok () s := by
  cases n with
  | zero => exact hl.zero s
  | succ n => rw [hl.succ, if_neg (by simp [h])]

/-- The loops of two operations are alike when their steps are. -/
theorem loop_alike {S R : State → State → Prop} {step : Op Unit} {loop : Nat → Op Unit}
    (hl : IsLoop step loop) (hphase : ∀ s s', R s s' → s'.phase = s.phase)
    (hstep : ∀ s s', R s s' → Alike S R (step s) (step s')) (n : Nat) {s s' : State} (h : R s s') :
    Alike S R (loop n s) (loop n s') := by
  induction n generalizing s s' with
  | zero =>
    rw [hl.zero, hl.zero]
    exact .ok _ h
  | succ n ih =>
    rw [hl.succ, hl.succ, hphase s s' h]
    split_ifs
    · exact (hstep s s' h).bind fun _ _ _ ht => ih ht
    · exact .ok _ h

/-- After the start of an operation: it is over, or everything its loop reads agrees. -/
def Started (R : State → State → Prop) (s s' : State) : Prop :=
  R s s' ∨ SamePorts s s' ∧ s.phase = .done ∧ s'.phase = .done

/-- The loop after the start, its bound being what is left of the source. -/
theorem loop_after_start {R : State → State → Prop} {step : Op Unit} {loop : Nat → Op Unit}
    (hl : IsLoop step loop) (hphase : ∀ s s', R s s' → s'.phase = s.phase) (hports : ∀ s s', R s s' → SamePorts s s')
    (hstep : ∀ s s', R s s' → Alike SamePorts R (step s) (step s')) {s s' : State} (h : Started R s s') :
    Alike SamePorts SamePorts (loop (s.src.length - s.srcPos + 1) s) (loop (s'.src.length - s'.srcPos + 1) s') := by
  obtain h | ⟨h, hd, hd'⟩ := h
  · have hp := hports s s' h
    rw [hp.src, hp.srcPos]
    exact (loop_alike hl hphase hstep _ h).mono hports
  · rw [loop_done hl hd, loop_done hl hd']
    exact .ok _ h

/-! ### ENCODE -/

/-- Everything agrees that ENCODE reads after it has cleared its registers; when `started`, the two registers that only
a first byte sets agree too. -/
structure EncAlike (started : Prop) (s s' : State) : Prop extends SamePorts s s' where
  wrRack : s'.wrRack = s.wrRack
  wrCnt : s'.wrCnt = s.wrCnt
  dict : s'.dict = s.dict
  encNext : s'.encNext = s.encNext
  encCur : started → s'.encCur = s.encCur
  phase : started → s'.phase = s.phase

section Encode

variable {started : Prop} {s s' : State}

theorem encAlike_ports : PortsAlike (EncAlike started) where
  answers h := h.answers
  src h := h.src
  srcPos h := h.srcPos
  snkClosed h := h.snkClosed
  setAnswers _ h := { h with answers := rfl }
  pull h := { h with srcPos := congrArg (· + 1) h.srcPos }
  append b h := { h with snk := congrArg (· ++ [b]) h.snk }

theorem encAlike_writer : WriterAlike (EncAlike started) where
  toPortsAlike := encAlike_ports
  wrRack h := h.wrRack
  wrCnt h := h.wrCnt
  setWrRack _ h := { h with wrRack := rfl }
  setWriter _ _ h := { h with wrRack := rfl, wrCnt := rfl }
  close h := { h with wrRack := rfl, wrCnt := rfl, snkClosed := rfl }

theorem encAlike_dict : DictAlike (EncAlike started) where
  dict h := h.dict
  setDict _ h := { h with dict := rfl }

theorem EncAlike.ports (h : EncAlike started s s') : SamePorts s s' := h.toSamePorts

/-- The end of the wire stream leaves both runs over. -/
theorem encFinish_alike (h : EncAlike started s s') :
    Alike SamePorts (fun t t' => EncAlike started t t' ∧ t.phase = .done ∧ t'.phase = .done)
      (encFinish s) (encFinish s') :=
  (writeBits_alike EncAlike.ports encAlike_writer _ _ h).bind fun _ _ _ h =>
    (closeWriter_alike EncAlike.ports encAlike_writer h).bind fun _ _ _ h =>
      .ok _ ⟨{ h with phase := fun _ => rfl }, rfl, rfl⟩

theorem encStart_alike (h : SamePorts s s') :
    Alike SamePorts (Started (EncAlike True)) (encStart s) (encStart s') := by
  have hc : EncAlike False
      { s with mode := .enc, dict := [], encNext := BitVec.ofNat 13 firstCode, wrRack := 0, wrCnt := 0 }
      { s' with mode := .enc, dict := [], encNext := BitVec.ofNat 13 firstCode, wrRack := 0, wrCnt := 0 } :=
    { h with wrRack := rfl, wrCnt := rfl, dict := rfl, encNext := rfl, encCur := False.elim, phase := False.elim }
  refine Alike.bind (x := srcRead) (y := srcRead) (srcRead_alike EncAlike.ports encAlike_ports hc) fun o t t' ht => ?_
  cases o with
  | none => exact (encFinish_alike ht).mono fun _ _ ⟨hu, hd, hd'⟩ => .inr ⟨hu.ports, hd, hd'⟩
  | some b => exact .ok _ (.inl { ht with encCur := fun _ => rfl, phase := fun _ => rfl })

theorem encMiss_alike (slot : Nat) (b : Byte) (h : EncAlike True s s') :
    Alike SamePorts (EncAlike True) (encMiss slot b s) (encMiss slot b s') := by
  unfold encMiss
  refine Alike.get ?_
  rw [h.encCur trivial, h.encNext]
  refine (writeBits_alike EncAlike.ports encAlike_writer _ _ h).bind fun _ t t' ht => ?_
  split_ifs
  · exact (reserve_alike encAlike_dict _ _ _ _ ht).bind fun _ _ _ hu =>
      .ok _ { hu with encNext := congrArg (· + 1) hu.encNext, encCur := fun _ => rfl }
  · exact .ok _ { ht with encCur := fun _ => rfl }

theorem encStep_alike (h : EncAlike True s s') :
    Alike SamePorts (EncAlike True) (encStep hw s) (encStep hw s') := by
  refine (srcRead_alike EncAlike.ports encAlike_ports h).bind fun o t t' ht => ?_
  have hcur := ht.encCur trivial
  cases o with
  | none =>
    refine Alike.get ?_
    rw [hcur]
    exact (writeBits_alike EncAlike.ports encAlike_writer _ _ ht).bind fun _ _ _ hu =>
      (encFinish_alike hu).mono fun _ _ hv => hv.1
  | some b =>
    refine Alike.get ?_
    rw [hcur]
    refine (probe_alike EncAlike.ports encAlike_dict _ b ht).bind fun f u u' hu => ?_
    cases f with
    | miss slot => exact encMiss_alike slot b hu
    | hit slot e => exact .ok _ { hu with encCur := fun _ => rfl }
    | exhausted => exact .error _ hu.ports

theorem encodeAll_alike (h : SamePorts s s') :
    Alike SamePorts SamePorts (encodeAll hw s) (encodeAll hw s') :=
  (encStart_alike h).bind fun _ _ _ ht =>
    loop_after_start (encLoop_isLoop hw) (fun _ _ h => h.phase trivial) (fun _ _ h => h.ports)
      (fun _ _ => encStep_alike) ht

end Encode

/-! ### DECODE -/

/-- Everything agrees that DECODE reads after it has cleared its registers: of the stack, the entries from `lo` up to
the top; when `started`, the two registers that only a first code sets agree too. -/
structure DecAlike (lo : Nat) (started : Prop) (s s' : State) : Prop extends SamePorts s s' where
  rdRack : s'.rdRack = s.rdRack
  rdCnt : s'.rdCnt = s.rdCnt
  table : s'.table = s.table
  sp : s'.sp = s.sp
  decNext : s'.decNext = s.decNext
  spLegal : s.sp.toNat ≤ hw.stackDepth
  stkRising : rising s.stk
  stkRising' : rising s'.stk
  stk : ∀ i, lo ≤ i → i < s.sp.toNat → stkRead s'.stk i = stkRead s.stk i
  decOld : started → s'.decOld = s.decOld
  phase : started → s'.phase = s.phase

section Decode

variable {lo : Nat} {started : Prop} {s s' : State}

theorem DecAlike.ports (h : DecAlike lo started s s') : SamePorts s s' := h.toSamePorts

theorem decAlike_ports : PortsAlike (DecAlike lo started) where
  answers h := h.answers
  src h := h.src
  srcPos h := h.srcPos
  snkClosed h := h.snkClosed
  setAnswers _ h := { h with answers := rfl }
  pull h := { h with srcPos := congrArg (· + 1) h.srcPos }
  append b h := { h with snk := congrArg (· ++ [b]) h.snk }

theorem decAlike_reader : ReaderAlike (DecAlike lo started) where
  toPortsAlike := decAlike_ports
  rdRack h := h.rdRack
  rdCnt h := h.rdCnt
  fill _ h := { h with rdRack := rfl, rdCnt := rfl }
  take h := { h with rdCnt := congrArg (· - 1) h.rdCnt }

/-- The top of the stack agrees when it stands at or above `lo`. -/
theorem DecAlike.top (h : DecAlike lo started s s') (hlo : lo < s.sp.toNat) : stackTop s' = stackTop s := by
  have hd : (s.sp - 1).toNat = s.sp.toNat - 1 := by bv_omega
  unfold stackTop
  rw [h.sp]
  exact h.stk _ (by omega) (by omega)

/-- A write of the same byte to the same entry of both stacks leaves them agreeing. -/
theorem stkRead_stkWrite_congr {m m' : List Host.Cell} (hm : rising m) (hm' : rising m') {i j : Nat} (b : Byte)
    (h : j ≠ i → stkRead m' j = stkRead m j) : stkRead (stkWrite m' i b) j = stkRead (stkWrite m i b) j := by
  by_cases hj : j = i
  · rw [hj, stkRead_write_self hm, stkRead_write_self hm']
  · rw [stkRead_write_of_ne _ _ hj, stkRead_write_of_ne _ _ hj, h hj]

theorem decAlike_table : TableAlike (DecAlike lo started) where
  table h := h.table
  sp h := h.sp
  setTable _ h := { h with table := rfl }
  push {s s'} b hne h :=
    { h with
      sp := rfl
      spLegal := by
        have hl := h.spLegal
        simp only [sp_succ hl hne]
        omega
      stkRising := rising_stkWrite h.stkRising _ _
      stkRising' := rising_stkWrite h.stkRising' _ _
      stk := fun i hlo hi => stkRead_stkWrite_congr h.stkRising h.stkRising' b fun hne' => h.stk i hlo (by
        have hs := sp_succ h.spLegal hne
        simp only [hs] at hi
        omega) }

theorem decAlike_pop : PopAlike (DecAlike 0 started) where
  toPortsAlike := decAlike_ports
  sp h := h.sp
  top _ h := h.top (by bv_omega)
  pop {s s'} hne h := by
    have hd : (s.sp - 1).toNat = s.sp.toNat - 1 := by bv_omega
    have hl := h.spLegal
    exact { h with
      sp := rfl
      spLegal := by simp only [hd]; omega
      stk := fun i hlo hi => h.stk i hlo (by simp only [hd] at hi; omega) }

/-- A walk that ends has pushed (43_decode_table R113). -/
theorem walkFrom_pushes (n : Nat) (k : Code) (hl : s.sp.toNat ≤ hw.stackDepth) :
    Runs (walkFrom hw n k) s (fun _ t => s.sp.toNat < t.sp.toNat) (fun _ _ => True) := by
  have hp : ∀ (b : Byte) {s : State}, s.sp.toNat ≤ hw.stackDepth → Runs (push hw b) s
      (fun _ t => t.sp.toNat = s.sp.toNat + 1 ∧ t.sp.toNat ≤ hw.stackDepth) (fun _ _ => True) := by
    intro b s hl
    unfold Runs
    by_cases hf : s.sp.toNat = hw.stackDepth
    · rw [push_full hf]
      trivial
    · rw [push_room hf]
      have hs := sp_succ hl hf
      exact ⟨hs, by simp only [hs]; omega⟩
  induction n generalizing k s with
  | zero => trivial
  | succ n ih =>
    rcases lt_trichotomy k.toNat eos with hk | hk | hk
    · rw [walkFrom_literal hk]
      exact (hp _ hl).mono (fun _ _ h => by omega) fun _ _ h => h
    · unfold Runs
      rw [walkFrom_sentinel hk]
      trivial
    · unfold Runs
      cases hc : lookup s.table k.toNat with
      | none =>
        rw [walkFrom_unused hk hc]
        trivial
      | some e =>
        rw [walkFrom_cell hk hc]
        refine (runs_bind _ _).2 ((hp e.char hl).mono (fun _ t ht => ?_) fun _ _ h => h)
        exact (ih e.parent ht.2).mono (fun _ _ h => by omega) fun _ _ h => h

/-- A walk reads the table only and leaves a top of the stack that it has written. -/
theorem walk_alike (k : Code) {sp0 : BitVec 13} (hsp : sp0.toNat ≤ hw.stackDepth) (h : DecAlike lo started s s') :
    Alike SamePorts (fun t t' => DecAlike sp0.toNat started t t' ∧ sp0.toNat < t.sp.toNat)
      (walk hw k sp0 s) (walk hw k sp0 s') := by
  have h0 : DecAlike sp0.toNat started { s with sp := sp0 } { s' with sp := sp0 } :=
    { h with sp := rfl, spLegal := hsp, stk := fun i hlo hi => absurd hi (by simp only; omega) }
  rw [walk_run, walk_run]
  exact (walkFrom_alike DecAlike.ports decAlike_table _ k h0).and_runs (walkFrom_pushes _ k hsp)

theorem readCode_alike (h : DecAlike lo started s s') :
    Alike SamePorts (DecAlike lo started) (readCode s) (readCode s') := by
  refine (readBitsFrom_alike DecAlike.ports decAlike_reader codeBits 0 h).bind fun o t t' ht => ?_
  cases o with
  | none => exact .ok _ ht
  | some v =>
    dsimp only
    split_ifs
    · exact .ok _ ht
    · exact .ok _ ht

theorem decStart_alike (h : SamePorts s s') (hs : rising s.stk) (hs' : rising s'.stk) :
    Alike SamePorts (Started (DecAlike 0 True)) (decStart s) (decStart s') := by
  have hc : DecAlike 0 False
      { s with mode := .dec, table := [], sp := 0, rdRack := 0, rdCnt := 0, decNext := BitVec.ofNat 13 firstCode }
      { s' with mode := .dec, table := [], sp := 0, rdRack := 0, rdCnt := 0, decNext := BitVec.ofNat 13 firstCode } :=
    { h with
      rdRack := rfl, rdCnt := rfl, table := rfl, sp := rfl, decNext := rfl, spLegal := Nat.zero_le _
      stkRising := hs, stkRising' := hs'
      stk := fun i _ hi => absurd hi (Nat.not_lt_zero i)
      decOld := False.elim, phase := False.elim }
  refine Alike.bind (x := readCode) (y := readCode) (readCode_alike hc) fun o t t' ht => ?_
  cases o with
  | none => exact .ok _ (.inr ⟨{ ht.ports with }, rfl, rfl⟩)
  | some r =>
    exact (snkWrite_alike DecAlike.ports decAlike_ports _ ht).bind fun _ _ _ hu =>
      .ok _ (.inl { hu with decOld := fun _ => rfl, phase := fun _ => rfl })

/-- Entry 0, which the walk of `dec_old` leaves out, is written with the top of the stack (45_decoder R132). -/
theorem DecAlike.writeBottom (h : DecAlike 1 started s s') (hlo : 1 < s.sp.toNat) :
    DecAlike 0 started { s with stk := stkWrite s.stk 0 (stackTop s) } { s' with stk := stkWrite s'.stk 0 (stackTop s') } :=
  { h with
    stkRising := rising_stkWrite h.stkRising _ _
    stkRising' := rising_stkWrite h.stkRising' _ _
    stk := fun i _ hi => by
      rw [h.top hlo]
      exact stkRead_stkWrite_congr h.stkRising h.stkRising' _ fun hne => h.stk i (by omega) hi }

theorem decResolve_alike (new : Code) (h : DecAlike 0 True s s') :
    Alike SamePorts (fun t t' => DecAlike 0 True t t' ∧ 0 < t.sp.toNat)
      (decResolve hw new s) (decResolve hw new s') := by
  refine Alike.get ?_
  rw [h.decNext, h.decOld trivial]
  split_ifs
  · exact (walk_alike s.decOld (sp0 := 1) (by decide) h).bind fun _ t t' ⟨ht, hlo⟩ =>
      .ok _ ⟨ht.writeBottom hlo, Nat.zero_lt_of_lt hlo⟩
  · exact walk_alike new (sp0 := 0) (by decide) h

theorem decAssign_alike (first : Byte) (h : DecAlike lo True s s') :
    Alike SamePorts (DecAlike lo True) (decAssign first s) (decAssign first s') := by
  refine Alike.get ?_
  rw [h.decNext, h.decOld trivial]
  split_ifs
  · exact (assign_alike decAlike_table _ _ _ h).bind fun _ _ _ ht =>
      .ok _ { ht with decNext := congrArg (· + 1) ht.decNext }
  · exact .ok _ h

theorem decStep_alike (h : DecAlike 0 True s s') :
    Alike SamePorts (DecAlike 0 True) (decStep hw s) (decStep hw s') := by
  refine (readCode_alike h).bind fun o t t' ht => ?_
  cases o with
  | none => exact .ok _ { ht with phase := fun _ => rfl }
  | some new =>
    refine (decResolve_alike new ht).bind fun _ u u' ⟨hu, hpos⟩ => Alike.get ?_
    rw [hu.top hpos]
    exact (emit_alike DecAlike.ports decAlike_pop hu).bind fun _ _ _ hv =>
      (decAssign_alike _ hv).bind fun _ _ _ hx => .ok _ { hx with decOld := fun _ => rfl }

theorem decodeAll_alike (h : SamePorts s s') (hs : rising s.stk) (hs' : rising s'.stk) :
    Alike SamePorts SamePorts (decodeAll hw s) (decodeAll hw s') :=
  (decStart_alike h hs hs').bind fun _ _ _ ht =>
    loop_after_start (decLoop_isLoop hw) (fun _ _ h => h.phase trivial) (fun _ _ h => h.ports)
      (fun _ _ => decStep_alike) ht

end Decode

theorem samePorts_ports : PortsAlike SamePorts where
  answers h := h.answers
  src h := h.src
  srcPos h := h.srcPos
  snkClosed h := h.snkClosed
  setAnswers _ h := { h with answers := rfl }
  pull h := { h with srcPos := congrArg (· + 1) h.srcPos }
  append b h := { h with snk := congrArg (· ++ [b]) h.snk }

theorem execEncode_samePorts {s s' t : State} (h : SamePorts s s') (he : exec .encode s = .next t) :
    ∃ t', exec .encode s' = .next t' ∧ SamePorts t t' ∧ t'.rsp = t.rsp :=
  runCommand_samePorts h (fun _ _ => id) ((checkOpen_alike id samePorts_ports h).bind fun _ _ _ h =>
    (encodeAll_alike h).bind fun _ _ _ h => .ok _ h) he

theorem execDecode_samePorts {s s' t : State} (h : SamePorts s s') (hs : rising s.stk) (hs' : rising s'.stk)
    (he : exec .decode s = .next t) : ∃ t', exec .decode s' = .next t' ∧ SamePorts t t' ∧ t'.rsp = t.rsp :=
  runCommand_samePorts h (fun _ _ => id) ((decodeAll_alike h hs hs').bind fun _ _ _ h => .ok _ h) he

end Sys2Proof.Machine

/-- Settles O57: both operations clear the registers they read before they read them, and DECODE reads only stack
entries that it has written. -/
theorem operationsIgnoreLeftovers : Obligations.OperationsIgnoreLeftovers := by
  unfold Obligations.OperationsIgnoreLeftovers
  intro i s s' t hi hs hs' hsrc hpos hsnk hclosed hfault hanswers h
  have hp : Sys2Proof.Machine.SamePorts s s' := ⟨hsrc, hpos, hsnk, hclosed, hfault, hanswers⟩
  have hend : ∃ t', Sys2Proof.Machine.exec i s' = .next t' ∧ Sys2Proof.Machine.SamePorts t t' ∧ t'.rsp = t.rsp := by
    rcases hi with rfl | rfl
    · exact Sys2Proof.Machine.execEncode_samePorts hp h
    · exact Sys2Proof.Machine.execDecode_samePorts hp hs.1 hs'.1 h
  obtain ⟨t', ht', hpt, hr⟩ := hend
  exact ⟨t', ht', hpt.snk, hpt.snkClosed, hpt.srcPos, hpt.fault, hr, hpt.answers⟩

namespace Sys2Proof.Machine

variable {α β : Type} {c : Prop} {cfg : Config} {s t u : State}

/-! ## What every operation does to the streams (20_memory R41 to R44) -/

/-- From `s` to `t` the sink only grew, the source was only read, and no further than its end, port answers were only
used up, and the host's actions stayed. The sink was closed only if `c` holds. -/
structure Advances (c : Prop) (s t : State) : Prop where
  snk : s.snk <+: t.snk
  src : t.src = s.src
  srcPos : s.srcPos ≤ t.srcPos
  inside : s.srcPos ≤ s.src.length → t.srcPos ≤ t.src.length
  answers : t.answers <:+ s.answers
  host : t.host = s.host
  closed : t.snkClosed = s.snkClosed ∨ c ∧ t.snkClosed = true

theorem Advances.refl (c : Prop) (s : State) : Advances c s s where
  snk := List.prefix_refl _
  src := rfl
  srcPos := le_rfl
  inside := id
  answers := List.suffix_refl _
  host := rfl
  closed := .inl rfl

theorem Advances.trans (h : Advances c s t) (h' : Advances c t u) : Advances c s u where
  snk := h.snk.trans h'.snk
  src := h'.src.trans h.src
  srcPos := h.srcPos.trans h'.srcPos
  inside := h'.inside ∘ h.inside
  answers := h'.answers.trans h.answers
  host := h'.host.trans h.host
  closed := by
    rcases h'.closed with hu | hu
    · rw [hu]
      exact h.closed
    · exact .inr hu

theorem Advances.of_answers {rest : List PortAnswer} (h : rest <:+ s.answers) :
    Advances c s { s with answers := rest } :=
  { Advances.refl c s with answers := h }

/-- A byte of the source that is there is consumed. -/
theorem Advances.of_pull {rest : List PortAnswer} (h : rest <:+ s.answers) (hp : s.srcPos < s.src.length) :
    Advances c s { s with answers := rest, srcPos := s.srcPos + 1 } :=
  { Advances.of_answers (c := c) h with srcPos := Nat.le_succ _, inside := fun _ => hp }

theorem WriterStep.advances (h : WriterStep s t) : Advances c s t := by
  obtain ⟨ht, hsnk, hans⟩ := h
  rw [ht]
  exact { Advances.refl c s with snk := hsnk, answers := hans }

theorem WalkStep.advances (h : WalkStep s t) : Advances c s t := by
  unfold WalkStep at h
  rw [h]
  exact { Advances.refl c s with }

theorem EmitStep.advances (h : EmitStep s t) : Advances c s t := by
  obtain ⟨ht, hsnk, hans⟩ := h
  rw [ht]
  exact { Advances.refl c s with snk := hsnk, answers := hans }

/-! ### Operations that advance the streams -/

/-- However `x` ends, in whatever state it starts, it only advances the streams. -/
def Advancing (c : Prop) (x : Op α) : Prop :=
  ∀ s, Runs x s (fun _ t => Advances c s t) (fun _ t => Advances c s t)

theorem Advancing.pure (a : α) : Advancing c (pure a : Op α) := .refl c

theorem Advancing.get : Advancing c (get : Op State) := .refl c

theorem Advancing.raise (f : FaultCode) : Advancing c (raise f : Op α) := .refl c

/-- A write to a register, which is none of the streams, unless something else is shown of it. -/
theorem Advancing.modify {f : State → State}
    (h : ∀ s, Advances c s (f s) := by exact fun s => { Advances.refl c s with }) :
    Advancing c (modify f : Op PUnit) := h

/-- The rule of sequence. -/
theorem Advancing.bind {x : Op α} {f : α → Op β} (hx : Advancing c x) (hf : ∀ a, Advancing c (f a)) :
    Advancing c (x >>= f) := fun s =>
  (runs_bind _ _).2 ((hx s).mono (fun a t ht => (hf a t).mono (fun _ _ => ht.trans) fun _ _ => ht.trans) fun _ _ h => h)

/-- An operation that changes nothing, however it ends. -/
theorem Advancing.of_unchanged {x : Op α} (h : ∀ s, Runs x s (fun _ t => t = s) (fun _ t => t = s)) :
    Advancing c x := fun s =>
  (h s).mono (fun _ _ ht => ht ▸ .refl c s) fun _ _ ht => ht ▸ .refl c s

/-- The loop of an operation whose steps advance the streams. -/
theorem Advancing.loop {step : Op Unit} {loop : Nat → Op Unit} (hl : IsLoop step loop) (hs : Advancing c step)
    (n : Nat) : Advancing c (loop n) := by
  induction n with
  | zero =>
    intro s
    unfold Runs
    rw [hl.zero]
    exact .refl c s
  | succ n ih =>
    intro s
    unfold Runs
    rw [hl.succ]
    split_ifs
    · exact (hs.bind fun _ => ih) s
    · exact .refl c s

/-! ### The byte ports and the bit units -/

theorem srcRead_advancing : Advancing c srcRead := fun s => by
  refine (srcRead_runs s).mono ?_ ?_
  · rintro _ _ ⟨rest, hs, ⟨-, -, rfl⟩ | ⟨b, -, hb, rfl⟩⟩
    · exact .of_answers hs
    · exact .of_pull hs (List.getElem?_eq_some_iff.1 hb).1
  · rintro _ _ ⟨rest, hs, rfl, -⟩
    exact .of_answers hs

theorem snkWrite_advancing (b : Byte) : Advancing c (snkWrite b) := fun s =>
  (snkWrite_writes b s).mono (fun _ _ h => h.advances) fun _ _ h => h.1.advances

theorem fillRack_advancing : Advancing c fillRack := by
  refine Advancing.bind .get fun s => ?_
  split_ifs
  · refine srcRead_advancing.bind fun o => ?_
    cases o with
    | none => exact .pure _
    | some b => exact .bind .modify fun _ => .pure _
  · exact .pure _

theorem takeBit_advancing : Advancing c takeBit := fun s => { Advances.refl c s with }

theorem readBit_advancing : Advancing c readBit := by
  refine fillRack_advancing.bind fun ready => ?_
  split_ifs
  · exact takeBit_advancing.bind fun _ => .pure _
  · exact .pure _

theorem readBitsFrom_advancing (n v : Nat) : Advancing c (readBitsFrom n v) := by
  induction n generalizing v with
  | zero => exact .pure _
  | succ n ih =>
    refine readBit_advancing.bind fun o => ?_
    cases o with
    | none => exact .pure _
    | some b => exact ih _

theorem writeBit_advancing (b : Bool) : Advancing c (writeBit b) := fun s =>
  (writeBit_runs b s).mono (fun _ _ h => h.advances) fun _ _ h => h.1.advances

theorem writeBits_advancing {w : Nat} (v : BitVec w) (n : Nat) : Advancing c (writeBits v n) := fun s =>
  (writeBits_runs v n s).mono (fun _ _ h => h.advances) fun _ _ h => h.1.advances

/-- `Close` is the one operation that closes the sink (20_memory R44). -/
theorem closeWriter_advancing (hc : c) : Advancing c closeWriter := fun s => by
  refine (closeWriter_runs s).mono ?_ fun _ _ h => h.1.advances
  rintro _ _ ⟨u, hu, rfl⟩
  exact { hu.advances (c := c) with closed := .inr ⟨hc, rfl⟩ }

/-! ### The tables and the stack -/

theorem probe_advancing (p : Code) (ch : Byte) : Advancing c (probe cfg p ch) := .of_unchanged fun s => by
  unfold Runs
  rw [probe_run]
  split_ifs <;> rfl

theorem dictClear_advancing : Advancing c dictClear := .modify

theorem reserve_advancing (slot : Nat) (code p : Code) (ch : Byte) : Advancing c (reserve slot code p ch) := .modify

theorem tableClear_advancing : Advancing c tableClear := .modify

theorem assign_advancing (code : Nat) (p : Code) (ch : Byte) : Advancing c (assign code p ch) := .modify

theorem walk_advancing (k : Code) (sp0 : BitVec 13) : Advancing c (walk cfg k sp0) :=
  .bind .modify fun _ s =>
    (walkFrom_runs cfg _ k s).mono (fun _ _ h => h.advances) fun _ _ h => h.1.advances

theorem emit_advancing : Advancing c emit :=
  .bind .get fun s₀ => .bind
    (fun s => (emitFrom_runs s₀.sp.toNat s).mono (fun _ _ h => h.advances) fun _ _ h => h.1.advances) fun _ => .pure _

/-! ### Acceptance checks -/

theorem checkWidth_advancing (n : BitVec 6) : Advancing c (checkWidth cfg n) := .of_unchanged (checkWidth_runs cfg n)

theorem checkOpen_advancing : Advancing c checkOpen := .of_unchanged checkOpen_runs

theorem checkReserve_advancing (slot : SlotIndex) (code : Code) : Advancing c (checkReserve cfg slot code) :=
  .of_unchanged fun s => (checkReserve_runs cfg slot code s).mono (fun _ _ h => h.1) fun _ _ h => h

theorem checkAssign_advancing (code : Code) : Advancing c (checkAssign code) :=
  .of_unchanged fun s => (checkAssign_runs code s).mono (fun _ _ h => h.1) fun _ _ h => h

/-! ### ENCODE -/

theorem encFinish_advancing (hc : c) : Advancing c encFinish :=
  (writeBits_advancing _ _).bind fun _ => (closeWriter_advancing hc).bind fun _ => .modify

theorem encStart_advancing (hc : c) : Advancing c encStart := by
  refine .bind .modify fun _ => dictClear_advancing.bind fun _ => .bind .modify fun _ => .bind .modify fun _ =>
    srcRead_advancing.bind fun o => ?_
  cases o with
  | none => exact encFinish_advancing hc
  | some r => exact .modify

theorem encMiss_advancing (slot : Nat) (b : Byte) : Advancing c (encMiss slot b) := by
  refine Advancing.bind .get fun s => (writeBits_advancing _ _).bind fun _ => ?_
  have hcur : Advancing c (modify fun s => { s with encCur := b.setWidth 12 } : Op PUnit) := .modify
  split_ifs
  · exact (reserve_advancing _ _ _ _).bind fun _ => .bind .modify fun _ => hcur
  · exact hcur

theorem encStep_advancing (hc : c) : Advancing c (encStep cfg) := by
  refine srcRead_advancing.bind fun o => ?_
  cases o with
  | none => exact .bind .get fun s => (writeBits_advancing _ _).bind fun _ => encFinish_advancing hc
  | some b =>
    refine Advancing.bind .get fun s => (probe_advancing _ _).bind fun found => ?_
    cases found with
    | hit _ e => exact .modify
    | miss slot => exact encMiss_advancing slot b
    | exhausted => exact .raise _

theorem encodeAll_advancing (hc : c) : Advancing c (encodeAll cfg) :=
  (encStart_advancing hc).bind fun _ => .bind .get fun _ => .loop (encLoop_isLoop cfg) (encStep_advancing hc) _

/-! ### DECODE -/

theorem readCode_advancing : Advancing c readCode := by
  refine (readBitsFrom_advancing codeBits 0).bind fun o => ?_
  cases o with
  | none => exact .pure _
  | some v =>
    simp only
    split_ifs <;> exact .pure _

theorem decStart_advancing : Advancing c decStart := by
  refine .bind .modify fun _ => tableClear_advancing.bind fun _ =>
    .bind .modify fun _ => .bind .modify fun _ => .bind .modify fun _ => readCode_advancing.bind fun o => ?_
  cases o with
  | none => exact .modify
  | some r => exact (snkWrite_advancing _).bind fun _ => .modify

theorem decResolve_advancing (new : Code) : Advancing c (decResolve cfg new) := by
  refine Advancing.bind .get fun s => ?_
  split_ifs
  · exact (walk_advancing _ _).bind fun _ => .modify
  · exact walk_advancing _ _

theorem decAssign_advancing (first : Byte) : Advancing c (decAssign first) := by
  refine Advancing.bind .get fun s => ?_
  split_ifs
  · exact (assign_advancing _ _ _).bind fun _ => .modify
  · exact .pure _

theorem decStep_advancing : Advancing c (decStep cfg) := by
  refine readCode_advancing.bind fun o => ?_
  cases o with
  | none => exact .modify
  | some new =>
    exact (decResolve_advancing new).bind fun _ => .bind .get fun s => emit_advancing.bind fun _ =>
      (decAssign_advancing _).bind fun _ => .modify

theorem decodeAll_advancing : Advancing c (decodeAll cfg) :=
  decStart_advancing.bind fun _ => .bind .get fun _ => .loop (decLoop_isLoop cfg) decStep_advancing _

/-! ### Every command -/

/-- A command whose body advances the streams, whether it is refused, answered or ended by a fault. -/
theorem runCommand_advances {body : Op Word} (h : runCommand body s = .next t) (hb : Advancing c body) :
    Advances c s t :=
  runCommand_keeps (P := Advances c s) h (fun _ _ => { Advances.refl c s with }) fun _ =>
    (hb s).mono (fun _ _ hu => { hu with }) fun _ _ hu _ _ => { hu with }

/-- The commands that close the sink (20_memory R44, 41_bitwriter R93, 44_encoder R120). -/
def Closes (i : Instr) : Prop := i = .wrclose ∨ i = .encode

theorem exec_advances {i : Instr} (h : exec i s = .next t) : Advances (Closes i) s t := by
  cases i with
  | rdbit =>
    refine runCommand_advances h (readBit_advancing.bind fun o => ?_)
    cases o <;> exact .pure _
  | rdbits n =>
    refine runCommand_advances h ((checkWidth_advancing n).bind fun _ => (readBitsFrom_advancing _ 0).bind fun o => ?_)
    cases o <;> exact .pure _
  | wrbit bit =>
    exact runCommand_advances h (checkOpen_advancing.bind fun _ => (writeBit_advancing bit).bind fun _ => .pure _)
  | wrbits n value =>
    exact runCommand_advances h ((checkWidth_advancing n).bind fun _ => checkOpen_advancing.bind fun _ =>
      (writeBits_advancing value _).bind fun _ => .pure _)
  | wrclose =>
    exact runCommand_advances h (checkOpen_advancing.bind fun _ => (closeWriter_advancing (.inl rfl)).bind fun _ =>
      .pure _)
  | dclr => exact runCommand_advances (body := do dictClear; pure okPlain) h (dictClear_advancing.bind fun _ => .pure _)
  | dprobe parent ch => exact runCommand_advances h ((probe_advancing parent ch).bind fun _ => .pure _)
  | drsrv slot code parent ch =>
    exact runCommand_advances h ((checkReserve_advancing slot code).bind fun _ =>
      (reserve_advancing _ code parent ch).bind fun _ => .pure _)
  | tclr =>
    exact runCommand_advances (body := do tableClear; pure okPlain) h (tableClear_advancing.bind fun _ => .pure _)
  | tassign code parent ch =>
    exact runCommand_advances h ((checkAssign_advancing code).bind fun _ =>
      (assign_advancing _ parent ch).bind fun _ => .pure _)
  | twalk code =>
    exact runCommand_advances h ((walk_advancing code 0).bind fun _ => .bind .get fun _ => .pure _)
  | temit => exact runCommand_advances h (emit_advancing.bind fun _ => .pure _)
  | encode =>
    exact runCommand_advances h (checkOpen_advancing.bind fun _ => (encodeAll_advancing (.inr rfl)).bind fun _ =>
      .pure _)
  | decode => exact runCommand_advances h (decodeAll_advancing.bind fun _ => .pure _)

end Sys2Proof.Machine

/-- Settles O59: every operation a command is made of only advances the streams. -/
theorem streamsOnlyAdvance : Obligations.StreamsOnlyAdvance := by
  unfold Obligations.StreamsOnlyAdvance
  intro i s t h
  obtain ⟨hsnk, hsrc, hpos, hinside, hans, hhost, -⟩ := Sys2Proof.Machine.exec_advances h
  exact ⟨hsnk, hsrc, hpos, hinside, hans, hhost⟩

/-- Settles O58: of all operations only `Close` changes `snk_closed`, and only WRCLOSE and ENCODE run it. -/
theorem onlyCloseClosesSink : Obligations.OnlyCloseClosesSink := by
  unfold Obligations.OnlyCloseClosesSink
  intro i s t h hne
  exact (Sys2Proof.Machine.exec_advances h).closed.resolve_left hne

namespace Sys2Proof.Machine

variable {s t : State}

/-! ## The end of the source (20_memory R42) -/

/-- The BitReader has no bit left to deliver: the rack is empty and the source is at its end. -/
def AtEof (s : State) : Prop := s.rdCnt = 0 ∧ s.src[s.srcPos]? = none

/-- When `ReadBit` answers EOF there is no bit left (40_bitreader R81). -/
theorem atEof_of_readBit_none (h : readBit s = .ok none t) : AtEof t := by
  have hn : Runs readBit s (fun o t => o = none → AtEof t) (fun _ _ => True) := by
    by_cases hc : s.rdCnt = 0
    · unfold readBit
      rw [runs_bind]
      unfold Runs
      rw [fillRack_empty hc]
      refine (runs_bind _ _).2 ((srcRead_runs s).mono ?_ fun _ _ _ => trivial)
      rintro _ _ ⟨rest, -, ⟨rfl, hb, rfl⟩ | ⟨b, rfl, -, rfl⟩⟩
      · exact fun _ => ⟨hc, hb⟩
      · exact fun hb => nomatch hb
    · unfold Runs
      rw [readBit_ready hc]
      exact fun hb => nomatch hb
  exact hn.of_ok h rfl

/-- With no bit left `ReadBits` of at least one bit answers EOF and changes nothing (40_bitreader R82). -/
theorem readBits_eof (hs : Served s) (he : AtEof s) {n : Nat} (hn : 1 ≤ n) :
    readBits n s = .ok none { s with answers := s.answers.tail } := by
  obtain ⟨k, rfl⟩ : ∃ k, n = k + 1 := ⟨n - 1, by omega⟩
  unfold readBits
  rw [readBitsFrom_succ, readBit_eof hs he.1 he.2]

theorem faultWord_ne_eofWord (f : FaultCode) : faultWord f ≠ eofWord := by
  cases f <;> decide

theorem okData_bit_ne_eofWord (b : Bool) : okData (BitVec.ofNat 32 b.toNat) ≠ eofWord := by
  cases b <;> decide

/-- RDBIT answers EOF only without a fault and with no bit left. -/
theorem execRdbit_eof (h : exec .rdbit s = .next t) (hr : t.rsp = some eofWord) : t.fault = none ∧ AtEof t := by
  rcases runCommand_next h with ⟨f, -, rfl⟩ | ⟨hf, w, u, hb, rfl⟩ | ⟨-, f, u, -, rfl⟩
  · exact absurd (Option.some.inj hr) (faultWord_ne_eofWord f)
  · obtain ⟨o, u', hread, hw⟩ := op_bind_eq_ok.1 hb
    cases o with
    | none =>
      cases hw
      have hstep : ReaderStep s u := (readBit_runs s).of_ok hread
      have hfault : u.fault = s.fault := by rw [hstep.1]
      have hend : AtEof u := atEof_of_readBit_none hread
      exact ⟨hfault.trans hf, hend⟩
    | some b =>
      cases hw
      exact absurd (Option.some.inj hr) (okData_bit_ne_eofWord b)
  · exact absurd (Option.some.inj hr) (faultWord_ne_eofWord _)

/-- A command that answers EOF, as the last one did, and uses up an answer changes nothing else. -/
theorem runCommand_eof_again {body : Op Word} (hf : t.fault = none) (hr : t.rsp = some eofWord)
    (hb : body t = .ok eofWord { t with answers := t.answers.tail }) :
    runCommand body t = .next { t with answers := t.answers.tail } := by
  rw [runCommand_ok hf hb, ← hr]

theorem execRdbit_at_eof (hf : t.fault = none) (hr : t.rsp = some eofWord) (hs : Served t) (he : AtEof t) :
    exec .rdbit t = .next { t with answers := t.answers.tail } :=
  runCommand_eof_again hf hr (op_bind_of_ok (readBit_eof hs he.1 he.2) _)

theorem execRdbits_at_eof {n : BitVec 6} (hl : legalWidth hw n = true) (hf : t.fault = none)
    (hr : t.rsp = some eofWord) (hs : Served t) (he : AtEof t) :
    exec (.rdbits n) t = .next { t with answers := t.answers.tail } := by
  have hn : 1 ≤ n.toNat := ((legalWidth_iff n).1 hl).1
  exact runCommand_eof_again hf hr
    ((op_bind_of_ok (checkWidth_legal hl t) _).trans (op_bind_of_ok (readBits_eof hs he hn) _))

end Sys2Proof.Machine

/-- Settles O21: RDBIT answers EOF only when no bit is left, and EOF leaves it so. -/
theorem eofIsSticky : Obligations.EofIsSticky := by
  unfold Obligations.EofIsSticky
  intro s t n h hr hs hl
  obtain ⟨hf, he⟩ := Sys2Proof.Machine.execRdbit_eof h hr
  exact ⟨Sys2Proof.Machine.execRdbit_at_eof hf hr hs he, Sys2Proof.Machine.execRdbits_at_eof hl hf hr hs he⟩

/-- Settles O9. -/
theorem bindReplacesStreams : Obligations.BindReplacesStreams := by
  unfold Obligations.BindReplacesStreams
  intro s bytes rest h
  unfold Sys2Proof.Machine.step
  rw [h]
  rfl

namespace Sys2Proof

/-! ## Words as rows of fields (30_encoding R65) -/

/-- Words put together of fields of the same widths are equal exactly when their fields are. -/
theorem append_inj {v w : Nat} {a c : BitVec v} {b d : BitVec w} : a ++ b = c ++ d ↔ a = c ∧ b = d := by
  refine ⟨fun h => ⟨?_, ?_⟩, fun ⟨ha, hb⟩ => by rw [ha, hb]⟩
  · simpa only [BitVec.extractLsb'_append_eq_left] using congrArg (BitVec.extractLsb' w v) h
  · simpa only [BitVec.extractLsb'_append_eq_right] using congrArg (BitVec.extractLsb' 0 w) h

/-- A word of the format of the bit commands with its must-be-zero field `zeros` written out. -/
def bitFormat (op : BitVec 4) (n : BitVec 6) (zeros : BitVec 22) (value : BitVec 32) : BitVec (4 + 6 + 22 + 32) :=
  op ++ n ++ zeros ++ value

/-- A word of the format of the table commands with its must-be-zero field `zeros` written out. -/
def tableFormat (op : BitVec 4) (zeros : BitVec 15) (slot : SlotIndex) (code parent : Code) (ch : Byte) :
    BitVec (4 + 15 + 13 + 12 + 12 + 8) :=
  op ++ zeros ++ slot ++ code ++ parent ++ ch

/-- Every word in the format of the bit commands. -/
theorem bitFormat_fields (w : Word) :
    bitFormat (opField w) (nField w) (w.extractLsb' 32 22) (valueField w) = w := by
  unfold bitFormat opField nField valueField
  simp only [BitVec.extractLsb'_append_extractLsb'_eq_extractLsb']
  exact BitVec.extractLsb'_eq_self

/-- Every word in the format of the table commands. -/
theorem tableFormat_fields (w : Word) :
    tableFormat (opField w) (w.extractLsb' 45 15) (slotField w) (codeField w) (parentField w) (chField w) = w := by
  unfold tableFormat opField slotField codeField parentField chField
  simp only [BitVec.extractLsb'_append_extractLsb'_eq_extractLsb']
  exact BitVec.extractLsb'_eq_self

theorem bitFields_eq_iff {op : BitVec 4} {n : BitVec 6} {value : BitVec 32} {w : Word} :
    bitFields op n value = w ↔
      opField w = op ∧ nField w = n ∧ w.extractLsb' 32 22 = 0 ∧ valueField w = value := by
  have h : bitFormat (opField w) (nField w) (w.extractLsb' 32 22) (valueField w) = bitFormat op n 0 value ↔
      opField w = op ∧ nField w = n ∧ w.extractLsb' 32 22 = 0 ∧ valueField w = value := by
    simp only [bitFormat, append_inj, and_assoc]
  rw [bitFormat_fields] at h
  exact eq_comm.trans h

theorem tableFields_eq_iff {op : BitVec 4} {slot : SlotIndex} {code parent : Code} {ch : Byte} {w : Word} :
    tableFields op slot code parent ch = w ↔ opField w = op ∧ w.extractLsb' 45 15 = 0 ∧ slotField w = slot ∧
      codeField w = code ∧ parentField w = parent ∧ chField w = ch := by
  have h : tableFormat (opField w) (w.extractLsb' 45 15) (slotField w) (codeField w) (parentField w) (chField w) =
      tableFormat op 0 slot code parent ch ↔ opField w = op ∧ w.extractLsb' 45 15 = 0 ∧ slotField w = slot ∧
        codeField w = code ∧ parentField w = parent ∧ chField w = ch := by
    simp only [tableFormat, append_inj, and_assoc]
  rw [tableFormat_fields] at h
  exact eq_comm.trans h

/-! ## The rows of the opcode map (30_encoding R66, R67) -/

/-- Match and mask of a bit command's row: `n` and `value` are the must-be-zero bits of these two fields. -/
def bitRow (op : BitVec 4) (n : BitVec 6) (value : BitVec 32) : Word × Word :=
  (bitFormat op 0 0 0, bitFormat (.allOnes 4) n (.allOnes 22) value)

/-- Match and mask of a table command's row: the fields are their must-be-zero bits. -/
def tableRow (op : BitVec 4) (slot : SlotIndex) (code parent : Code) (ch : Byte) : Word × Word :=
  (tableFormat op 0 0 0 0 0, tableFormat (.allOnes 4) (.allOnes 15) slot code parent ch)

theorem matches_bitRow {op : BitVec 4} {n : BitVec 6} {value : BitVec 32} {w : Word} :
    w &&& (bitRow op n value).2 = (bitRow op n value).1 ↔
      opField w = op ∧ nField w &&& n = 0 ∧ w.extractLsb' 32 22 = 0 ∧ valueField w &&& value = 0 := by
  have h : bitFormat (opField w) (nField w) (w.extractLsb' 32 22) (valueField w) &&&
      bitFormat (.allOnes 4) n (.allOnes 22) value = bitFormat op 0 0 0 ↔
      opField w = op ∧ nField w &&& n = 0 ∧ w.extractLsb' 32 22 = 0 ∧ valueField w &&& value = 0 := by
    simp only [bitFormat, BitVec.and_append, append_inj, and_assoc, BitVec.and_allOnes]
  rwa [bitFormat_fields] at h

theorem matches_tableRow {op : BitVec 4} {slot : SlotIndex} {code parent : Code} {ch : Byte} {w : Word} :
    w &&& (tableRow op slot code parent ch).2 = (tableRow op slot code parent ch).1 ↔
      opField w = op ∧ w.extractLsb' 45 15 = 0 ∧ slotField w &&& slot = 0 ∧ codeField w &&& code = 0 ∧
        parentField w &&& parent = 0 ∧ chField w &&& ch = 0 := by
  have h : tableFormat (opField w) (w.extractLsb' 45 15) (slotField w) (codeField w) (parentField w) (chField w) &&&
      tableFormat (.allOnes 4) (.allOnes 15) slot code parent ch = tableFormat op 0 0 0 0 0 ↔
      opField w = op ∧ w.extractLsb' 45 15 = 0 ∧ slotField w &&& slot = 0 ∧ codeField w &&& code = 0 ∧
        parentField w &&& parent = 0 ∧ chField w &&& ch = 0 := by
    simp only [tableFormat, BitVec.and_append, append_inj, and_assoc, BitVec.and_allOnes]
  rwa [tableFormat_fields] at h

/-- The row of a command: its mask leaves the used fields of R66 out. -/
def rowOf : Instr → Word × Word
  | .rdbit => bitRow 0x1 (.allOnes 6) (.allOnes 32)
  | .rdbits _ => bitRow 0x2 0 (.allOnes 32)
  | .wrbit _ => bitRow 0x3 (.allOnes 6) (~~~1)
  | .wrbits _ _ => bitRow 0x4 0 0
  | .wrclose => bitRow 0x5 (.allOnes 6) (.allOnes 32)
  | .dclr => bitRow 0x6 (.allOnes 6) (.allOnes 32)
  | .dprobe _ _ => tableRow 0x7 (.allOnes 13) (.allOnes 12) 0 0
  | .drsrv _ _ _ _ => tableRow 0x8 0 0 0 0
  | .tclr => bitRow 0x9 (.allOnes 6) (.allOnes 32)
  | .tassign _ _ _ => tableRow 0xA (.allOnes 13) 0 0 0
  | .twalk _ => tableRow 0xB (.allOnes 13) 0 (.allOnes 12) (.allOnes 8)
  | .temit => bitRow 0xC (.allOnes 6) (.allOnes 32)
  | .encode => bitRow 0xD (.allOnes 6) (.allOnes 32)
  | .decode => bitRow 0xE (.allOnes 6) (.allOnes 32)

/-- The command of the same row whose operands are the fields of `w` (R66). -/
def withOperands (w : Word) : Instr → Instr
  | .rdbits _ => .rdbits (nField w)
  | .wrbit _ => .wrbit (bitField w)
  | .wrbits _ _ => .wrbits (nField w) (valueField w)
  | .dprobe _ _ => .dprobe (parentField w) (chField w)
  | .drsrv _ _ _ _ => .drsrv (slotField w) (codeField w) (parentField w) (chField w)
  | .tassign _ _ _ => .tassign (codeField w) (parentField w) (chField w)
  | .twalk _ => .twalk (codeField w)
  | i => i

theorem bitField_eq (w : Word) : bitField w = (valueField w).getLsbD 0 := by
  simp [bitField, valueField]

/-- A value with no bit but bit 0 is that bit. -/
theorem eq_setWidth_ofBool_iff (v : BitVec 32) (b : Bool) :
    v = BitVec.setWidth 32 (BitVec.ofBool b) ↔ v &&& ~~~1 = 0 ∧ v.getLsbD 0 = b := by
  have hlow : v &&& 1 = BitVec.setWidth 32 (BitVec.ofBool (v.getLsbD 0)) :=
    BitVec.and_one_eq_setWidth_ofBool_getLsbD
  constructor
  · rintro rfl
    cases b <;> decide
  · rintro ⟨hz, rfl⟩
    calc v = v &&& 1 ||| v &&& ~~~1 := by
          rw [← BitVec.and_or_distrib_left, BitVec.or_not_self, BitVec.and_allOnes]
      _ = BitVec.setWidth 32 (BitVec.ofBool (v.getLsbD 0)) := by rw [hz, hlow]; exact BitVec.or_zero

/-- The encoder's word of a command is the word that matches its row and carries its operands. -/
theorem encode_eq_iff {i : Instr} {w : Word} :
    encode i = w ↔ w &&& (rowOf i).2 = (rowOf i).1 ∧ withOperands w i = i := by
  cases i
  case wrbit b =>
    simp only [encode, rowOf, withOperands, bitFields_eq_iff, matches_bitRow, Instr.wrbit.injEq, bitField_eq,
      eq_setWidth_ofBool_iff, BitVec.and_allOnes, and_assoc]
  all_goals
    simp [-BitVec.reduceAllOnes, encode, rowOf, withOperands, bitFields_eq_iff, tableFields_eq_iff, matches_bitRow,
      matches_tableRow, and_assoc, and_comm, and_left_comm]

/-- One command of each row, in the order of the table. -/
def rowCommands : List Instr :=
  [.rdbit, .rdbits 0, .wrbit false, .wrbits 0 0, .wrclose, .dclr, .dprobe 0 0, .drsrv 0 0 0 0, .tclr, .tassign 0 0 0,
    .twalk 0, .temit, .encode, .decode]

/-- The fourteen rows of the table are the rows of the commands. -/
theorem opcodeRows_eq : Machine.opcodeRows = rowCommands.map rowOf := by decide

/-- The row of every command, whatever its operands, is one of the fourteen. -/
theorem rowOf_mem_opcodeRows (i : Instr) : rowOf i ∈ Machine.opcodeRows := by
  rw [opcodeRows_eq]
  have h : ∃ j ∈ rowCommands, rowOf j = rowOf i := by
    cases i <;> simp [rowCommands, rowOf]
  exact List.mem_map.2 h

/-- Every row of the table is the row of a command. -/
theorem exists_rowOf {r : Word × Word} (h : r ∈ Machine.opcodeRows) : ∃ i ∈ rowCommands, rowOf i = r := by
  rw [opcodeRows_eq] at h
  exact List.mem_map.1 h

/-- Commands of different rows differ in `op`. -/
theorem eq_of_opOf_eq {i j : Instr} (hi : i ∈ rowCommands) (hj : j ∈ rowCommands)
    (h : Laws.OpField.opOf i = Laws.OpField.opOf j) : i = j := by
  have hnodup : (rowCommands.map Laws.OpField.opOf).Nodup := by decide
  exact List.inj_on_of_nodup_map hnodup hi hj h

theorem matchRow_eq_ok {w pattern mask : Word} {i j : Instr} :
    matchRow w pattern mask i = .ok j ↔ w &&& mask = pattern ∧ i = j := by
  unfold matchRow
  split_ifs with h <;> simp [h]

/-- A word that matches a row has its `op`. -/
theorem opField_of_matches {w : Word} {i : Instr} (h : w &&& (rowOf i).2 = (rowOf i).1) :
    opField w = Laws.OpField.opOf i := by
  cases i <;> (simp only [rowOf, matches_bitRow, matches_tableRow] at h; exact h.1)

/-- A word that matches a row decodes to that row's command with the word's operands. -/
theorem decode_of_matches {w : Word} {i : Instr} (h : w &&& (rowOf i).2 = (rowOf i).1) :
    decode w = .ok (withOperands w i) := by
  have hrow : decode w = matchRow w (rowOf i).1 (rowOf i).2 (withOperands w i) := by
    unfold decode
    rw [opField_of_matches h]
    cases i <;> (simp only [rowOf]; rfl)
  exact hrow.trans (matchRow_eq_ok.2 ⟨h, rfl⟩)

/-- A word that decodes matches the row of its command, whose operands are the word's. -/
theorem matches_of_decode {w : Word} {i : Instr} (h : decode w = .ok i) :
    w &&& (rowOf i).2 = (rowOf i).1 ∧ withOperands w i = i := by
  unfold decode at h
  split at h
  case h_15 => cases h
  all_goals
    obtain ⟨hm, rfl⟩ := matchRow_eq_ok.1 h
    exact ⟨hm, rfl⟩

end Sys2Proof

/-- Settles O1: the encoder's word matches its command's row, and its fields are the operands. -/
theorem decodeOfEncode : Obligations.DecodeOfEncode := by
  unfold Obligations.DecodeOfEncode
  intro i
  obtain ⟨hm, ho⟩ := Sys2Proof.encode_eq_iff.1 (rfl : Sys2Proof.encode i = _)
  rw [Sys2Proof.decode_of_matches hm, ho]

/-- Settles O2: a decoded word matches its command's row and carries its operands, which fix all its bits. -/
theorem encodeOfDecode : Obligations.EncodeOfDecode := by
  unfold Obligations.EncodeOfDecode
  intro w i h
  exact Sys2Proof.encode_eq_iff.2 (Sys2Proof.matches_of_decode h)

/-- Settles O3: both sides say that the word matches the row of some command; rows that share a word share `op`. -/
theorem opcodeMapClassifies : Obligations.OpcodeMapClassifies := by
  unfold Obligations.OpcodeMapClassifies
  refine ⟨fun w => ⟨?_, ?_⟩, ?_⟩
  · rintro ⟨i, h⟩
    exact ⟨_, Sys2Proof.rowOf_mem_opcodeRows i, (Sys2Proof.matches_of_decode h).1⟩
  · rintro ⟨r, hr, hm⟩
    obtain ⟨i, -, rfl⟩ := Sys2Proof.exists_rowOf hr
    exact ⟨_, Sys2Proof.decode_of_matches hm⟩
  · intro w r r' hr hr' h h'
    obtain ⟨i, hi, rfl⟩ := Sys2Proof.exists_rowOf hr
    obtain ⟨j, hj, rfl⟩ := Sys2Proof.exists_rowOf hr'
    have hop := (Sys2Proof.opField_of_matches h).symm.trans (Sys2Proof.opField_of_matches h')
    rw [Sys2Proof.eq_of_opOf_eq hi hj hop]

/-- Settles O4, by evaluating the decoder on the ten words. -/
theorem writtenWordsDecode : Obligations.WrittenWordsDecode := by
  unfold Obligations.WrittenWordsDecode
  decide

namespace Sys2Proof.Machine

/-- Every word in the format of the response. -/
theorem response_fields (w : Word) :
    rspStatus w ++ rspFcode w ++ w.extractLsb' 46 10 ++ BitVec.ofBool (rspFound w) ++ rspIdx w ++ rspData w = w := by
  have hfound : BitVec.ofBool (rspFound w) = w.extractLsb' 45 1 := by
    unfold rspFound
    ext j hj
    obtain rfl : j = 0 := by omega
    simp
  unfold rspStatus rspFcode rspIdx rspData
  simp only [hfound, BitVec.extractLsb'_append_extractLsb'_eq_extractLsb']
  exact BitVec.extractLsb'_eq_self

/-- The fields of a response word are the values it is put together of. -/
theorem fields_responseWord {status fcode : BitVec 4} {found : Bool} {idx : BitVec 13} {data : BitVec 32} {w : Word}
    (h : responseWord status fcode found idx data = w) : rspStatus w = status ∧ rspFcode w = fcode ∧
      w.extractLsb' 46 10 = 0 ∧ rspFound w = found ∧ rspIdx w = idx ∧ rspData w = data := by
  have hw : rspStatus w ++ rspFcode w ++ w.extractLsb' 46 10 ++ BitVec.ofBool (rspFound w) ++ rspIdx w ++ rspData w =
      status ++ fcode ++ 0#10 ++ BitVec.ofBool found ++ idx ++ data := (response_fields w).trans h.symm
  simp only [append_inj, BitVec.ofBool_eq_iff_eq, and_assoc] at hw
  exact hw

end Sys2Proof.Machine

/-- Settles O5. -/
theorem responseFields : Obligations.ResponseFields := by
  unfold Obligations.ResponseFields
  exact ⟨fun _ _ _ _ _ => Sys2Proof.Machine.fields_responseWord rfl, rfl⟩

/-- Settles O6. -/
theorem stepRunsDecodedCommand : Obligations.StepRunsDecodedCommand := by
  unfold Obligations.StepRunsDecodedCommand
  intro s w rest i hhost hdecode
  unfold Sys2Proof.Machine.step
  rw [hhost]
  simp only [hdecode]

namespace Sys2Proof.Machine

variable {s : State} {w : Nat}

/-! ## Eight bits into an empty rack are a byte of the sink (41_bitwriter R91, R92) -/

theorem setRackBit_self (rack : Byte) {i : Nat} (hi : i < 8) (b : Bool) : (setRackBit rack i b).getLsbD i = b := by
  have hm : (1#8 <<< i).getLsbD i = true := by simp [hi]
  unfold setRackBit
  generalize 1#8 <<< i = mask at hm ⊢
  cases b <;> simp [hm]

/-- With `j` bits of `v` at the top of the rack, the next bit of `v` goes below them. -/
theorem setRackBit_next (v : BitVec w) (n : Nat) {j : Nat} (hj : j < 8) :
    setRackBit (v.extractLsb' (n + 1) 8 <<< (8 - j)) (7 - j) (v.getLsbD n) = v.extractLsb' n 8 <<< (7 - j) := by
  apply BitVec.eq_of_getLsbD_eq
  intro i hi
  simp only [BitVec.getLsbD_shiftLeft, BitVec.getLsbD_extractLsb']
  by_cases hij : i = 7 - j
  · rw [hij, setRackBit_self _ (by omega)]
    have hle : ¬7 - j < 7 - j ∧ 7 - j < 8 ∧ 7 - j - (7 - j) = 0 := by omega
    simp [hle]
  · rw [setRackBit_other _ hij]
    by_cases hlt : i < 7 - j
    · have hlt' : i < 8 - j := by omega
      simp [hlt, hlt']
    · obtain ⟨k, rfl⟩ : ∃ k, i = 8 - j + k := ⟨i - (8 - j), by omega⟩
      have hk : 8 - j + k - (7 - j) = k + 1 := by omega
      have hle : ¬8 - j + k < 7 - j ∧ ¬8 - j + k < 8 - j ∧ k < 8 ∧ k + 1 < 8 := by omega
      simp [hle, hk, Nat.add_right_comm, Nat.add_assoc]

theorem writeBits_of_ok {v : BitVec w} {n : Nat} {t : State} (h : writeBit (v.getLsbD n) s = .ok () t) :
    writeBits v (n + 1) s = writeBits v n t := op_bind_of_ok h _

/-- Fewer than eight bits into an empty rack stay there, at its top. -/
theorem writeBits_empty (v : BitVec w) (n : Nat) {j : Nat} (hj : j < 8) (hr : s.wrRack = 0) (hc : s.wrCnt = 0) :
    writeBits v (n + j) s = writeBits v n
      { s with wrRack := v.extractLsb' n 8 <<< (8 - j), wrCnt := BitVec.ofNat 3 j } := by
  induction j generalizing n with
  | zero =>
    have hrack : v.extractLsb' n 8 <<< 8 = s.wrRack := hr ▸ BitVec.shiftLeft_eq_zero (Nat.le_refl 8)
    have hcnt : BitVec.ofNat 3 0 = s.wrCnt := hc.symm
    rw [Nat.sub_zero, hrack, hcnt]
    rfl
  | succ j ih =>
    have hcount : (BitVec.ofNat 3 j).toNat = j := Nat.mod_eq_of_lt (by omega)
    have hne : BitVec.ofNat 3 j ≠ 7 := by bv_omega
    have hsucc : BitVec.ofNat 3 (j + 1) = BitVec.ofNat 3 j + 1 := BitVec.ofNat_add ..
    have hsub : 8 - (j + 1) = 7 - j := by omega
    have hn : n + (j + 1) = n + 1 + j := by omega
    rw [hn, ih (n + 1) (by omega), writeBits_of_ok (writeBit_places hne _), hsub, hsucc,
      ← setRackBit_next v n (by omega)]
    simp only [hcount]

/-- Eight bits into an empty rack are a byte of the sink, the most significant bit first. -/
theorem writeBits_byte (v : BitVec w) (n : Nat) (hs : Served s) (ho : s.snkClosed = false) (hr : s.wrRack = 0)
    (hc : s.wrCnt = 0) : writeBits v (n + 8) s = writeBits v n
      { s with wrRack := 0, wrCnt := 0, snk := s.snk ++ [v.extractLsb' n 8], answers := s.answers.tail } := by
  have hn : n + 8 = n + 1 + 7 := rfl
  have hlast : setRackBit (v.extractLsb' (n + 1) 8 <<< 1) 0 (v.getLsbD n) = v.extractLsb' n 8 :=
    (setRackBit_next v n (j := 7) (by omega)).trans (BitVec.shiftLeft_zero _)
  have hflush := writeBit_flushes (s := { s with wrRack := v.extractLsb' (n + 1) 8 <<< 1, wrCnt := 7 }) hs ho rfl
    (v.getLsbD n)
  rw [hlast] at hflush
  rw [hn, writeBits_empty v (n + 1) (j := 7) (by omega) hr hc]
  exact writeBits_of_ok hflush

/-- A code into an empty rack: its high byte is written, its low four bits stay at the top of the rack. -/
theorem writeCode_empty (v : Code) (hs : Served s) (ho : s.snkClosed = false) (hr : s.wrRack = 0) (hc : s.wrCnt = 0) :
    writeBits v codeBits s = .ok () { s with
      wrRack := v.extractLsb' 0 8 <<< 4, wrCnt := 4, snk := s.snk ++ [v.extractLsb' 4 8]
      answers := s.answers.tail } :=
  (writeBits_byte v 4 hs ho hr hc).trans (writeBits_empty v 0 (j := 4) (by omega) rfl rfl)

/-! ## ENCODE of nothing (44_encoder R121) -/

/-- END_OF_STREAM alone is the two bytes `0x10`, `0x00` (30_encoding R63). -/
theorem encFinish_empty (hs : Served s) (ho : s.snkClosed = false) (hr : s.wrRack = 0) (hc : s.wrCnt = 0) :
    encFinish s = .ok () { s with
      wrRack := 0, wrCnt := 0, phase := .done, snk := s.snk ++ [0x10, 0x00], snkClosed := true
      answers := s.answers.drop 2 } := by
  unfold encFinish
  refine (op_bind_of_ok (writeCode_empty _ hs ho hr hc) _).trans ?_
  refine (op_bind_of_ok (closeWriter_served ?_ ?_) _).trans ?_
  · exact served_tail hs
  · exact ho
  · simp [eos, ← List.drop_one]

/-- The registers ENCODE clears before it reads the source. -/
def encCleared (s : State) : State :=
  { s with mode := .enc, dict := [], encNext := 257, wrRack := 0, wrCnt := 0 }

/-- `EncStart` at the end of the source ends the operation. -/
theorem encStart_eof (hs : Served s) (ho : s.snkClosed = false) (hb : s.src[s.srcPos]? = none) :
    encStart s = .ok () { encCleared s with
      phase := .done, snk := s.snk ++ [0x10, 0x00], snkClosed := true, answers := s.answers.drop 3 } := by
  have hread : srcRead (encCleared s) = .ok none { encCleared s with answers := s.answers.tail } := by
    rw [srcRead_served (s := encCleared s) hs]
    simp [encCleared, hb]
  have hfinish := encFinish_empty (s := { encCleared s with answers := s.answers.tail }) (served_tail hs) ho rfl rfl
  unfold encStart dictClear
  rw [op_bind_of_ok (op_modify _ _), op_bind_of_ok (op_modify _ _), op_bind_of_ok (op_modify _ _),
    op_bind_of_ok (op_modify _ _)]
  refine (op_bind_of_ok hread _).trans (hfinish.trans ?_)
  simp [encCleared]

theorem encodeAll_eof (cfg : Config) (hs : Served s) (ho : s.snkClosed = false) (hb : s.src[s.srcPos]? = none) :
    encodeAll cfg s = .ok () { encCleared s with
      phase := .done, snk := s.snk ++ [0x10, 0x00], snkClosed := true, answers := s.answers.drop 3 } := by
  unfold encodeAll
  rw [op_bind_of_ok (encStart_eof hs ho hb), op_bind_of_ok (op_get _), loop_done (encLoop_isLoop cfg) rfl]

/-- ENCODE with an open sink, its operation ending normally. -/
theorem execEncode_ok {t : State} (hf : s.fault = none) (ho : s.snkClosed = false) (h : encodeAll hw s = .ok () t) :
    exec .encode s = .next { t with rsp := some okPlain } := by
  refine runCommand_ok hf ((op_bind_of_ok (checkOpen_open ho) _).trans ?_)
  exact op_bind_of_ok h _

end Sys2Proof.Machine

/-- Settles O46: ENCODE meets the end of the source in `EncStart` and writes END_OF_STREAM alone. -/
theorem encodeOfNothing : Obligations.EncodeOfNothing := by
  unfold Obligations.EncodeOfNothing
  intro s ⟨hf, hs⟩ ho hend
  have hb : s.src[s.srcPos]? = none := List.getElem?_eq_none hend
  exact Sys2Proof.Machine.execEncode_ok hf ho (Sys2Proof.Machine.encodeAll_eof _ hs ho hb)

namespace Sys2Proof.Machine

variable {s t u : State} {n : BitVec 6}

/-- Answers used up keep the premise on the host. -/
theorem served_of_suffix (hs : Served s) (h : t.answers <:+ s.answers) : Served t := fun a ha => hs a (h.mem ha)

/-! ## The answers of the BitReader (40_bitreader R81, R82) -/

/-- The response to a number that was read; `none` is EOF. -/
def readWord (o : Option Nat) : Word := o.elim eofWord fun v => okData (BitVec.ofNat 32 v)

theorem execRdbit_of_readBit {o : Option Bool} (hf : s.fault = none) (h : readBit s = .ok o t) :
    exec .rdbit s = .next { t with rsp := some (readWord (o.map Bool.toNat)) } := by
  refine runCommand_ok hf ((op_bind_of_ok h _).trans ?_)
  cases o <;> rfl

theorem execRdbits_of_readBits {o : Option Nat} (hf : s.fault = none) (hl : legalWidth hw n = true)
    (h : readBits n.toNat s = .ok o t) : exec (.rdbits n) s = .next { t with rsp := some (readWord o) } := by
  refine runCommand_ok hf ((op_bind_of_ok (checkWidth_legal hl s) _).trans ((op_bind_of_ok h _).trans ?_))
  cases o <;> rfl

/-! ## Numbers and their bits (20_memory R47) -/

theorem foldl_bits (bits : List Bool) (v : Nat) :
    bits.foldl (fun v b => 2 * v + b.toNat) v = v * 2 ^ bits.length + bitsValue bits := by
  unfold bitsValue
  induction bits generalizing v with
  | nil => simp
  | cons b bits ih =>
    rw [List.foldl_cons, List.foldl_cons, ih, ih (2 * 0 + b.toNat), List.length_cons]
    ring

theorem bitsValue_append (bits bits' : List Bool) :
    bitsValue (bits ++ bits') = bitsValue bits * 2 ^ bits'.length + bitsValue bits' := by
  rw [← foldl_bits, bitsValue, bitsValue, List.foldl_append]

theorem bitsValue_cons (b : Bool) (bits : List Bool) :
    bitsValue (b :: bits) = b.toNat * 2 ^ bits.length + bitsValue bits := by
  rw [← foldl_bits, bitsValue, List.foldl_cons, Nat.mul_zero, Nat.zero_add]

theorem bitsValue_lt (bits : List Bool) : bitsValue bits < 2 ^ bits.length := by
  induction bits with
  | nil => exact Nat.one_pos
  | cons b bits ih =>
    have hb : b.toNat * 2 ^ bits.length ≤ 1 * 2 ^ bits.length := Nat.mul_le_mul_right _ b.toNat_le
    rw [bitsValue_cons, List.length_cons, Nat.pow_succ]
    omega

theorem bitsValue_lowBits {w : Nat} (v : BitVec w) (n : Nat) : bitsValue (lowBits v n) = v.toNat % 2 ^ n := by
  induction n with
  | zero => rw [Nat.pow_zero, Nat.mod_one]; rfl
  | succ n ih =>
    have hbit : (v.getLsbD n).toNat = v.toNat / 2 ^ n % 2 := Nat.toNat_testBit v.toNat n
    rw [lowBits, bitsValue_cons, lowBits_length, ih, hbit, Nat.mod_pow_succ]
    ring

/-- Two fields side by side are the first one shifted past the second. -/
theorem ofNat_bitsValue_append (bits bits' : List Bool) :
    BitVec.ofNat 32 (bitsValue (bits ++ bits')) =
      BitVec.ofNat 32 (bitsValue bits) <<< bits'.length ||| BitVec.ofNat 32 (bitsValue bits') := by
  have hshift : BitVec.ofNat 32 (bitsValue bits <<< bits'.length) =
      BitVec.ofNat 32 (bitsValue bits) <<< bits'.length := by
    apply BitVec.eq_of_toNat_eq
    simp [Nat.shiftLeft_eq]
  rw [bitsValue_append, ← Nat.shiftLeft_eq, Nat.shiftLeft_add_eq_or_of_lt (bitsValue_lt bits'), BitVec.ofNat_or,
    hshift]

/-! ## The bits that `ReadBit` delivers one after the other -/

/-- From `s` to `t`, `ReadBit` answers the bits `bits` in turn (40_bitreader R81). -/
def Delivers : List Bool → State → State → Prop
  | [], s, t => s = t
  | b :: bits, s, t => ∃ u, readBit s = .ok (some b) u ∧ Delivers bits u t

theorem Delivers.append {bits bits' : List Bool} (h : Delivers bits s t) (h' : Delivers bits' t u) :
    Delivers (bits ++ bits') s u := by
  induction bits generalizing s with
  | nil => exact h ▸ h'
  | cons b bits ih =>
    obtain ⟨r, hb, hr⟩ := h
    exact ⟨r, hb, ih hr⟩

theorem Delivers.step {bits : List Bool} (h : Delivers bits s t) : ReaderStep s t := by
  induction bits generalizing s with
  | nil => exact h ▸ .refl s
  | cons b bits ih =>
    obtain ⟨r, hb, hr⟩ := h
    exact ((readBit_runs s).of_ok hb).trans (ih hr)

/-- The loop of `ReadBits` after the delivered bits: they stand below those of `v`. -/
theorem Delivers.readBitsFrom {bits : List Bool} (h : Delivers bits s t) (k v : Nat) :
    readBitsFrom (bits.length + k) v s = readBitsFrom k (v * 2 ^ bits.length + bitsValue bits) t := by
  induction bits generalizing s v with
  | nil =>
    obtain rfl : s = t := h
    simp [bitsValue]
  | cons b bits ih =>
    obtain ⟨r, hb, hr⟩ := h
    have hv : (2 * v + b.toNat) * 2 ^ bits.length + bitsValue bits =
        v * 2 ^ (bits.length + 1) + bitsValue (b :: bits) := by
      rw [bitsValue_cons]
      ring
    rw [List.length_cons, Nat.add_right_comm, readBitsFrom_succ, hb, ← hv]
    exact ih hr _

/-- A number that the loop of `ReadBits` answers is made of bits that were delivered. -/
theorem delivers_of_readBitsFrom {k v x : Nat} (h : readBitsFrom k v s = .ok (some x) t) :
    ∃ bits, bits.length = k ∧ Delivers bits s t ∧ v * 2 ^ k + bitsValue bits = x := by
  induction k generalizing s v with
  | zero =>
    cases h
    exact ⟨[], rfl, rfl, by simp [bitsValue]⟩
  | succ k ih =>
    rw [readBitsFrom_succ] at h
    rcases hb : readBit s with ⟨_ | b, r⟩ | ⟨e, r⟩ <;> rw [hb] at h
    · cases h
    · obtain ⟨bits, rfl, hr, rfl⟩ := ih h
      refine ⟨b :: bits, rfl, ⟨r, hb, hr⟩, ?_⟩
      rw [bitsValue_cons]
      ring
    · cases h

/-- `ReadBits` answers the number of the bits that are delivered (40_bitreader R82). -/
theorem readBits_eq_some {k x : Nat} :
    readBits k s = .ok (some x) t ↔ ∃ bits, bits.length = k ∧ Delivers bits s t ∧ bitsValue bits = x := by
  constructor
  · intro h
    simpa using delivers_of_readBitsFrom h
  · rintro ⟨bits, rfl, h, rfl⟩
    simpa [readBits, readBitsFrom] using h.readBitsFrom 0 0

/-! ## What is delivered is what is pending (40_bitreader R84) -/

theorem bytesBits_cons (b : Byte) (bytes : List Byte) : bytesBits (b :: bytes) = lowBits b 8 ++ bytesBits bytes :=
  List.flatMap_cons

/-- `ReadBit` delivers the first pending bit, and less than a whole byte then stands in the rack. -/
theorem readBit_pending {b : Bool} {bits : List Bool} (hs : Served s) (hc : s.rdCnt.toNat ≤ 8)
    (h : pendingBits s = b :: bits) :
    ∃ t, readBit s = .ok (some b) t ∧ t.rdCnt.toNat < 8 ∧ pendingBits t = bits := by
  unfold pendingBits at h
  by_cases h0 : s.rdCnt = 0
  · rw [h0] at h
    cases hb : s.src[s.srcPos]? with
    | none =>
      rw [List.drop_eq_nil_of_le (List.getElem?_eq_none_iff.1 hb)] at h
      cases h
    | some r =>
      obtain ⟨hlt, rfl⟩ := List.getElem?_eq_some_iff.1 hb
      rw [List.drop_eq_getElem_cons hlt, bytesBits_cons] at h
      obtain ⟨rfl, rfl⟩ := List.cons.inj h
      exact ⟨_, readBit_pulls hs h0 hb, Nat.lt_succ_self 7, rfl⟩
  · obtain ⟨k, hk⟩ : ∃ k, s.rdCnt.toNat = k + 1 := ⟨s.rdCnt.toNat - 1, by bv_omega⟩
    have hk' : (s.rdCnt - 1).toNat = k := by bv_omega
    rw [hk] at h
    obtain ⟨rfl, rfl⟩ := List.cons.inj h
    refine ⟨_, hk' ▸ readBit_ready h0, ?_, ?_⟩
    · simp only
      omega
    · simp only [pendingBits, hk']
      rfl

/-- The first of the pending bits are delivered and leave the others pending. -/
theorem delivers_pending {bits rest : List Bool} (hs : Served s) (hc : s.rdCnt.toNat ≤ 8)
    (h : pendingBits s = bits ++ rest) :
    ∃ t, Delivers bits s t ∧ pendingBits t = rest ∧ (bits ≠ [] → t.rdCnt.toNat < 8) := by
  induction bits generalizing s with
  | nil => exact ⟨s, rfl, h, fun hn => absurd rfl hn⟩
  | cons b bits ih =>
    obtain ⟨r, hb, hlt, hr⟩ := readBit_pending hs hc h
    have hstep : ReaderStep s r := (readBit_runs s).of_ok hb
    obtain ⟨t, hd, hp, hbits⟩ := ih (served_of_suffix hs hstep.2.2) hlt.le hr
    refine ⟨t, ⟨r, hb, hd⟩, hp, fun _ => ?_⟩
    cases bits with
    | nil => exact (show r = t from hd) ▸ hlt
    | cons => exact hbits (List.cons_ne_nil _ _)

/-- `ReadBits` with enough bits pending. -/
theorem readBits_enough {k : Nat} (hs : Served s) (hc : s.rdCnt.toNat ≤ 8) (hk : 1 ≤ k)
    (hn : k ≤ (pendingBits s).length) :
    ∃ t, readBits k s = .ok (some (bitsValue ((pendingBits s).take k))) t ∧
      pendingBits t = (pendingBits s).drop k ∧ t.rdCnt.toNat < 8 := by
  obtain ⟨t, hd, hp, hlt⟩ := delivers_pending hs hc (List.take_append_drop k _).symm
  have hlen : ((pendingBits s).take k).length = k := List.length_take_of_le hn
  exact ⟨t, readBits_eq_some.2 ⟨_, hlen, hd, rfl⟩, hp, hlt (List.ne_nil_of_length_pos (by omega))⟩

theorem atEof_of_pendingBits (h : pendingBits s = []) : AtEof s := by
  have hlen := pendingBits_length s
  rw [h, List.length_nil] at hlen
  exact ⟨BitVec.eq_of_toNat_eq (Nat.eq_zero_of_add_eq_zero_right hlen.symm), List.getElem?_eq_none (by omega)⟩

/-- `ReadBits` with too few bits pending consumes them and answers EOF. -/
theorem readBits_short {k : Nat} (hs : Served s) (hc : s.rdCnt.toNat ≤ 8) (hn : (pendingBits s).length < k) :
    ∃ t, readBits k s = .ok none t ∧ pendingBits t = [] ∧ t.rdCnt = 0 := by
  obtain ⟨t, hd, hp, -⟩ := delivers_pending hs hc (List.append_nil _).symm
  obtain ⟨j, rfl⟩ := Nat.exists_eq_add_of_lt hn
  have hst : Served t := served_of_suffix hs hd.step.2.2
  have he : AtEof t := atEof_of_pendingBits hp
  refine ⟨{ t with answers := t.answers.tail }, ?_, hp, he.1⟩
  rw [readBits, Nat.add_assoc, hd.readBitsFrom, readBitsFrom_succ, readBit_eof hst he.1 he.2]

/-! ## The response takes no part in a read -/

/-- The second state is the first one with the response `r`. -/
def Responded (r : Option Word) (s s' : State) : Prop := s' = { s with rsp := r }

theorem responded_reader (r : Option Word) : ReaderAlike (Responded r) where
  answers h := by rw [h]
  src h := by rw [h]
  srcPos h := by rw [h]
  snkClosed h := by rw [h]
  setAnswers _ h := by rw [h]; rfl
  pull h := by rw [h]; rfl
  append _ h := by rw [h]; rfl
  rdRack h := by rw [h]
  rdCnt h := by rw [h]
  fill _ h := by rw [h]; rfl
  take h := by rw [h]; rfl

theorem readBits_responded {k : Nat} {o : Option Nat} {r : Option Word}
    (h : readBits k { s with rsp := r } = .ok o t) : readBits k s = .ok o { t with rsp := s.rsp } := by
  have ha : Alike (Responded s.rsp) (Responded s.rsp) (readBits k { s with rsp := r }) (readBits k s) :=
    readBitsFrom_alike id (responded_reader _) k 0 rfl
  rw [h] at ha
  generalize readBits k s = x at ha ⊢
  cases ha with
  | ok _ hr => rw [hr]

/-! ## The response tells what a read did -/

theorem rspData_okData (x : BitVec 32) : rspData (okData x) = x := by
  obtain ⟨-, -, -, -, -, hx⟩ := fields_responseWord (show okData x = okData x from rfl)
  exact hx

theorem okData_inj {x y : BitVec 32} (h : okData x = okData y) : x = y := by
  rw [← rspData_okData x, h, rspData_okData]

theorem rspStatus_okData (x : BitVec 32) : rspStatus (okData x) = 0 := (fields_responseWord rfl).1

theorem faultWord_ne_okData (f : FaultCode) (x : BitVec 32) : faultWord f ≠ okData x := by
  intro h
  have h2 : rspStatus (faultWord f) = 2 := (fields_responseWord rfl).1
  rw [h, rspStatus_okData] at h2
  exact absurd h2 (by decide)

theorem eofWord_ne_okData (x : BitVec 32) : eofWord ≠ okData x := by
  intro h
  have h1 : rspStatus eofWord = 1 := (fields_responseWord rfl).1
  rw [h, rspStatus_okData] at h1
  exact absurd h1 (by decide)

/-- RDBITS answers a number only without a fault, for a legal width, and it is the number `ReadBits` answered. -/
theorem execRdbits_okData {x : BitVec 32} (h : exec (.rdbits n) s = .next t) (hr : t.rsp = some (okData x)) :
    s.fault = none ∧ legalWidth hw n = true ∧ ∃ v u, readBits n.toNat s = .ok (some v) u ∧
      x = BitVec.ofNat 32 v ∧ t = { u with rsp := some (okData x) } := by
  rcases runCommand_next h with ⟨f, -, rfl⟩ | ⟨hf, w, u, hb, rfl⟩ | ⟨-, f, u, -, rfl⟩
  · exact absurd (Option.some.inj hr) (faultWord_ne_okData f x)
  · obtain rfl : w = okData x := Option.some.inj hr
    have hl : legalWidth hw n = true := by
      by_contra hl
      rw [op_bind_of_error (checkWidth_illegal (by simpa using hl) s)] at hb
      cases hb
    rw [op_bind_of_ok (checkWidth_legal hl s)] at hb
    obtain ⟨o, u', hread, hw⟩ := op_bind_eq_ok.1 hb
    cases o with
    | none => exact absurd (EStateM.Result.ok.inj hw).1 (eofWord_ne_okData x)
    | some v =>
      obtain ⟨hx, rfl⟩ := EStateM.Result.ok.inj hw
      exact ⟨hf, hl, v, u', hread, (okData_inj hx).symm, rfl⟩
  · exact absurd (Option.some.inj hr) (faultWord_ne_okData _ x)

/-! ## A field is read as the pending bits say, or in two parts (40_bitreader R82, R84) -/

/-- What RDBITS changes when it ends normally (40_bitreader R80). -/
theorem readBits_frame {o : Option Nat} {w : Option Word} (h : readBits n.toNat s = .ok o t) :
    { t with rsp := w } =
      { s with rdRack := t.rdRack, rdCnt := t.rdCnt, srcPos := t.srcPos, answers := t.answers, rsp := w } := by
  rw [((readBitsFrom_runs n.toNat 0 s).of_ok h).1]

theorem readBits_add {j k v x : Nat} (h : readBits j s = .ok (some v) t) (h' : readBits k t = .ok (some x) u) :
    ∃ y, readBits (j + k) s = .ok (some y) u ∧
      BitVec.ofNat 32 y = BitVec.ofNat 32 v <<< k ||| BitVec.ofNat 32 x := by
  obtain ⟨bits, rfl, hd, rfl⟩ := readBits_eq_some.1 h
  obtain ⟨bits', rfl, hd', rfl⟩ := readBits_eq_some.1 h'
  exact ⟨_, readBits_eq_some.2 ⟨bits ++ bits', List.length_append, hd.append hd', rfl⟩,
    ofNat_bitsValue_append bits bits'⟩

theorem legalWidth_add {a b : BitVec 6} (ha : legalWidth hw a = true) (h : a.toNat + b.toNat ≤ 32) :
    (a + b).toNat = a.toNat + b.toNat ∧ legalWidth hw (a + b) = true := by
  rw [legalWidth_iff] at ha ⊢
  have hadd : (a + b).toNat = a.toNat + b.toNat := BitVec.toNat_add_of_lt (by omega)
  omega

/-! ## What RDBIT and RDBITS leave unchanged (40_bitreader R80) -/

/-- `t` is `s` but for what RDBIT and RDBITS may change. -/
def ReaderFramed (s t : State) : Prop :=
  t = { s with
    rdRack := t.rdRack, rdCnt := t.rdCnt, srcPos := t.srcPos, fault := t.fault, rsp := t.rsp, answers := t.answers }

theorem ReaderStep.framed (h : ReaderStep s t) (f : Option FaultCode) (w : Option Word) :
    ReaderFramed s { t with fault := f, rsp := w } := by
  unfold ReaderFramed
  rw [h.1]

theorem runCommand_readerFramed {body : Op Word} (h : runCommand body s = .next t)
    (hb : Runs body s (fun _ u => ReaderStep s u) (fun _ u => ReaderStep s u)) : ReaderFramed s t := by
  refine runCommand_keeps (P := ReaderFramed s) h (fun f _ => ?_) fun _ => hb.mono ?_ ?_
  · exact (ReaderStep.refl s).framed _ _
  · exact fun w u hu => hu.framed _ _
  · exact fun e u hu f _ => hu.framed _ _

theorem execRdbit_framed (h : exec .rdbit s = .next t) : ReaderFramed s t := by
  refine runCommand_readerFramed h ((runs_bind _ _).2 ((readBit_runs s).mono ?_ fun _ _ hu => hu.1))
  rintro (_ | b) u hu <;> exact hu

theorem execRdbits_framed (h : exec (.rdbits n) s = .next t) : ReaderFramed s t := by
  refine runCommand_readerFramed h ((runs_bind _ _).2 ((checkWidth_runs hw n s).mono ?_ ?_))
  · rintro _ _ rfl
    refine (runs_bind _ _).2 ((readBitsFrom_runs _ _ _).mono ?_ fun _ _ hu => hu.1)
    rintro (_ | v) u hu <;> exact hu
  · rintro _ _ rfl
    exact .refl _

end Sys2Proof.Machine

section

open Sys2Proof Sys2Proof.Machine

/-- Settles O19: `ReadBit` finds a bit in the rack, pulls a byte, or meets the end of the source. -/
theorem rdbitDelivers : Obligations.RdbitDelivers := by
  unfold Obligations.RdbitDelivers
  intro s ⟨hf, hs⟩
  refine ⟨fun hc => ?_, fun b hc hb => ?_, fun hc hb => ?_⟩
  · exact execRdbit_of_readBit hf (readBit_ready hc)
  · exact execRdbit_of_readBit hf (readBit_pulls hs hc hb)
  · exact execRdbit_of_readBit hf (readBit_eof hs hc hb)

/-- Settles O20: `ReadBit` delivers the pending bits in turn, so that `ReadBits` either has enough of them or ends when
none is left. -/
theorem rdbitsReadsNextBits : Obligations.RdbitsReadsNextBits := by
  unfold Obligations.RdbitsReadsNextBits
  intro s n ⟨hf, hs⟩ hc hl
  rcases Nat.lt_or_ge (pendingBits s).length n.toNat with hn | hn
  · obtain ⟨t, hr, hp, h0⟩ := readBits_short hs hc hn
    refine ⟨_, execRdbits_of_readBits hf hl hr, ?_, readBits_frame hr, fun hle => absurd hn hle.not_gt,
      fun _ => ⟨rfl, hp⟩⟩
    simp [h0]
  · obtain ⟨t, hr, hp, hlt⟩ := readBits_enough hs hc ((legalWidth_iff n).1 hl).1 hn
    exact ⟨_, execRdbits_of_readBits hf hl hr, hlt, readBits_frame hr, fun _ => ⟨rfl, hp⟩,
      fun hlt => absurd hn hlt.not_ge⟩

/-- Settles O22: the bits of the two reads, one after the other, are the bits of the one read. -/
theorem rdbitsComposes : Obligations.RdbitsComposes := by
  unfold Obligations.RdbitsComposes
  intro s t u a b x y hab ha hx hb hy
  obtain ⟨hf, hla, v, t', hrt, rfl, rfl⟩ := execRdbits_okData ha hx
  obtain ⟨-, -, v', u', hru, rfl, rfl⟩ := execRdbits_okData hb hy
  obtain ⟨hadd, hlab⟩ := legalWidth_add hla hab
  obtain ⟨z, hrz, hz⟩ := readBits_add hrt (readBits_responded hru)
  rw [← hadd] at hrz
  rw [execRdbits_of_readBits hf hlab hrz, ← hz]
  rfl

/-- Settles O23: whatever the host answers, `ReadBit` and `ReadBits` make only reader steps. -/
theorem readerFrame : Obligations.ReaderFrame := by
  unfold Obligations.ReaderFrame
  rintro _ s t (rfl | ⟨n, rfl⟩) h
  · exact execRdbit_framed h
  · exact execRdbits_framed h

end

namespace Sys2Proof.Machine

variable {s t : State} {w : Nat}

/-! ## The bits the BitWriter places (41_bitwriter R91 to R94) -/

theorem bytesBits_append (bytes bytes' : List Byte) :
    bytesBits (bytes ++ bytes') = bytesBits bytes ++ bytesBits bytes' :=
  List.flatMap_append

theorem bytesBits_singleton (b : Byte) : bytesBits [b] = lowBits b 8 := List.flatMap_singleton ..

theorem getElem_lowBits (v : BitVec w) (n : Nat) {i : Nat} (h : i < (lowBits v n).length) :
    (lowBits v n)[i] = v.getLsbD (n - 1 - i) := by
  induction n generalizing i with
  | zero => exact absurd h (Nat.not_lt_zero i)
  | succ n ih =>
    cases i with
    | zero => rfl
    | succ i =>
      have hi : n + 1 - 1 - (i + 1) = n - 1 - i := by omega
      rw [hi]
      exact ih (Nat.lt_of_succ_lt_succ h)

/-- A bit placed below the `k` highest bits of the rack follows them. -/
theorem lowBits_setRackBit (rack : Byte) {k : Nat} (hk : k < 8) (b : Bool) :
    (lowBits (setRackBit rack (7 - k) b) 8).take (k + 1) = (lowBits rack 8).take k ++ [b] := by
  have hlen : k < (lowBits (setRackBit rack (7 - k) b) 8).length := (lowBits_length _ 8).symm ▸ hk
  rw [← List.take_append_getElem hlen, getElem_lowBits, setRackBit_self _ (by omega)]
  congr 1
  refine List.ext_getElem (by simp [lowBits_length]) fun i hi hi' => ?_
  have hik : i < k := hi.trans_le (List.length_take_le _ _)
  rw [List.getElem_take, List.getElem_take, getElem_lowBits, getElem_lowBits, setRackBit_other _ (by omega)]

/-- `WriteBit` places its bit after those placed before (41_bitwriter R91). -/
theorem writeBit_placed (b : Bool) (hs : Served s) (ho : s.snkClosed = false) :
    ∃ t, writeBit b s = .ok () t ∧ placedBits t = placedBits s ++ [b] := by
  by_cases h7 : s.wrCnt = 7
  · have hlast := lowBits_setRackBit s.wrRack (k := 7) (by omega) b
    refine ⟨_, writeBit_flushes hs ho h7 b, ?_⟩
    rw [List.take_of_length_le (lowBits_length _ 8).le] at hlast
    simp [placedBits, bytesBits_append, bytesBits_singleton, hlast, h7]
  · have hcnt : (s.wrCnt + 1).toNat = s.wrCnt.toNat + 1 := by bv_omega
    refine ⟨_, writeBit_places h7 b, ?_⟩
    simp only [placedBits, hcnt]
    rw [lowBits_setRackBit _ (by omega), List.append_assoc]

/-- `WriteBits` places the low bits of its value, the most significant first (41_bitwriter R92, R94). -/
theorem writeBits_placed (v : BitVec w) (n : Nat) (hs : Served s) (ho : s.snkClosed = false) :
    ∃ t, writeBits v n s = .ok () t ∧ WriterStep s t ∧ placedBits t = placedBits s ++ lowBits v n := by
  induction n generalizing s with
  | zero => exact ⟨s, rfl, .refl s, (List.append_nil _).symm⟩
  | succ n ih =>
    obtain ⟨r, hb, hr⟩ := writeBit_placed (v.getLsbD n) hs ho
    have hstep : WriterStep s r := (writeBit_runs _ s).of_ok hb
    obtain ⟨t, hw, hrt, ht⟩ := ih (s := r) (served_of_suffix hs hstep.2.2) (by rw [hstep.1]; exact ho)
    exact ⟨t, (writeBits_of_ok hb).trans hw, hstep.trans hrt, by rw [ht, hr, List.append_assoc]; rfl⟩

/-- After `Close` the sink's bits are the placed bits and what was below them in the rack (41_bitwriter R93). -/
theorem bytesBits_flushed (s : State) : ∃ pad,
    bytesBits (if s.wrCnt = 0 then s.snk else s.snk ++ [s.wrRack]) = placedBits s ++ pad := by
  by_cases hc : s.wrCnt = 0
  · exact ⟨[], by simp [placedBits, hc]⟩
  · refine ⟨(lowBits s.wrRack 8).drop s.wrCnt.toNat, ?_⟩
    rw [if_neg hc, bytesBits_append, bytesBits_singleton, placedBits, List.append_assoc, List.take_append_drop]

theorem execWrbits_placed {n : BitVec 6} (value : BitVec 32) (hr : Ready s) (ho : s.snkClosed = false)
    (hl : legalWidth hw n = true) :
    ∃ t, WriterStep s t ∧ placedBits t = placedBits s ++ lowBits value n.toNat ∧
      exec (.wrbits n value) s = .next { t with rsp := some okPlain } := by
  obtain ⟨t, hw, hstep, hp⟩ := writeBits_placed value n.toNat hr.2 ho
  refine ⟨t, hstep, hp, runCommand_ok hr.1 ?_⟩
  exact (op_bind_of_ok (checkWidth_legal hl s) _).trans
    ((op_bind_of_ok (checkOpen_open ho) _).trans (op_bind_of_ok hw _))

/-- WRCLOSE, served by an open sink (41_bitwriter R93). -/
theorem execWrclose_served (hr : Ready s) (ho : s.snkClosed = false) :
    exec .wrclose s = .next { s with
      wrRack := 0, wrCnt := 0, snkClosed := true, rsp := some okPlain
      snk := if s.wrCnt = 0 then s.snk else s.snk ++ [s.wrRack]
      answers := if s.wrCnt = 0 then s.answers else s.answers.tail } := by
  have hbody : (do checkOpen; closeWriter; pure okPlain : Op Word) s = _ :=
    (op_bind_of_ok (checkOpen_open ho) _).trans (op_bind_of_ok (closeWriter_served hr.2 ho) _)
  exact runCommand_ok hr.1 hbody

/-- After WRCLOSE the sink begins with the bits placed before, and the core is as ready to read as it was. -/
theorem execWrclose_placed (hr : Ready s) (ho : s.snkClosed = false) :
    ∃ t pad, exec .wrclose s = .next t ∧ bytesBits t.snk = placedBits s ++ pad ∧ Ready t ∧ t.rdCnt = s.rdCnt := by
  obtain ⟨pad, hpad⟩ := bytesBits_flushed s
  refine ⟨_, pad, execWrclose_served hr ho, hpad, ⟨hr.1, served_of_suffix hr.2 ?_⟩, rfl⟩
  simp only
  split_ifs
  · exact List.suffix_refl _
  · exact List.tail_suffix _

theorem pendingBits_bindStreams (hc : s.rdCnt = 0) (bytes : List Byte) :
    pendingBits (bindStreams bytes s) = bytesBits bytes := by
  simp [pendingBits, hc, lowBits]

/-- A field whose bits are the next pending ones is answered as their number (40_bitreader R82). -/
theorem execRdbits_field {n : BitVec 6} {bits rest : List Bool} (hr : Ready s) (hc : s.rdCnt.toNat ≤ 8)
    (hl : legalWidth hw n = true) (h : pendingBits s = bits ++ rest) (hn : bits.length = n.toNat) :
    ∃ t, exec (.rdbits n) s = .next t ∧ t.rsp = some (okData (BitVec.ofNat 32 (bitsValue bits))) := by
  obtain ⟨t, hd, -, -⟩ := delivers_pending hr.2 hc h
  exact ⟨_, execRdbits_of_readBits hr.1 hl (readBits_eq_some.2 ⟨bits, hn, hd, rfl⟩), rfl⟩

end Sys2Proof.Machine

section

open Sys2Proof Sys2Proof.Machine

/-- Settles O29: the bits WRBITS places are the first bits of the closed sink, and RDBITS reads those. -/
theorem fieldRoundTrip : Obligations.FieldRoundTrip := by
  unfold Obligations.FieldRoundTrip
  intro s n value hr ho hsnk hwr hrd hl
  obtain ⟨t, ⟨hframe, -, hans⟩, hplaced, hwrite⟩ := execWrbits_placed value hr ho hl
  have hrt : Ready t := ⟨by rw [hframe]; exact hr.1, served_of_suffix hr.2 hans⟩
  have hot : t.snkClosed = false := by rw [hframe]; exact ho
  obtain ⟨u, pad, hclose, hbits, hru, hcu⟩ := execWrclose_placed (s := { t with rsp := some okPlain }) hrt hot
  have hrdu : u.rdCnt = 0 := by rw [hcu, hframe]; exact hrd
  have hnone : placedBits s = [] := by simp [placedBits, hsnk, hwr, bytesBits]
  have hfield : placedBits t = lowBits value n.toNat := by rw [hplaced, hnone, List.nil_append]
  have hpending : pendingBits (bindStreams u.snk u) = lowBits value n.toNat ++ pad :=
    (pendingBits_bindStreams hrdu u.snk).trans (hbits.trans (congrArg (· ++ pad) hfield))
  obtain ⟨v, hread, hrsp⟩ := execRdbits_field (s := bindStreams u.snk u) hru (by simp [hrdu]) hl hpending
    (lowBits_length _ _)
  exact ⟨_, u, v, hwrite, hclose, hread, by rw [hrsp, bitsValue_lowBits]⟩

end

namespace Sys2Proof.Machine

variable {α β : Type} {s t u : State} {w : Nat}

/-! ## The end of the BitWriter's commands (41_bitwriter R91, R92, R95) -/

theorem execWrbit_of_writeBit {bit : Bool} (hf : s.fault = none) (ho : s.snkClosed = false)
    (h : writeBit bit s = .ok () t) : exec (.wrbit bit) s = .next { t with rsp := some okPlain } :=
  runCommand_ok hf ((op_bind_of_ok (checkOpen_open ho) _).trans (op_bind_of_ok h _))

theorem execWrbits_of_writeBits {n : BitVec 6} {value : BitVec 32} (hf : s.fault = none)
    (hl : legalWidth hw n = true) (ho : s.snkClosed = false) (h : writeBits value n.toNat s = .ok () t) :
    exec (.wrbits n value) s = .next { t with rsp := some okPlain } :=
  runCommand_ok hf ((op_bind_of_ok (checkWidth_legal hl s) _).trans
    ((op_bind_of_ok (checkOpen_open ho) _).trans (op_bind_of_ok h _)))

/-- A command that raises a fault before any statement has taken effect changes nothing but `fault` and the
response (60_exceptions R142). -/
theorem runCommand_raised_unchanged {f : FaultCode} {body : Op Word} (hf : s.fault = none)
    (h : body s = .error (.raised f) s) :
    runCommand body s = .next { s with fault := some f, rsp := some (faultWord f) } := by
  have hrecorded : s.fault.getD f = f := by rw [hf, Option.getD_none]
  rw [runCommand_raised hf h, takeFault, hrecorded]

/-- A command that begins with the check of the sink, on a closed sink (41_bitwriter R95). -/
theorem runCommand_checkOpen_closed (hf : s.fault = none) (hc : s.snkClosed = true) (f : Unit → Op Word) :
    runCommand (checkOpen >>= f) s =
      .next { s with fault := some .sinkClosed, rsp := some (faultWord .sinkClosed) } :=
  runCommand_raised_unchanged hf (op_bind_of_error (checkOpen_closed hc) f)

theorem execWrbits_closed {n : BitVec 6} (value : BitVec 32) (hf : s.fault = none) (hc : s.snkClosed = true)
    (hl : legalWidth hw n = true) : exec (.wrbits n value) s =
      .next { s with fault := some .sinkClosed, rsp := some (faultWord .sinkClosed) } :=
  runCommand_raised_unchanged hf
    ((op_bind_of_ok (checkWidth_legal hl s) _).trans (op_bind_of_error (checkOpen_closed hc) _))

theorem checkWidth_eq_ok {cfg : Config} {n : BitVec 6} (h : checkWidth cfg n s = .ok () t) :
    legalWidth cfg n = true ∧ t = s := by
  cases hl : legalWidth cfg n with
  | true =>
    rw [checkWidth_legal hl] at h
    cases h
    exact ⟨rfl, rfl⟩
  | false =>
    rw [checkWidth_illegal hl] at h
    cases h

theorem checkOpen_eq_ok (h : checkOpen s = .ok () t) : s.snkClosed = false ∧ t = s := by
  cases hc : s.snkClosed with
  | false =>
    rw [checkOpen_open hc] at h
    cases h
    exact ⟨rfl, rfl⟩
  | true =>
    rw [checkOpen_closed hc] at h
    cases h

theorem faultWord_ne_okPlain (f : FaultCode) : faultWord f ≠ okPlain := faultWord_ne_okData f 0

/-- WRBITS answers OK only without a fault, for a legal width and an open sink, after `WriteBits` ended normally. -/
theorem execWrbits_okPlain {n : BitVec 6} {value : BitVec 32} (h : exec (.wrbits n value) s = .next t)
    (hr : t.rsp = some okPlain) : s.fault = none ∧ legalWidth hw n = true ∧ s.snkClosed = false ∧
      ∃ u, writeBits value n.toNat s = .ok () u ∧ t = { u with rsp := some okPlain } := by
  rcases runCommand_next h with ⟨f, -, rfl⟩ | ⟨hf, w, u, hb, rfl⟩ | ⟨-, f, u, -, rfl⟩
  · exact absurd (Option.some.inj hr) (faultWord_ne_okPlain f)
  · obtain rfl : w = okPlain := Option.some.inj hr
    obtain ⟨_, _, hwidth, hchecked⟩ := op_bind_eq_ok.1 hb
    obtain ⟨hl, rfl⟩ := checkWidth_eq_ok hwidth
    obtain ⟨_, _, hopen, hrest⟩ := op_bind_eq_ok.1 hchecked
    obtain ⟨ho, rfl⟩ := checkOpen_eq_ok hopen
    obtain ⟨_, v, hwrite, hw⟩ := op_bind_eq_ok.1 hrest
    obtain ⟨-, rfl⟩ := EStateM.Result.ok.inj hw
    exact ⟨hf, hl, ho, v, hwrite, rfl⟩
  · exact absurd (Option.some.inj hr) (faultWord_ne_okPlain _)

/-! ## A field is written as its low bits say, or in two parts (41_bitwriter R92) -/

/-- `WriteBits` looks at the bits it writes and at no other. -/
theorem writeBits_congr {w' : Nat} {v : BitVec w} {v' : BitVec w'} {n : Nat}
    (h : ∀ i < n, v.getLsbD i = v'.getLsbD i) : writeBits v n = writeBits v' n := by
  induction n with
  | zero => rfl
  | succ n ih => rw [writeBits, writeBits, h n n.lt_succ_self, ih fun i hi => h i (Nat.lt_succ_of_lt hi)]

/-- A field whose bits are those of `a` above those of `b` is written as `a` and then `b`. -/
theorem writeBits_join {wa wb p q : Nat} {v : BitVec w} {a : BitVec wa} {b : BitVec wb}
    (ha : ∀ i < p, v.getLsbD (q + i) = a.getLsbD i) (hb : ∀ i < q, v.getLsbD i = b.getLsbD i) :
    writeBits v (q + p) = (writeBits a p >>= fun _ => writeBits b q) := by
  induction p with
  | zero => exact (writeBits_congr hb).trans (pure_bind () fun _ => writeBits b q).symm
  | succ p ih =>
    rw [← Nat.add_assoc, writeBits, writeBits, ha p p.lt_succ_self, bind_assoc,
      ih fun i hi => ha i (Nat.lt_succ_of_lt hi)]

/-- The number with the `p` low bits of `a` above the `q` low bits of `b` (20_memory R47). -/
def joinedValue (a b : BitVec 32) (p q : Nat) : BitVec 32 :=
  BitVec.ofNat 32 ((a.toNat % 2 ^ p) * 2 ^ q + b.toNat % 2 ^ q)

theorem getLsbD_joinedValue (a b : BitVec 32) (p q : Nat) {i : Nat} (hi : i < 32) :
    (joinedValue a b p q).getLsbD i =
      if i < q then b.getLsbD i else decide (i - q < p) && a.getLsbD (i - q) := by
  have hlt : b.toNat % 2 ^ q < 2 ^ q := Nat.mod_lt _ (Nat.two_pow_pos q)
  rw [joinedValue, BitVec.getLsbD_ofNat, Nat.mul_comm, Nat.testBit_two_pow_mul_add _ hlt, Nat.testBit_mod_two_pow,
    Nat.testBit_mod_two_pow]
  by_cases hq : i < q <;> simp [hi, hq, BitVec.getLsbD]

theorem writeBits_joinedValue (a b : BitVec 32) {p q : Nat} (h : p + q ≤ 32) :
    writeBits (joinedValue a b p q) (p + q) = (writeBits a p >>= fun _ => writeBits b q) := by
  rw [Nat.add_comm p q]
  refine writeBits_join (fun i hi => ?_) fun i hi => ?_
  · rw [getLsbD_joinedValue a b p q (by omega)]
    simp [hi]
  · rw [getLsbD_joinedValue a b p q (by omega), if_pos hi]

/-! ## The response takes no part in a write -/

theorem responded_writer (r : Option Word) : WriterAlike (Responded r) where
  toPortsAlike := (responded_reader r).toPortsAlike
  wrRack h := by rw [h]
  wrCnt h := by rw [h]
  setWrRack _ h := by rw [h]; rfl
  setWriter _ _ h := by rw [h]; rfl
  close h := by rw [h]; rfl

theorem writeBits_responded {v : BitVec w} {n : Nat} {r : Option Word}
    (h : writeBits v n { s with rsp := r } = .ok () t) : writeBits v n s = .ok () { t with rsp := s.rsp } := by
  have ha : Alike (Responded s.rsp) (Responded s.rsp) (writeBits v n { s with rsp := r }) (writeBits v n s) :=
    writeBits_alike id (responded_writer _) v n rfl
  rw [h] at ha
  generalize writeBits v n s = x at ha ⊢
  cases ha with
  | ok _ hr => rw [hr]

/-! ## What WRBIT, WRBITS and WRCLOSE leave unchanged (41_bitwriter R90) -/

/-- `t` is `s` but for what WRBIT, WRBITS and WRCLOSE may change. -/
def WriterFramed (s t : State) : Prop :=
  t = { s with
    wrRack := t.wrRack, wrCnt := t.wrCnt, snk := t.snk, snkClosed := t.snkClosed, fault := t.fault,
    rsp := t.rsp, answers := t.answers }

theorem WriterFramed.refl (s : State) : WriterFramed s s := rfl

theorem WriterFramed.trans (h : WriterFramed s t) (h' : WriterFramed t u) : WriterFramed s u := by
  unfold WriterFramed at h h'
  rw [h] at h'
  exact h'

theorem WriterStep.framed (h : WriterStep s t) : WriterFramed s t := by
  unfold WriterFramed
  rw [h.1]

/-- However `x` ends, in whatever state it starts, it stays within the frame of the BitWriter. -/
def WriterFraming (x : Op α) : Prop :=
  ∀ s, Runs x s (fun _ t => WriterFramed s t) (fun _ t => WriterFramed s t)

theorem WriterFraming.pure (a : α) : WriterFraming (pure a : Op α) := .refl

/-- The rule of sequence. -/
theorem WriterFraming.bind {x : Op α} {f : α → Op β} (hx : WriterFraming x) (hf : ∀ a, WriterFraming (f a)) :
    WriterFraming (x >>= f) := fun s =>
  (runs_bind _ _).2 ((hx s).mono (fun a t ht => (hf a t).mono (fun _ _ => ht.trans) fun _ _ => ht.trans) fun _ _ h => h)

/-- An operation that changes nothing, however it ends. -/
theorem WriterFraming.of_unchanged {x : Op α} (h : ∀ s, Runs x s (fun _ t => t = s) (fun _ t => t = s)) :
    WriterFraming x := fun s =>
  (h s).mono (fun _ _ ht => ht ▸ .refl s) fun _ _ ht => ht ▸ .refl s

theorem checkWidth_framing (cfg : Config) (n : BitVec 6) : WriterFraming (checkWidth cfg n) :=
  .of_unchanged (checkWidth_runs cfg n)

theorem checkOpen_framing : WriterFraming checkOpen := .of_unchanged checkOpen_runs

theorem writeBit_framing (b : Bool) : WriterFraming (writeBit b) := fun s =>
  (writeBit_runs b s).mono (fun _ _ h => h.framed) fun _ _ h => h.1.framed

theorem writeBits_framing (v : BitVec w) (n : Nat) : WriterFraming (writeBits v n) := fun s =>
  (writeBits_runs v n s).mono (fun _ _ h => h.framed) fun _ _ h => h.1.framed

theorem closeWriter_framing : WriterFraming closeWriter := fun s => by
  refine (closeWriter_runs s).mono ?_ fun _ _ h => h.1.framed
  rintro _ _ ⟨v, hv, rfl⟩
  exact hv.framed.trans rfl

theorem runCommand_writerFramed {body : Op Word} (hb : WriterFraming body) (h : runCommand body s = .next t) :
    WriterFramed s t :=
  runCommand_keeps (P := WriterFramed s) h (fun _ _ => rfl) fun _ =>
    (hb s).mono (fun _ _ hu => hu.trans rfl) fun _ _ hu _ _ => hu.trans rfl

end Sys2Proof.Machine

section

open Sys2Proof Sys2Proof.Machine

/-- Settles O25: `WriteBits` places the low bits one after the other, each above the bits not yet placed. -/
theorem wrbitsAppendsBits : Obligations.WrbitsAppendsBits := by
  unfold Obligations.WrbitsAppendsBits
  intro s n value ⟨hf, hs⟩ ho hl
  obtain ⟨t, hw, ⟨hframe, -, -⟩, hplaced⟩ := writeBits_placed value n.toNat hs ho
  have hkept : Tidy s → Tidy t := fun h => (writeBits_tidy value n.toNat h).of_ok hw
  refine ⟨_, execWrbits_of_writeBits hf hl ho hw, rfl, hplaced, ?_, hkept⟩
  rw [hframe]

/-- Settles O26: the bits of the joined value are those of the two fields, one after the other. -/
theorem wrbitsComposes : Obligations.WrbitsComposes := by
  unfold Obligations.WrbitsComposes
  intro s t u p q a b hpq ht hrt hu hru
  obtain ⟨hf, hl, ho, t', hwa, rfl⟩ := execWrbits_okPlain ht hrt
  obtain ⟨-, -, -, u', hwb, rfl⟩ := execWrbits_okPlain hu hru
  obtain ⟨hadd, hlpq⟩ := legalWidth_add hl hpq
  have hjoined := congrFun (writeBits_joinedValue a b hpq) s
  rw [op_bind_of_ok hwa, writeBits_responded hwb, ← hadd] at hjoined
  exact (execWrbits_of_writeBits hf hlpq ho hjoined :)

/-- Settles O28: whatever the host answers, the operations of the three commands stay within the frame. -/
theorem writerFrame : Obligations.WriterFrame := by
  unfold Obligations.WriterFrame
  rintro _ s t (⟨b, rfl⟩ | ⟨n, v, rfl⟩ | rfl) h
  · exact runCommand_writerFramed (checkOpen_framing.bind fun _ => (writeBit_framing b).bind fun _ => .pure _) h
  · exact runCommand_writerFramed ((checkWidth_framing hw n).bind fun _ => checkOpen_framing.bind fun _ =>
      (writeBits_framing v _).bind fun _ => .pure _) h
  · exact runCommand_writerFramed (checkOpen_framing.bind fun _ => closeWriter_framing.bind fun _ => .pure _) h

/-- Settles O17: each of the four commands checks the sink before any statement that has an effect. -/
theorem closedSinkRefused : Obligations.ClosedSinkRefused := by
  unfold Obligations.ClosedSinkRefused
  rintro _ s hf hc hl (⟨b, rfl⟩ | ⟨n, v, rfl⟩ | rfl | rfl)
  · exact runCommand_checkOpen_closed hf hc _
  · exact execWrbits_closed v hf hc hl
  · exact runCommand_checkOpen_closed hf hc _
  · exact runCommand_checkOpen_closed hf hc _

/-- Settles O24: `WriteBit` either leaves the bit in the rack or writes the full byte to the sink. -/
theorem wrbitPlaces : Obligations.WrbitPlaces := by
  unfold Obligations.WrbitPlaces
  refine ⟨fun rack k b j hk => ?_, fun s b ⟨hf, hs⟩ ho => ⟨fun hc => ?_, fun hc => ?_⟩⟩
  · by_cases hj : j = k
    · rw [if_pos hj, hj, setRackBit_self rack hk]
    · rw [if_neg hj, setRackBit_other rack hj]
  · exact execWrbit_of_writeBit hf ho (writeBit_places hc b)
  · exact execWrbit_of_writeBit hf ho (writeBit_flushes hs ho hc b)

/-- Settles O27. -/
theorem wrcloseFlushes : Obligations.WrcloseFlushes := fun _ => execWrclose_served

end

namespace Sys2Proof.Machine

variable {s t u : State} {d : List (Nat × DictEntry)} {p : Code} {c : Byte} {slot : Nat} {e : DictEntry}

/-! ## The path of a probe in closed form (42_encode_dictionary R101, R102) -/

/-- How far the path of a probe goes upwards, modulo `CAPACITY`, with each slot: `CAPACITY - step`. -/
def stride (cfg : Config) (home : Nat) : Nat := cfg.capacity - probeStep cfg home

theorem stride_eq {home : Nat} (h : home < 5021) : stride hw home = if home = 0 then 5020 else home := by
  have hcap : hw.capacity = 5021 := rfl
  unfold stride probeStep
  split_ifs <;> omega

theorem nextSlot_eq {home i : Nat} (h : home < 5021) (hi : i < 5021) :
    nextSlot hw (probeStep hw home) i = (i + stride hw home) % 5021 := by
  have hcap : hw.capacity = 5021 := rfl
  have hstep : probeStep hw home + stride hw home = 5021 := by
    unfold stride probeStep
    split_ifs <;> omega
  have hpos : 0 < probeStep hw home := by
    unfold probeStep
    split_ifs <;> omega
  unfold nextSlot
  split_ifs <;> omega

theorem hash_eq (p : Code) (c : Byte) : hash hw p c = ((c.toNat * 16) ^^^ p.toNat) % 5021 := by
  unfold hash
  rw [Nat.shiftLeft_eq]
  rfl

theorem hash_lt (p : Code) (c : Byte) : hash hw p c < 5021 := Nat.mod_lt _ (by decide)

theorem probeSlot_zero_eq_hash (p : Code) (c : Byte) : probeSlot p c 0 = hash hw p c := rfl

theorem probeSlot_succ (p : Code) (c : Byte) (j : Nat) :
    probeSlot p c (j + 1) = nextSlot hw (probeStep hw (hash hw p c)) (probeSlot p c j) :=
  Function.iterate_succ_apply' ..

theorem probeSlot_eq (p : Code) (c : Byte) (j : Nat) :
    probeSlot p c j = (hash hw p c + j * stride hw (hash hw p c)) % 5021 := by
  have hh := hash_lt p c
  induction j with
  | zero => rw [probeSlot_zero_eq_hash, Nat.zero_mul, Nat.add_zero, Nat.mod_eq_of_lt hh]
  | succ j ih =>
    rw [probeSlot_succ, ih, nextSlot_eq hh (Nat.mod_lt _ (by decide)), Nat.mod_add_mod, Nat.add_assoc, Nat.succ_mul]

theorem probeSlot_lt (p : Code) (c : Byte) (j : Nat) : probeSlot p c j < 5021 := by
  rw [probeSlot_eq]
  exact Nat.mod_lt _ (by decide)

/-- R102: the multiples of a home index above 0; from 0 the slots downwards. -/
theorem probeSlot_eq_ite (p : Code) (c : Byte) {j : Nat} (hj : j < 5021) :
    probeSlot p c j = if hash hw p c = 0 then (5021 - j) % 5021 else ((j + 1) * hash hw p c) % 5021 := by
  rw [probeSlot_eq, stride_eq (hash_lt p c)]
  split_ifs with h
  · omega
  · rw [Nat.succ_mul, Nat.add_comm]

/-- R106 (a): `CAPACITY` is prime, so the multiples of the stride are all the residues. -/
theorem exists_probeSlot_eq (p : Code) (c : Byte) (hslot : slot < 5021) : ∃ j < 5021, probeSlot p c j = slot := by
  have hh := hash_lt p c
  have hstride : stride hw (hash hw p c) ≠ 0 ∧ stride hw (hash hw p c) < 5021 := by
    rw [stride_eq hh]
    split_ifs <;> omega
  have hcop := (Nat.coprime_of_lt_prime hstride.1 hstride.2 (by norm_num)).symm
  obtain ⟨j, hj, he⟩ := Nat.exists_mul_mod_eq_of_coprime (slot + (5021 - hash hw p c)) hcop (by decide)
  refine ⟨j, hj, ?_⟩
  rw [probeSlot_eq, Nat.mul_comm]
  omega

/-! ## Where a probe ends (42_encode_dictionary R102) -/

/-- Slot `slot` holds another key than `(p, c)`, so a probe of `(p, c)` goes past it. -/
def HoldsOther (d : List (Nat × DictEntry)) (p : Code) (c : Byte) (slot : Nat) : Prop :=
  ∃ e, lookup d slot = some e ∧ ¬(e.parent = p ∧ e.char = c)

/-- A probe of `(p, c)` examines slot `slot`: every slot before it on the path holds another key. -/
def Reaches (d : List (Nat × DictEntry)) (p : Code) (c : Byte) (slot : Nat) : Prop :=
  ∃ k < 5021, probeSlot p c k = slot ∧ ∀ j < k, HoldsOther d p c (probeSlot p c j)

theorem not_holdsOther_of_empty (h : lookup d slot = none) : ¬HoldsOther d p c slot := by
  rintro ⟨e, he, -⟩
  rw [h] at he
  cases he

/-- A slot that a probe does not go past is EMPTY or holds the key. -/
theorem empty_or_key_of_not_holdsOther (h : ¬HoldsOther d p c slot) :
    lookup d slot = none ∨ ∃ code, lookup d slot = some ⟨code, p, c⟩ := by
  cases hl : lookup d slot with
  | none => exact .inl rfl
  | some e =>
    obtain ⟨rfl, rfl⟩ : e.parent = p ∧ e.char = c := by_contra fun hk => h ⟨e, hl, hk⟩
    exact .inr ⟨e.code, rfl⟩

/-- After `k` slots of other keys the probe stands at the `k`-th slot of its path. -/
theorem probeDict_eq_probeFrom {k : Nat} (hk : k ≤ 5021) (h : ∀ j < k, HoldsOther d p c (probeSlot p c j)) :
    probeDict hw d p c = probeFrom hw d p c (probeStep hw (hash hw p c)) (5021 - k) (probeSlot p c k) := by
  induction k with
  | zero => rfl
  | succ k ih =>
    obtain ⟨e, he, hne⟩ := h k k.lt_succ_self
    have hfuel : 5021 - k = 5021 - (k + 1) + 1 := by omega
    rw [ih (by omega) fun j hj => h j (by omega), hfuel, probeFrom_other he hne, probeSlot_succ]

theorem Reaches.lt (h : Reaches d p c slot) : slot < 5021 := by
  obtain ⟨k, -, rfl, -⟩ := h
  exact probeSlot_lt p c k

theorem Reaches.probeDict_eq_probeFrom (h : Reaches d p c slot) :
    ∃ n, probeDict hw d p c = probeFrom hw d p c (probeStep hw (hash hw p c)) (n + 1) slot := by
  obtain ⟨k, hk, rfl, hother⟩ := h
  have hfuel : 5021 - k = 5021 - k - 1 + 1 := by omega
  exact ⟨_, hfuel ▸ Machine.probeDict_eq_probeFrom hk.le hother⟩

theorem Reaches.probeDict_eq_miss (h : Reaches d p c slot) (hl : lookup d slot = none) :
    probeDict hw d p c = .miss slot := by
  obtain ⟨n, hn⟩ := h.probeDict_eq_probeFrom
  rw [hn, probeFrom_empty hl]

theorem Reaches.probeDict_eq_hit (h : Reaches d p c slot) (hl : lookup d slot = some e)
    (hk : e.parent = p ∧ e.char = c) : probeDict hw d p c = .hit slot e := by
  obtain ⟨n, hn⟩ := h.probeDict_eq_probeFrom
  rw [hn, probeFrom_match hl hk]

/-- When some slot of the path does not hold another key, the probe reaches the first such slot. -/
theorem exists_reaches {k : Nat} (hk : k < 5021) (h : ¬HoldsOther d p c (probeSlot p c k)) :
    ∃ slot, Reaches d p c slot ∧ ¬HoldsOther d p c slot := by
  classical
  have hex : ∃ k, ¬HoldsOther d p c (probeSlot p c k) := ⟨k, h⟩
  exact ⟨_, ⟨Nat.find hex, (Nat.find_min' hex h).trans_lt hk, rfl, fun j hj => not_not.1 (Nat.find_min hex hj)⟩,
    Nat.find_spec hex⟩

/-- A probe that goes past every slot of its path is exhausted; any other ends at a slot it reaches. -/
theorem reaches_or_exhausted (d : List (Nat × DictEntry)) (p : Code) (c : Byte) :
    (∃ slot, Reaches d p c slot ∧ ¬HoldsOther d p c slot) ∨ probeDict hw d p c = .exhausted := by
  by_cases h : ∀ j < 5021, HoldsOther d p c (probeSlot p c j)
  · exact .inr (probeDict_eq_probeFrom le_rfl h)
  · obtain ⟨k, hk, hne⟩ : ∃ k < 5021, ¬HoldsOther d p c (probeSlot p c k) := by simpa using h
    exact .inl (exists_reaches hk hne)

/-- The three results of a probe, each with what it says of the slots. -/
theorem probeDict_cases (d : List (Nat × DictEntry)) (p : Code) (c : Byte) :
    (∃ slot, Reaches d p c slot ∧ lookup d slot = none ∧ probeDict hw d p c = .miss slot) ∨
    (∃ slot code, Reaches d p c slot ∧ lookup d slot = some ⟨code, p, c⟩ ∧
      probeDict hw d p c = .hit slot ⟨code, p, c⟩) ∨
    probeDict hw d p c = .exhausted := by
  rcases reaches_or_exhausted d p c with ⟨slot, hr, hne⟩ | h
  · rcases empty_or_key_of_not_holdsOther hne with hl | ⟨code, hl⟩
    · exact .inl ⟨slot, hr, hl, hr.probeDict_eq_miss hl⟩
    · exact .inr (.inl ⟨slot, code, hr, hl, hr.probeDict_eq_hit hl ⟨rfl, rfl⟩⟩)
  · exact .inr (.inr h)

/-- A miss is at the EMPTY slot the probe reaches. -/
theorem probeDict_eq_miss_iff : probeDict hw d p c = .miss slot ↔ Reaches d p c slot ∧ lookup d slot = none := by
  refine ⟨fun h => ?_, fun ⟨hr, hl⟩ => hr.probeDict_eq_miss hl⟩
  rcases probeDict_cases d p c with ⟨slot', hr, hl, hm⟩ | ⟨slot', code, hr, hl, hm⟩ | hm
  · cases h.symm.trans hm
    exact ⟨hr, hl⟩
  · cases h.symm.trans hm
  · cases h.symm.trans hm

/-- A hit is at the slot of the key when the probe reaches it. -/
theorem probeDict_eq_hit_iff : probeDict hw d p c = .hit slot e ↔
    Reaches d p c slot ∧ lookup d slot = some e ∧ e.parent = p ∧ e.char = c := by
  refine ⟨fun h => ?_, fun ⟨hr, hl, hk⟩ => hr.probeDict_eq_hit hl hk⟩
  rcases probeDict_cases d p c with ⟨slot', hr, hl, hm⟩ | ⟨slot', code, hr, hl, hm⟩ | hm
  · cases h.symm.trans hm
  · cases h.symm.trans hm
    exact ⟨hr, hl, rfl, rfl⟩
  · cases h.symm.trans hm

/-! ## Reserving an EMPTY slot leaves the path to every occupied slot (42_encode_dictionary R106 (c)) -/

theorem HoldsOther.insert {i : Nat} (h : HoldsOther d p c i) (hl : lookup d slot = none) (x : DictEntry) :
    HoldsOther (insert d slot x) p c i := by
  obtain ⟨e, he, hne⟩ := h
  have hi : i ≠ slot := by
    rintro rfl
    rw [hl] at he
    cases he
  exact ⟨e, by rw [lookup_insert, if_neg hi, he], hne⟩

theorem Reaches.insert {i : Nat} (h : Reaches d p c i) (hl : lookup d slot = none) (x : DictEntry) :
    Reaches (insert d slot x) p c i := by
  obtain ⟨k, hk, hi, hother⟩ := h
  exact ⟨k, hk, hi, fun j hj => (hother j hj).insert hl x⟩

/-- Every entry of such a dictionary is reached by a probe of its own key. -/
theorem Built.reaches (hb : Built d) : ∀ slot e, lookup d slot = some e → Reaches d e.parent e.char slot := by
  induction hb with
  | clear => intro slot e h; cases h
  | @reserve d slot p c code _ hmiss ih =>
    obtain ⟨hreach, hempty⟩ := probeDict_eq_miss_iff.1 hmiss
    intro i e h
    rw [lookup_insert] at h
    split_ifs at h with hi
    · cases h
      exact hi ▸ hreach.insert hempty _
    · exact (ih i e h).insert hempty _

/-! ## The end of DPROBE (42_encode_dictionary R104) -/

theorem probe_of_miss (h : probeDict hw s.dict p c = .miss slot) : probe hw p c s = .ok (.miss slot) s := by
  rw [probe_run, h, if_neg (by simp)]

theorem probe_of_hit (h : probeDict hw s.dict p c = .hit slot e) : probe hw p c s = .ok (.hit slot e) s := by
  rw [probe_run, h, if_neg (by simp)]

theorem execDprobe_of_miss (hf : s.fault = none) (hr : Reaches s.dict p c slot) (hl : lookup s.dict slot = none) :
    exec (.dprobe p c) s = .next { s with rsp := some (okWord false (BitVec.ofNat 13 slot) 0) } :=
  runCommand_ok hf (op_bind_of_ok (probe_of_miss (hr.probeDict_eq_miss hl)) _)

theorem execDprobe_of_hit {code : Code} (hf : s.fault = none) (hr : Reaches s.dict p c slot)
    (hl : lookup s.dict slot = some ⟨code, p, c⟩) : exec (.dprobe p c) s =
      .next { s with rsp := some (okWord true (BitVec.ofNat 13 slot) (code ++ 0#20)) } :=
  runCommand_ok hf (op_bind_of_ok (probe_of_hit (hr.probeDict_eq_hit hl ⟨rfl, rfl⟩)) _)

/-! ## What DCLR, DPROBE and DRSRV leave unchanged (42_encode_dictionary R100) -/

theorem probe_runs (cfg : Config) (p : Code) (c : Byte) (s : State) :
    Runs (probe cfg p c) s (fun _ t => t = s) (fun _ t => t = s) := by
  unfold Runs
  rw [probe_run]
  split_ifs <;> rfl

/-- `t` is `s` but for what DCLR, DPROBE and DRSRV may change. -/
def DictFramed (s t : State) : Prop := t = { s with dict := t.dict, fault := t.fault, rsp := t.rsp }

theorem DictFramed.refl (s : State) : DictFramed s s := rfl

theorem DictFramed.trans (h : DictFramed s t) (h' : DictFramed t u) : DictFramed s u := by
  unfold DictFramed at h h'
  rw [h] at h'
  exact h'

theorem runCommand_dictFramed {body : Op Word} (h : runCommand body s = .next t)
    (hb : Runs body s (fun _ u => DictFramed s u) (fun _ u => DictFramed s u)) : DictFramed s t :=
  runCommand_keeps (P := DictFramed s) h (fun _ _ => rfl) fun _ =>
    hb.mono (fun _ _ hu => hu.trans rfl) fun _ _ hu _ _ => hu.trans rfl

theorem execDclr_framed (h : exec .dclr s = .next t) : DictFramed s t :=
  runCommand_dictFramed (body := do dictClear; pure okPlain) h rfl

theorem execDprobe_framed (h : exec (.dprobe p c) s = .next t) : DictFramed s t :=
  runCommand_dictFramed h <| (runs_bind _ _).2 <|
    (probe_runs hw p c s).mono (fun _ _ hu => hu ▸ .refl s) fun _ _ hu => hu ▸ .refl s

theorem execDprobe_dict (h : exec (.dprobe p c) s = .next t) : t.dict = s.dict := by
  refine runCommand_keeps (P := fun t => t.dict = s.dict) h (fun _ _ => rfl) fun _ =>
    (runs_bind _ _).2 ((probe_runs hw p c s).mono ?_ ?_)
  · rintro _ _ rfl
    rfl
  · rintro _ _ rfl _ _
    rfl

theorem execDrsrv_framed {slot : SlotIndex} {code : Code} (h : exec (.drsrv slot code p c) s = .next t) :
    DictFramed s t := by
  refine runCommand_dictFramed h ((runs_bind _ _).2 ((checkReserve_runs hw slot code s).mono ?_ ?_))
  · rintro _ _ ⟨rfl, -, -⟩
    rfl
  · rintro _ _ rfl
    rfl

/-! ## The end of DCLR and DRSRV (42_encode_dictionary R103, R105) -/

theorem execDclr_ready (hf : s.fault = none) : exec .dclr s = .next { s with dict := [], rsp := some okPlain } :=
  runCommand_ok (body := do dictClear; pure okPlain) hf rfl

theorem checkReserve_legal {slot : SlotIndex} {code : Code} (hs : slot.toNat < 5021)
    (hl : lookup s.dict slot.toNat = none) (hc : 257 ≤ code.toNat) : checkReserve hw slot code s = .ok () s := by
  rw [checkReserve_run, (legalSlot_iff slot).2 hs, (legalCode_iff code).2 hc, hl]
  rfl

theorem execDrsrv_of_check {slot : SlotIndex} {code : Code} (hf : s.fault = none)
    (h : checkReserve hw slot code s = .ok () s) : exec (.drsrv slot code p c) s =
      .next { s with dict := insert s.dict slot.toNat ⟨code, p, c⟩, rsp := some okPlain } :=
  runCommand_ok (t := { s with dict := insert s.dict slot.toNat ⟨code, p, c⟩ }) hf (op_bind_of_ok h _)

end Sys2Proof.Machine

section

open Sys2Proof Sys2Proof.Machine

/-- Settles O31: the path is the home index and the multiples of a stride that is not 0 modulo the prime 5021. -/
theorem probePathCoversSlots : Obligations.ProbePathCoversSlots := by
  unfold Obligations.ProbePathCoversSlots
  exact fun p c => ⟨hash_eq p c, fun _ => probeSlot_eq_ite p c, fun _ => exists_probeSlot_eq p c⟩

/-- Settles O32: the probe reaches the `k`-th slot of its path. -/
theorem dprobeAnswersFirst : Obligations.DprobeAnswersFirst := by
  unfold Obligations.DprobeAnswersFirst
  intro s p c k hf hk hother
  have hr : Reaches s.dict p c (probeSlot p c k) := ⟨k, hk, rfl, hother⟩
  exact ⟨execDprobe_of_miss hf hr, fun _ => execDprobe_of_hit hf hr⟩

/-- Settles O33: the EMPTY slot is on the path, so the probe reaches a slot that does not hold another key. -/
theorem dprobeCompletes : Obligations.DprobeCompletes := by
  unfold Obligations.DprobeCompletes
  intro s p c free hf hfree hempty
  obtain ⟨j, hj, rfl⟩ := exists_probeSlot_eq p c hfree
  obtain ⟨slot, hr, hstop⟩ := exists_reaches hj (not_holdsOther_of_empty hempty)
  refine ⟨slot, hr.lt, (empty_or_key_of_not_holdsOther hstop).imp (fun hl => ⟨hl, ?_⟩) ?_⟩
  · exact execDprobe_of_miss hf hr hl
  · rintro ⟨code, hl⟩
    exact ⟨code, hl, execDprobe_of_hit hf hr hl⟩

/-- Settles O35. -/
theorem drsrvReserves : Obligations.DrsrvReserves := by
  unfold Obligations.DrsrvReserves
  intro s slot code parent ch hf hslot hempty hcode
  exact ⟨_, execDrsrv_of_check hf (checkReserve_legal hslot hempty hcode), fun h => rising_insert h _ _,
    lookup_insert _ _ _⟩

/-- Settles O36: no reserve breaks the path to an entry, so the probe of each reserved key reaches its slot. -/
theorem probeFindsExactlyReserved : Obligations.ProbeFindsExactlyReserved := by
  unfold Obligations.ProbeFindsExactlyReserved
  intro d hb p c slot e
  rw [probeDict_eq_hit_iff]
  refine ⟨fun ⟨_, h⟩ => h, ?_⟩
  rintro ⟨hl, rfl, rfl⟩
  exact ⟨hb.reaches slot e hl, hl, rfl, rfl⟩

/-- Settles O37. -/
theorem dictionaryFrame : Obligations.DictionaryFrame := by
  unfold Obligations.DictionaryFrame
  rintro _ s t (rfl | ⟨p, c, rfl⟩ | ⟨slot, code, p, c, rfl⟩) h
  · exact ⟨execDclr_framed h, by simp⟩
  · exact ⟨execDprobe_framed h, fun _ => execDprobe_dict h⟩
  · exact ⟨execDrsrv_framed h, by simp⟩

/-- Settles O30: in the cleared dictionary a probe ends at the first slot of its path, the home index. -/
theorem dclrClears : Obligations.DclrClears := by
  unfold Obligations.DclrClears
  refine ⟨by decide, fun s hf => ⟨execDclr_ready hf, fun p c => ?_⟩⟩
  have hr : Reaches [] p c (hash hw p c) := ⟨0, by decide, rfl, fun j hj => absurd hj j.not_lt_zero⟩
  exact execDprobe_of_miss (s := { s with dict := [] }) hf hr rfl

end

namespace Sys2Proof.Machine

variable {s t : State}

/-! ## Bytes pushed one after another (43_decode_table R113) -/

/-- The stack's storage after `bytes` were written to the entries from `i` on. -/
def writeRun (m : List Host.Cell) (i : Nat) : List Byte → List Host.Cell
  | [] => m
  | b :: bytes => writeRun (stkWrite m i b) (i + 1) bytes

/-- The state after pushes of `bytes`, the first one lowest. -/
def pushed (bytes : List Byte) (s : State) : State :=
  { s with stk := writeRun s.stk s.sp.toNat bytes, sp := s.sp + BitVec.ofNat 13 bytes.length }

/-- Entries outside the run keep what they held. -/
theorem stkRead_writeRun_outside (m : List Host.Cell) {i j : Nat} (bytes : List Byte)
    (h : j < i ∨ i + bytes.length ≤ j) : stkRead (writeRun m i bytes) j = stkRead m j := by
  induction bytes generalizing m i with
  | nil => rfl
  | cons b bytes ih =>
    rw [List.length_cons] at h
    exact (ih (stkWrite m i b) (by omega)).trans (stkRead_write_of_ne m b (by omega))

/-- The entries from the start of the run on hold its bytes, and then what they held. -/
theorem stkRead_writeRun {m : List Host.Cell} (hm : rising m) (i j : Nat) (bytes : List Byte) :
    stkRead (writeRun m i bytes) (i + j) = (bytes[j]?).getD (stkRead m (i + j)) := by
  induction bytes generalizing m i j with
  | nil => rfl
  | cons b bytes ih =>
    rw [writeRun]
    cases j with
    | zero => exact (stkRead_writeRun_outside _ bytes (.inl i.lt_succ_self)).trans (stkRead_write_self hm i b)
    | succ j =>
      have hj : i + (j + 1) = i + 1 + j := by omega
      rw [hj, ih (rising_stkWrite hm i b), stkRead_write_of_ne m b (by omega), List.getElem?_cons_succ]

theorem pushed_nil (s : State) : pushed [] s = s := by simp [pushed, writeRun]

/-- The first of several pushes, onto a stack that is not full. -/
theorem pushed_cons (hl : s.sp.toNat ≤ hw.stackDepth) (hne : s.sp.toNat ≠ hw.stackDepth) (b : Byte)
    (bytes : List Byte) :
    pushed (b :: bytes) s = pushed bytes { s with stk := stkWrite s.stk s.sp.toNat b, sp := s.sp + 1 } := by
  have hsp : s.sp + BitVec.ofNat 13 (bytes.length + 1) = s.sp + 1 + BitVec.ofNat 13 bytes.length := by
    rw [BitVec.add_assoc, Nat.add_comm, BitVec.ofNat_add]
    rfl
  simp only [pushed, writeRun, sp_succ hl hne, List.length_cons, hsp]

theorem pushed_sp (s : State) {bytes : List Byte} (h : s.sp.toNat + bytes.length ≤ hw.stackDepth) :
    (pushed bytes s).sp.toNat = s.sp.toNat + bytes.length := by
  have hle : s.sp.toNat + bytes.length ≤ 4096 := h
  rw [pushed, BitVec.toNat_add, BitVec.toNat_ofNat]
  omega

/-- Entries from the old `sp` on hold the bytes pushed, and then what they held. -/
theorem stkRead_pushed (hm : rising s.stk) (bytes : List Byte) (j : Nat) :
    stkRead (pushed bytes s).stk (s.sp.toNat + j) = (bytes[j]?).getD (stkRead s.stk (s.sp.toNat + j)) :=
  stkRead_writeRun hm _ j bytes

/-- Entries at or above the new `sp` keep what they held. -/
theorem stkRead_pushed_above {bytes : List Byte} (h : s.sp.toNat + bytes.length ≤ hw.stackDepth) {a : Nat}
    (ha : (pushed bytes s).sp.toNat ≤ a) : stkRead (pushed bytes s).stk a = stkRead s.stk a :=
  stkRead_writeRun_outside _ _ (.inr (pushed_sp s h ▸ ha))

/-- The top of the stack after pushes is the last byte pushed. -/
theorem stackTop_pushed (hm : rising s.stk) {bytes : List Byte} (hne : bytes ≠ [])
    (h : s.sp.toNat + bytes.length ≤ hw.stackDepth) : stackTop (pushed bytes s) = bytes.getLastD 0 := by
  have hpos : 0 < bytes.length := List.length_pos_iff.2 hne
  have htop : ((pushed bytes s).sp - 1).toNat = s.sp.toNat + (bytes.length - 1) := by
    have hsp := pushed_sp s h
    bv_omega
  rw [stackTop, htop, stkRead_pushed hm, List.getLastD_eq_getLast?, List.getLast?_eq_getElem?,
    List.getElem?_eq_getElem (by omega)]
  rfl

/-! ## What a walk pushes (43_decode_table R113) -/

/-- `t` is `s` after some pushes that the stack had room for. -/
def PushedSome (s t : State) : Prop :=
  ∃ bytes : List Byte, s.sp.toNat + bytes.length ≤ hw.stackDepth ∧ t = pushed bytes s

theorem PushedSome.refl (h : s.sp.toNat ≤ hw.stackDepth) : PushedSome s s := ⟨[], h, (pushed_nil s).symm⟩

theorem PushedSome.of_push (hl : s.sp.toNat ≤ hw.stackDepth) (hne : s.sp.toNat ≠ hw.stackDepth) {b : Byte}
    (h : PushedSome { s with stk := stkWrite s.stk s.sp.toNat b, sp := s.sp + 1 } t) : PushedSome s t := by
  obtain ⟨bytes, hroom, rfl⟩ := h
  simp only [sp_succ hl hne] at hroom
  exact ⟨b :: bytes, by rw [List.length_cons]; omega, (pushed_cons hl hne b bytes).symm⟩

/-- A push, then an operation that pushes. -/
theorem push_bind_pushedSome {f : Unit → Op Unit} (hl : s.sp.toNat ≤ hw.stackDepth) (b : Byte)
    (hf : ∀ t : State, t.sp.toNat ≤ hw.stackDepth →
      Runs (f ()) t (fun _ u => PushedSome t u) (fun _ u => PushedSome t u)) :
    Runs (push hw b >>= f) s (fun _ t => PushedSome s t) (fun _ t => PushedSome s t) := by
  unfold Runs
  by_cases hfull : s.sp.toNat = hw.stackDepth
  · rw [op_bind_of_error (push_full hfull b)]
    exact .refl hl
  · rw [op_bind_of_ok (push_room hfull b)]
    exact (hf _ (by simp only [sp_succ hl hfull]; omega)).mono (fun _ _ => .of_push hl hfull)
      fun _ _ => .of_push hl hfull

/-- However a walk ends, it has pushed bytes and done nothing else. -/
theorem walkFrom_pushedSome (n : Nat) (k : Code) (hl : s.sp.toNat ≤ hw.stackDepth) :
    Runs (walkFrom hw n k) s (fun _ t => PushedSome s t) (fun _ t => PushedSome s t) := by
  induction n generalizing k s with
  | zero => exact .refl hl
  | succ n ih =>
    rcases lt_trichotomy k.toNat eos with hk | hk | hk
    · rw [walkFrom_literal hk, ← bind_pure (push hw _)]
      exact push_bind_pushedSome hl _ fun t ht => .refl ht
    · unfold Runs
      rw [walkFrom_sentinel hk]
      exact .refl hl
    · unfold Runs
      cases hc : lookup s.table k.toNat with
      | none =>
        rw [walkFrom_unused hk hc]
        exact .refl hl
      | some e =>
        rw [walkFrom_cell hk hc]
        exact push_bind_pushedSome hl _ fun t ht => ih e.parent ht

/-- A chain that resolves is a literal, or an assigned cell whose parent's chain resolves. -/
theorem chainBytes_succ_eq_some {m : List (Nat × TableEntry)} {n : Nat} {k : Code} {bytes : List Byte}
    (h : chainBytes m (n + 1) k = some bytes) :
    (k.toNat < eos ∧ bytes = [k.setWidth 8]) ∨
    (eos < k.toNat ∧ ∃ e rest, lookup m k.toNat = some e ∧ chainBytes m n e.parent = some rest ∧
      bytes = e.char :: rest) := by
  rw [chainBytes] at h
  split_ifs at h with hlit heos
  · exact .inl ⟨hlit, (Option.some.inj h).symm⟩
  · cases hc : lookup m k.toNat with
    | none => simp [hc] at h
    | some e =>
      simp only [hc, Option.map_eq_some_iff] at h
      obtain ⟨rest, hrest, rfl⟩ := h
      exact .inr ⟨by omega, e, rest, rfl, hrest, rfl⟩

/-- A sequence has at least one byte and at most as many as were allowed. -/
theorem chainBytes_length {m : List (Nat × TableEntry)} {n : Nat} {k : Code} {bytes : List Byte}
    (h : chainBytes m n k = some bytes) : 1 ≤ bytes.length ∧ bytes.length ≤ n := by
  induction n generalizing k bytes with
  | zero => cases h
  | succ n ih =>
    obtain ⟨-, rfl⟩ | ⟨-, e, rest, -, hrest, rfl⟩ := chainBytes_succ_eq_some h
    · simp
    · have := ih hrest
      simp only [List.length_cons]
      omega

/-- A walk of a chain that resolves pushes its sequence, last byte first. -/
theorem walkFrom_resolves {n fuel : Nat} {k : Code} {bytes : List Byte} (h : chainBytes s.table n k = some bytes)
    (hroom : s.sp.toNat + bytes.length ≤ hw.stackDepth) (hfuel : bytes.length ≤ fuel) :
    walkFrom hw fuel k s = .ok () (pushed bytes s) := by
  induction n generalizing fuel k bytes s with
  | zero => cases h
  | succ n ih =>
    have hpos := (chainBytes_length h).1
    have hl : s.sp.toNat ≤ hw.stackDepth := by omega
    have hne : s.sp.toNat ≠ hw.stackDepth := by omega
    obtain ⟨fuel, rfl⟩ : ∃ f, fuel = f + 1 := ⟨fuel - 1, by omega⟩
    obtain ⟨hk, rfl⟩ | ⟨hk, e, rest, hc, hrest, rfl⟩ := chainBytes_succ_eq_some h
    · rw [walkFrom_literal hk, push_room hne, pushed_cons hl hne, pushed_nil]
    · rw [List.length_cons] at hroom hfuel
      rw [walkFrom_cell hk hc, op_bind_of_ok (push_room hne _), pushed_cons hl hne]
      exact ih hrest (by simp only [sp_succ hl hne]; omega) (by omega)

/-- `Walk` of a code that resolves within the stack. -/
theorem walk_resolves {n : Nat} {code : Code} {sp0 : BitVec 13} {bytes : List Byte}
    (h : chainBytes s.table n code = some bytes) (hroom : sp0.toNat + bytes.length ≤ hw.stackDepth) :
    walk hw code sp0 s = .ok () (pushed bytes { s with sp := sp0 }) :=
  walkFrom_resolves (s := { s with sp := sp0 }) h hroom (by omega)

/-! ## What `Emit` writes when the host serves the ports (43_decode_table R115) -/

/-- The valid entries of the stack, top first. -/
def topFirst (s : State) : List Byte := (List.range s.sp.toNat).reverse.map (stkRead s.stk)

theorem topFirst_empty (h : s.sp = 0) : topFirst s = [] := by
  rw [topFirst, h]
  rfl

theorem topFirst_pop {n : Nat} (hn : s.sp.toNat = n + 1) :
    topFirst s = stkRead s.stk n :: topFirst { s with sp := s.sp - 1 } := by
  have hd : (s.sp - 1).toNat = n := by bv_omega
  simp only [topFirst, hn, hd, List.range_succ, List.reverse_append, List.reverse_singleton, List.singleton_append,
    List.map_cons]

theorem emitFrom_served {n : Nat} (hn : s.sp.toNat = n) (hs : Served s) (ho : s.snkClosed = false) :
    emitFrom n s = .ok () { s with sp := 0, snk := s.snk ++ topFirst s, answers := s.answers.drop n } := by
  induction n generalizing s with
  | zero =>
    have hsp : s.sp = 0 := BitVec.eq_of_toNat_eq hn
    rw [topFirst_empty hsp, List.append_nil, List.drop_zero, ← hsp]
    rfl
  | succ n ih =>
    have hd : (s.sp - 1).toNat = n := by bv_omega
    have hpop : emitFrom (n + 1) s = emitFrom n
        { s with sp := s.sp - 1, answers := s.answers.tail, snk := s.snk ++ [stkRead s.stk n] } := by
      rw [emitFrom_succ, hd]
      exact op_bind_of_ok (snkWrite_served (s := { s with sp := s.sp - 1 }) hs ho _) _
    refine hpop.trans ((ih ?_ ?_ ?_).trans ?_)
    · exact hd
    · exact served_tail hs
    · exact ho
    · rw [topFirst_pop hn, List.append_assoc, List.drop_tail]
      rfl

/-- `Emit` empties the stack into an open sink. -/
theorem emit_served (hs : Served s) (ho : s.snkClosed = false) : emit s =
    .ok s.sp { s with sp := 0, snk := s.snk ++ topFirst s, answers := s.answers.drop s.sp.toNat } := by
  rw [emit_run, op_bind_of_ok (emitFrom_served rfl hs ho)]
  rfl

/-- `Emit` of an empty stack makes no transaction. -/
theorem emit_empty (h : s.sp = 0) : emit s = .ok 0 s := by
  rw [emit_run, h]
  rfl

/-! ## How TCLR, TASSIGN, TWALK and TEMIT end (43_decode_table R111 to R115) -/

theorem execTclr_ready (hf : s.fault = none) : exec .tclr s = .next { s with table := [], rsp := some okPlain } :=
  runCommand_ok (body := do tableClear; pure okPlain) hf rfl

theorem execTassign_unused {code parent : Code} {ch : Byte} (hf : s.fault = none) (hc : 257 ≤ code.toNat)
    (hl : lookup s.table code.toNat = none) : exec (.tassign code parent ch) s =
      .next { s with table := insert s.table code.toNat ⟨parent, ch⟩, rsp := some okPlain } := by
  have hcheck : checkAssign code s = .ok () s := by
    rw [checkAssign_run, (legalCode_iff code).2 hc, hl]
    rfl
  exact runCommand_ok (t := { s with table := insert s.table code.toNat ⟨parent, ch⟩ }) hf (op_bind_of_ok hcheck _)

theorem execTwalk_of_walk {code : Code} (hf : s.fault = none) (h : walk hw code 0 s = .ok () t) :
    exec (.twalk code) s = .next { t with rsp := some (walkWord t) } :=
  runCommand_ok hf (op_bind_of_ok h _)

theorem execTwalk_of_raised {code : Code} {f : FaultCode} (hf : s.fault = none)
    (h : walk hw code 0 s = .error (.raised f) t) : exec (.twalk code) s = .next (takeFault f t) :=
  runCommand_raised hf (op_bind_of_error h _)

theorem execTemit_of_emit {k : BitVec 13} (hf : s.fault = none) (h : emit s = .ok k t) :
    exec .temit s = .next { t with rsp := some (okIndex k) } :=
  runCommand_ok hf (op_bind_of_ok h _)

/-- A walk of the cleared table finds no cell. -/
theorem walk_cleared {cfg : Config} {code : Code} {sp0 : BitVec 13} (hc : 257 ≤ code.toNat) :
    walk cfg code sp0 { s with table := [] } =
      .error (.raised .tableUnassigned) { s with table := [], sp := sp0 } := by
  rw [walk_run]
  exact walkFrom_unused (s := { s with table := [], sp := sp0 }) hc rfl cfg.stackDepth

/-! ## What the four commands leave unchanged (43_decode_table R110) -/

/-- `t` is `s` but for what TCLR and TASSIGN may change. -/
def TableFramed (s t : State) : Prop := t = { s with table := t.table, fault := t.fault, rsp := t.rsp }

/-- `t` is `s` but for what TWALK may change, and no stack entry at or above the new `sp` has changed. -/
def WalkFramed (s t : State) : Prop :=
  t = { s with stk := t.stk, sp := t.sp, fault := t.fault, rsp := t.rsp } ∧
    ∀ a, t.sp.toNat ≤ a → stkRead t.stk a = stkRead s.stk a

/-- `t` is `s` but for what TEMIT may change. -/
def EmitFramed (s t : State) : Prop :=
  t = { s with sp := t.sp, snk := t.snk, fault := t.fault, rsp := t.rsp, answers := t.answers }

theorem execTclr_framed (h : exec .tclr s = .next t) : TableFramed s t :=
  runCommand_keeps (P := TableFramed s) (body := do tableClear; pure okPlain) h (fun _ _ => rfl) fun _ => rfl

theorem execTassign_framed {code parent : Code} {ch : Byte} (h : exec (.tassign code parent ch) s = .next t) :
    TableFramed s t := by
  refine runCommand_keeps (P := TableFramed s) h (fun _ _ => rfl) fun _ =>
    (runs_bind _ _).2 ((checkAssign_runs code s).mono ?_ ?_)
  · rintro _ _ ⟨rfl, -⟩
    rfl
  · rintro _ _ rfl _ _
    rfl

theorem PushedSome.walkFramed {sp0 : BitVec 13} (h : PushedSome { s with sp := sp0 } t) (f : Option FaultCode)
    (w : Option Word) : WalkFramed s { t with fault := f, rsp := w } := by
  obtain ⟨bytes, hroom, rfl⟩ := h
  exact ⟨rfl, fun _ => stkRead_pushed_above hroom⟩

theorem execTwalk_framed {code : Code} (h : exec (.twalk code) s = .next t) : WalkFramed s t := by
  have hw : Runs (walk hw code 0) s (fun _ t => PushedSome { s with sp := 0 } t)
      (fun _ t => PushedSome { s with sp := 0 } t) :=
    walkFrom_pushedSome (s := { s with sp := 0 }) _ code (Nat.zero_le _)
  exact runCommand_keeps (P := WalkFramed s) h (fun _ _ => ⟨rfl, fun _ _ => rfl⟩) fun _ =>
    (runs_bind _ _).2 (hw.mono (fun _ _ ht => ht.walkFramed _ _) fun _ _ ht _ _ => ht.walkFramed _ _)

theorem EmitStep.framed (h : EmitStep s t) (f : Option FaultCode) (w : Option Word) :
    EmitFramed s { t with fault := f, rsp := w } := by
  unfold EmitFramed
  rw [h.1]

theorem execTemit_framed (h : exec .temit s = .next t) : EmitFramed s t := by
  have he : Runs emit s (fun _ t => EmitStep s t) (fun _ t => EmitStep s t) := by
    unfold Runs
    rw [emit_run]
    exact (runs_bind _ _).2 ((emitFrom_runs s.sp.toNat s).mono (fun _ _ ht => ht) fun _ _ ht => ht.1)
  exact runCommand_keeps (P := EmitFramed s) h (fun _ _ => rfl) fun _ =>
    (runs_bind _ _).2 (he.mono (fun _ _ ht => ht.framed _ _) fun _ _ ht _ _ => ht.framed _ _)

end Sys2Proof.Machine

section

open Sys2Proof Sys2Proof.Machine

/-- Settles O39: the check of an UNUSED cell passes, and the assignment is an insertion at its code. -/
theorem tassignAssigns : Obligations.TassignAssigns := by
  unfold Obligations.TassignAssigns
  intro s code parent ch hf hc hl
  exact ⟨_, execTassign_unused hf hc hl, fun hr => rising_insert hr _ _, lookup_insert _ _ _⟩

/-- Settles O40: the walk pushes the sequence of the code onto the emptied stack. -/
theorem twalkResolves : Obligations.TwalkResolves := by
  unfold Obligations.TwalkResolves
  intro s code bytes hf hr hb
  obtain ⟨hpos, hlen⟩ := chainBytes_length hb
  have hroom : (0 : BitVec 13).toNat + bytes.length ≤ hw.stackDepth := by
    change 0 + bytes.length ≤ 4096
    omega
  have hsp : (0 : BitVec 13) + BitVec.ofNat 13 bytes.length = BitVec.ofNat 13 bytes.length := BitVec.zero_add _
  have htop := stackTop_pushed (s := { s with sp := 0 }) hr (List.length_pos_iff.1 hpos) hroom
  refine ⟨writeRun s.stk 0 bytes, ?_, fun j => ?_⟩
  · rw [execTwalk_of_walk hf (walk_resolves hb hroom), walkWord, htop, pushed, hsp]
    rfl
  · simpa only [Nat.zero_add] using stkRead_writeRun hr 0 j bytes

/-- Settles O43: each round of `Emit` pops and writes the top entry, by induction on `sp`. -/
theorem temitWrites : Obligations.TemitWrites := by
  unfold Obligations.TemitWrites
  exact ⟨fun s hr ho => execTemit_of_emit hr.1 (emit_served hr.2 ho),
    fun s hf hsp => execTemit_of_emit hf (emit_empty hsp)⟩

/-- Settles O45: however a walk ends it has only pushed bytes, so the entries at or above `sp` are untouched. -/
theorem tableFrame : Obligations.TableFrame := by
  unfold Obligations.TableFrame
  refine ⟨?_, fun _ _ _ => execTwalk_framed, fun _ _ => execTemit_framed⟩
  rintro _ s t (rfl | ⟨code, parent, ch, rfl⟩) h
  · exact execTclr_framed h
  · exact execTassign_framed h

/-- Settles O38: in the cleared table the walk of any code above 256 ends at its first cell. -/
theorem tclrClears : Obligations.TclrClears := by
  unfold Obligations.TclrClears
  refine ⟨by decide, fun s hf => ⟨execTclr_ready hf, fun code hc => ?_⟩⟩
  have hwalk := execTwalk_of_raised (s := { s with table := [] }) hf (walk_cleared hc)
  refine ⟨_, hwalk, ?_⟩
  simp [takeFault, hf]

end

namespace Sys2Proof.Machine

variable {d : List (Nat × DictEntry)} {m : List ((Code × Byte) × Code)} {next : BitVec 13} {p : Code} {c : Byte}
  {slot : Nat}

/-! ## The EncodeDictionary in the middle of ENCODE (44_encoder R124, R125) -/

/-- An insertion at an index that is not listed only adds its element. -/
theorem insert_perm {α : Type} {l : List (Nat × α)} {i : Nat} (h : lookup l i = none) (x : α) :
    (insert l i x).Perm ((i, x) :: l) := by
  induction l with
  | nil => exact .refl _
  | cons a l ih =>
    obtain ⟨j, y⟩ := a
    rw [lookup_cons] at h
    split_ifs at h with hj
    unfold insert
    rw [if_neg (Ne.symm hj)]
    split_ifs
    · exact .refl _
    · exact ((ih h).cons _).trans (.swap _ _ _)

/-- A dictionary with fewer entries than it has slots has an EMPTY slot. -/
theorem exists_empty_slot {α : Type} {l : List (Nat × α)} {n : Nat} (h : l.length < n) :
    ∃ i < n, lookup l i = none := by
  by_contra hfull
  have hsub : List.range n ⊆ l.map Prod.fst := fun i hi => by
    cases hl : lookup l i with
    | none => exact absurd ⟨i, List.mem_range.1 hi, hl⟩ hfull
    | some x => exact List.mem_map_of_mem (mem_of_lookup hl)
  have hle := (List.subperm_of_subset List.nodup_range hsub).length_le
  rw [List.length_range, List.length_map] at hle
  omega

/-- R106 (b): with an EMPTY slot no probe is exhausted. -/
theorem probeDict_ne_exhausted (h : d.length < 5021) (p : Code) (c : Byte) : probeDict hw d p c ≠ .exhausted := by
  obtain ⟨free, hfree, hempty⟩ := exists_empty_slot h
  obtain ⟨j, hj, rfl⟩ := exists_probeSlot_eq p c hfree
  obtain ⟨slot, hr, hstop⟩ := exists_reaches hj (not_holdsOther_of_empty hempty)
  rcases empty_or_key_of_not_holdsOther hstop with hl | ⟨code, hl⟩
  · simp [hr.probeDict_eq_miss hl]
  · simp [hr.probeDict_eq_hit hl ⟨rfl, rfl⟩]

/-- The slots `d` and the next code are those of R125 (a) to (c), and `d` holds the map `m` of R124. -/
structure Implements (m : List ((Code × Byte) × Code)) (d : List (Nat × DictEntry)) (next : BitVec 13) : Prop where
  built : Built d
  keys : ∀ p c code, m.lookup (p, c) = some code ↔ ∃ slot, lookup d slot = some ⟨code, p, c⟩
  room : d.length ≤ 3839
  next : next.toNat = 257 + d.length
  codes : (d.map fun x => x.2.code.toNat).Perm (List.range' 257 d.length)
  parents : ∀ x ∈ d, x.2.parent.toNat < x.2.code.toNat ∧ x.2.parent.toNat ≠ 256

/-- A code the Encoder can stand at: a literal or an assigned one (R125 (c)). -/
def Known (next : BitVec 13) (cur : Code) : Prop := cur.toNat < next.toNat ∧ cur.toNat ≠ 256

theorem implements_clear : Implements [] [] 257 where
  built := .clear
  keys := by simp
  room := Nat.zero_le _
  next := rfl
  codes := .refl _
  parents := by simp

theorem Implements.code_iff (h : Implements m d next) (n : Nat) :
    (∃ x ∈ d, x.2.code.toNat = n) ↔ 257 ≤ n ∧ n < next.toNat := by
  have hn := h.codes.mem_iff (a := n)
  rwa [List.mem_map, List.mem_range'_1, ← h.next] at hn

theorem Implements.codes_nodup (h : Implements m d next) : (d.map fun x => x.2.code).Nodup := by
  have hnat : ((d.map fun x => x.2.code).map BitVec.toNat).Nodup := by
    rw [List.map_map]
    exact h.codes.nodup_iff.2 List.nodup_range'
  exact hnat.of_map

theorem Implements.known_literal (h : Implements m d next) (b : Byte) : Known next (b.setWidth 12) := by
  have hb : (b.setWidth 12 : Code).toNat < 256 := by
    rw [BitVec.toNat_setWidth_of_le (by decide)]
    exact b.isLt
  have hn := h.next
  exact ⟨by omega, by omega⟩

/-- R106 (c): a probe of a key finds what the map says of it. -/
theorem Implements.probe (h : Implements m d next) (p : Code) (c : Byte) :
    (∃ slot, probeDict hw d p c = .miss slot ∧ m.lookup (p, c) = none) ∨
    (∃ slot e, probeDict hw d p c = .hit slot e ∧ m.lookup (p, c) = some e.code ∧ Known next e.code) := by
  rcases probeDict_cases d p c with ⟨slot, -, -, hm⟩ | ⟨slot, code, -, hl, hm⟩ | hm
  · refine .inl ⟨slot, hm, Option.eq_none_iff_forall_ne_some.2 fun code hc => ?_⟩
    obtain ⟨i, hi⟩ := (h.keys p c code).1 hc
    have hhit := (h.built.reaches i _ hi).probeDict_eq_hit hi ⟨rfl, rfl⟩
    cases hm.symm.trans hhit
  · have hcode := (h.code_iff code.toNat).1 ⟨_, mem_of_lookup hl, rfl⟩
    exact .inr ⟨slot, _, hm, (h.keys p c code).2 ⟨slot, hl⟩, hcode.2, by dsimp only; omega⟩
  · have hroom := h.room
    exact absurd hm (probeDict_ne_exhausted (by omega) p c)

/-- The elements listed after an insertion at an index that was not listed. -/
theorem exists_lookup_insert {α : Type} {l : List (Nat × α)} {i : Nat} (h : lookup l i = none) (x y : α) :
    (∃ j, lookup (insert l i x) j = some y) ↔ x = y ∨ ∃ j, lookup l j = some y := by
  simp only [lookup_insert]
  constructor
  · rintro ⟨j, hj⟩
    split_ifs at hj
    · exact .inl (Option.some.inj hj)
    · exact .inr ⟨j, hj⟩
  · rintro (rfl | ⟨j, hj⟩)
    · exact ⟨i, if_pos rfl⟩
    · have hji : j ≠ i := by
        rintro rfl
        rw [h] at hj
        cases hj
      exact ⟨j, by rw [if_neg hji, hj]⟩

/-- A miss whose slot is reserved with the next code adds its key to the map (R122). -/
theorem Implements.reserve (h : Implements m d next) (hmiss : probeDict hw d p c = .miss slot)
    (hkey : m.lookup (p, c) = none) (hn : next.toNat ≤ maxCode) (hp : Known next p) :
    Implements (((p, c), BitVec.ofNat 12 next.toNat) :: m) (insert d slot ⟨next.setWidth 12, p, c⟩) (next + 1) := by
  obtain ⟨-, hempty⟩ := probeDict_eq_miss_iff.1 hmiss
  have hlen := length_insert hempty (⟨next.setWidth 12, p, c⟩ : DictEntry)
  have hnext := h.next
  have hmax : next.toNat ≤ 4095 := hn
  have hcode : (next.setWidth 12 : Code).toNat = next.toNat := by
    rw [BitVec.toNat_setWidth, Nat.mod_eq_of_lt (by omega)]
  have hkeys : ∀ p' c' code, (((p, c), BitVec.ofNat 12 next.toNat) :: m).lookup (p', c') = some code ↔
      ∃ i, lookup (insert d slot ⟨next.setWidth 12, p, c⟩) i = some ⟨code, p', c'⟩ := by
    intro p' c' code
    rw [exists_lookup_insert hempty, ← h.keys, BitVec.ofNat_toNat, List.lookup_cons]
    by_cases hk : (p', c') = (p, c)
    · rw [hk, beq_self_eq_true, hkey]
      cases hk
      simp
    · rw [beq_false_of_ne hk]
      have hne : (⟨next.setWidth 12, p, c⟩ : DictEntry) ≠ ⟨code, p', c'⟩ := fun he => hk (by cases he; rfl)
      exact (or_iff_right hne).symm
  have hcodes : ((insert d slot ⟨next.setWidth 12, p, c⟩).map fun x => x.2.code.toNat).Perm
      (List.range' 257 (d.length + 1)) := by
    refine ((insert_perm hempty _).map _).trans ?_
    rw [List.map_cons, List.range'_1_concat, hcode, hnext]
    exact (h.codes.cons _).trans (List.perm_append_singleton _ _).symm
  exact
    { built := h.built.reserve _ hmiss
      keys := hkeys
      room := by omega
      next := by rw [hlen]; bv_omega
      codes := hlen ▸ hcodes
      parents := fun x hx => by
        rcases mem_insert hx with rfl | hx
        · exact ⟨hcode.symm ▸ hp.1, hp.2⟩
        · exact h.parents x hx }

end Sys2Proof.Machine

namespace Sys2Proof.Machine

variable {α : Type} {s t : State} {v : Code} {total : List Byte} {codes : List Code} {w : Nat}

/-- An operation does what one with the same result does. -/
theorem Runs.of_eq {x y : Op α} {Q : α → State → Prop} {E : Stop → State → Prop} (h : x s = y t) (hy : Runs y t Q E) :
    Runs x s Q E := by
  unfold Runs at *
  rwa [h]

theorem Runs.of_eq_ok {x : Op α} {Q : α → State → Prop} {E : Stop → State → Prop} {a : α} (h : x s = .ok a t)
    (ht : Q a t) : Runs x s Q E := by
  unfold Runs
  rwa [h]

/-! ## The codes ENCODE writes, packed (30_encoding R60, 41_bitwriter R91 to R93) -/

/-- The bytes of a code list after a code `a` whose high byte has been written. -/
def wireAfter (a : Code) : List Code → List Byte
  | [] => [a.extractLsb' 0 4 ++ 0#4]
  | b :: rest => (a.extractLsb' 0 4 ++ b.extractLsb' 8 4) :: b.extractLsb' 0 8 :: wire rest

theorem wire_cons (a : Code) (codes : List Code) : wire (a :: codes) = a.extractLsb' 4 8 :: wireAfter a codes := by
  cases codes <;> rfl

/-- With `codes` still to be written, the sink will hold `total`: the writer stands at a byte boundary, or behind the
first eight bits of a code (44_encoder R125 (e)). -/
def Owes (total : List Byte) (codes : List Code) (s : State) : Prop :=
  (s.wrRack = 0 ∧ s.wrCnt = 0 ∧ total = s.snk ++ wire codes) ∨
  ∃ a : Code, s.wrRack = a.extractLsb' 0 8 <<< 4 ∧ s.wrCnt = 4 ∧ total = s.snk ++ wireAfter a codes

/-- The low four bits of a code at the top of the rack, as `Close` flushes them. -/
theorem lowNibble_shiftLeft (a : Code) : a.extractLsb' 0 8 <<< 4 = a.extractLsb' 0 4 ++ 0#4 := by
  apply BitVec.eq_of_getLsbD_eq
  intro i hi
  rw [BitVec.getLsbD_shiftLeft, BitVec.getLsbD_extractLsb', BitVec.getLsbD_append, BitVec.getLsbD_extractLsb']
  by_cases h : i < 4
  · simp [h]
  · have h' : i - 4 < 8 ∧ i - 4 < 4 := by omega
    simp [h, h', hi]

/-- `Owes` looks at the writer and the sink only. -/
theorem Owes.congr (h : Owes total codes s) (hr : t.wrRack = s.wrRack) (hc : t.wrCnt = s.wrCnt) (hs : t.snk = s.snk) :
    Owes total codes t := by
  unfold Owes
  rwa [hr, hc, hs]

/-- Eight bits into an empty rack, whatever the host answers: the byte is in the sink when the rest is written. -/
theorem writeBits_byte_runs {Q : Unit → State → Prop} (v : BitVec w) (n : Nat) (hr : s.wrRack = 0) (hc : s.wrCnt = 0)
    (h : ∀ t, t.wrRack = 0 → t.wrCnt = 0 → t.snk = s.snk ++ [v.extractLsb' n 8] →
      Runs (writeBits v n) t Q fun _ _ => True) :
    Runs (writeBits v (n + 8)) s Q fun _ _ => True := by
  have hlast : setRackBit (v.extractLsb' (n + 1) 8 <<< 1) 0 (v.getLsbD n) = v.extractLsb' n 8 :=
    (setRackBit_next v n (j := 7) (by omega)).trans (BitVec.shiftLeft_zero _)
  have hlastBit : Runs (writeBit (v.getLsbD n)) { s with wrRack := v.extractLsb' (n + 1) 8 <<< 1, wrCnt := 7 }
      (fun _ t => Runs (writeBits v n) t Q fun _ _ => True) fun _ _ => True := by
    unfold Runs
    rw [writeBit_fills rfl, hlast]
    refine (runs_bind _ _).2 ((snkWrite_runs _ _).mono ?_ fun _ _ _ => trivial)
    rintro _ _ ⟨-, rest, -, rfl⟩
    exact h _ rfl rfl rfl
  have hseven := writeBits_empty v (n + 1) (j := 7) (by omega) hr hc
  exact .of_eq hseven ((runs_bind _ _).2 hlastBit)

/-- The low four bits of a code stay at the top of an empty rack. -/
theorem writeBits_lowNibble (a : Code) (hr : s.wrRack = 0) (hc : s.wrCnt = 0) :
    writeBits a 4 s = .ok () { s with wrRack := a.extractLsb' 0 8 <<< 4, wrCnt := 4 } :=
  writeBits_empty a 0 (j := 4) (by omega) hr hc

/-- With the low four bits of a code in the rack, the writer stands where writing them leads from an empty rack. -/
theorem exists_before_lowNibble (a : Code) (hr : s.wrRack = a.extractLsb' 0 8 <<< 4) (hc : s.wrCnt = 4) :
    ∃ s', s'.wrRack = 0 ∧ s'.wrCnt = 0 ∧ s'.snk = s.snk ∧ writeBits a 4 s' = .ok () s :=
  ⟨{ s with wrRack := 0, wrCnt := 0 }, rfl, rfl, rfl, by rw [writeBits_lowNibble a rfl rfl, ← hr, ← hc]⟩

/-- The low four bits of a code and another code are one field of sixteen bits. -/
theorem writeBits_append_codes (a v : Code) :
    writeBits (a ++ v) 16 = (writeBits a 4 >>= fun _ => writeBits v codeBits) := by
  refine writeBits_join (p := 4) (q := 12) (fun i _ => ?_) fun i hi => ?_
  · rw [BitVec.getLsbD_append, if_neg (by omega), Nat.add_sub_cancel_left]
  · rw [BitVec.getLsbD_append, if_pos hi]

theorem append_high (a v : Code) :
    (a ++ v).extractLsb' 8 8 = a.extractLsb' 0 4 ++ v.extractLsb' 8 4 := by
  apply BitVec.eq_of_getLsbD_eq
  intro i hi
  rw [BitVec.getLsbD_extractLsb', BitVec.getLsbD_append, BitVec.getLsbD_append, BitVec.getLsbD_extractLsb',
    BitVec.getLsbD_extractLsb']
  by_cases h : i < 4
  · have h' : 8 + i < 12 := by omega
    simp [h, h', hi]
  · have h' : ¬8 + i < 12 ∧ i - 4 < 4 ∧ 8 + i - 12 = 0 + (i - 4) := by omega
    simp [h, h', hi]

theorem append_low (a v : Code) : (a ++ v).extractLsb' 0 8 = v.extractLsb' 0 8 := by
  apply BitVec.eq_of_getLsbD_eq
  intro i hi
  rw [BitVec.getLsbD_extractLsb', BitVec.getLsbD_append, BitVec.getLsbD_extractLsb', if_pos (by omega)]

/-- A code is written as `wire` packs it. -/
theorem writeCode_owes (h : Owes total (v :: codes) s) :
    Runs (writeBits v codeBits) s (fun _ t => Owes total codes t) fun _ _ => True := by
  rcases h with ⟨hr, hc, rfl⟩ | ⟨a, hr, hc, rfl⟩
  · refine writeBits_byte_runs v 4 hr hc fun t hr hc hsnk => .of_eq_ok (writeBits_lowNibble v hr hc) ?_
    exact .inr ⟨v, rfl, rfl, by rw [hsnk, wire_cons, List.append_assoc, List.singleton_append]⟩
  · obtain ⟨s', hr', hc', hsnk', hhalf⟩ := exists_before_lowNibble a hr hc
    have hboth : writeBits v codeBits s = writeBits (a ++ v) 16 s' := by
      rw [writeBits_append_codes, op_bind_of_ok hhalf]
    refine .of_eq hboth (writeBits_byte_runs (a ++ v) 8 hr' hc' fun t hr hc hsnk => ?_)
    refine writeBits_byte_runs (a ++ v) 0 hr hc fun u hr hc hsnk'' => .inl ⟨hr, hc, ?_⟩
    rw [hsnk'', hsnk, hsnk', append_high, append_low, List.append_assoc, List.append_assoc]
    rfl

/-- `Close` writes the last bits (30_encoding R60: padded with zero bits). -/
theorem closeWriter_owes (h : Owes total [] s) :
    Runs closeWriter s (fun _ t => t.snk = total) fun _ _ => True := by
  unfold Runs
  rw [closeWriter_run]
  rcases h with ⟨-, hc, rfl⟩ | ⟨a, hr, hc, rfl⟩
  · rw [if_pos hc]
    exact (List.append_nil _).symm
  · rw [if_neg (by rw [hc]; decide), hr, lowNibble_shiftLeft]
    refine (runs_bind _ _).2 ((snkWrite_runs _ s).mono ?_ fun _ _ _ => trivial)
    rintro _ _ ⟨-, rest, -, rfl⟩
    rfl

end Sys2Proof.Machine

namespace Sys2Proof.Machine

variable {α : Type} {s₀ s t u : State} {v : Code} {total : List Byte} {codes : List Code}

/-! ## Everything ENCODE can do, statement by statement (44_encoder R120 to R127) -/

/-- `t` is `s` but for what ENCODE may change before it responds. -/
def EncFramed (s t : State) : Prop :=
  t = { s with
    wrRack := t.wrRack, wrCnt := t.wrCnt, dict := t.dict, encCur := t.encCur, encNext := t.encNext, mode := t.mode,
    phase := t.phase, srcPos := t.srcPos, snk := t.snk, snkClosed := t.snkClosed, answers := t.answers }

theorem EncFramed.trans (h : EncFramed s t) (h' : EncFramed t u) : EncFramed s u := by
  unfold EncFramed at h h'
  rw [h] at h'
  exact h'

/-- ENCODE, begun in `s₀`, has come to `s` with the sink still open. -/
structure Underway (s₀ s : State) : Prop where
  framed : EncFramed s₀ s
  answers : s.answers <:+ s₀.answers
  mode : s.mode = .enc
  sinkOpen : s.snkClosed = false

/-- ENCODE, begun in `s₀`, was ended in `t` by a port transaction that failed or was never answered (R127). -/
def PortStopped (s₀ : State) (e : Stop) (t : State) : Prop :=
  Underway s₀ t ∧ ¬Served s₀ ∧ (e = .raised .srcIo ∨ e = .raised .snkIo ∨ e = .hung ∧ .never ∈ s₀.answers)

/-- Only a host that does not serve the ports ends an operation that a served one does not end. -/
theorem Runs.of_served {x : Op α} (h : Served s → ∃ a t, x s = .ok a t) :
    Runs x s (fun _ _ => True) fun _ _ => ¬Served s := by
  unfold Runs
  split
  · trivial
  · next hx =>
    intro hs
    obtain ⟨a, t, hok⟩ := h hs
    rw [hx] at hok
    cases hok

theorem Underway.not_served (h : Underway s₀ s) (hs : ¬Served s) : ¬Served s₀ := fun h₀ =>
  hs (served_of_suffix h₀ h.answers)

theorem Underway.of_writer (h : Underway s₀ s) (hw : WriterStep s t) : Underway s₀ t := by
  obtain ⟨ht, -, hans⟩ := hw
  refine ⟨h.framed.trans ?_, hans.trans h.answers, ?_, ?_⟩
  · unfold EncFramed
    rw [ht]
  · rw [ht]
    exact h.mode
  · rw [ht]
    exact h.sinkOpen

theorem Underway.of_answers {rest : List PortAnswer} (h : Underway s₀ s) (hr : rest <:+ s.answers) :
    Underway s₀ { s with answers := rest } :=
  ⟨h.framed.trans rfl, hr.trans h.answers, h.mode, h.sinkOpen⟩

/-- A write to the sink, while it is open, is ended only by the host. -/
theorem Underway.stopped_of_sinkStop (h : Underway s₀ s) (hw : WriterStep s t) {e : Stop} (he : SinkStop s e)
    (hs : ¬Served s) : PortStopped s₀ e t := by
  refine ⟨h.of_writer hw, h.not_served hs, ?_⟩
  rcases he with ⟨hc, -⟩ | ⟨-, rfl | ⟨rfl, hm⟩⟩
  · rw [h.sinkOpen] at hc
    cases hc
  · exact .inr (.inl rfl)
  · exact .inr (.inr ⟨rfl, h.answers.mem hm⟩)

theorem srcRead_encodes (h : Underway s₀ s) :
    Runs srcRead s
      (fun o t => ∃ rest, rest <:+ s.answers ∧
        ((o = none ∧ s.src.length ≤ s.srcPos ∧ t = { s with answers := rest }) ∨
         (∃ b, o = some b ∧ s.srcPos < s.src.length ∧ s.src.drop s.srcPos = b :: s.src.drop (s.srcPos + 1) ∧
           t = { s with answers := rest, srcPos := s.srcPos + 1 })))
      (PortStopped s₀) := by
  have hserved : Served s → ∃ o t, srcRead s = .ok o t := fun hs => by
    rw [srcRead_served hs]
    cases s.src[s.srcPos]? <;> exact ⟨_, _, rfl⟩
  refine ((srcRead_runs s).and (.of_served hserved)).mono ?_ ?_
  · rintro _ _ ⟨⟨rest, hr, ⟨rfl, hb, rfl⟩ | ⟨b, rfl, hb, rfl⟩⟩, -⟩
    · exact ⟨rest, hr, .inl ⟨rfl, List.getElem?_eq_none_iff.1 hb, rfl⟩⟩
    · obtain ⟨hlt, rfl⟩ := List.getElem?_eq_some_iff.1 hb
      exact ⟨rest, hr, .inr ⟨_, rfl, hlt, List.drop_eq_getElem_cons hlt, rfl⟩⟩
  · rintro e _ ⟨⟨rest, hr, rfl, he⟩, hs⟩
    refine ⟨h.of_answers hr, h.not_served hs, ?_⟩
    rcases he with rfl | ⟨rfl, hm⟩
    · exact .inl rfl
    · exact .inr (.inr ⟨rfl, h.answers.mem hm⟩)

theorem writeCode_encodes (h : Underway s₀ s) (ho : Owes total (v :: codes) s) :
    Runs (writeBits v codeBits) s (fun _ t => Underway s₀ t ∧ WriterStep s t ∧ Owes total codes t)
      (PortStopped s₀) := by
  have hserved : Served s → ∃ a t, writeBits v codeBits s = .ok a t := fun hs => by
    obtain ⟨t, ht, -⟩ := writeBits_placed v codeBits hs h.sinkOpen
    exact ⟨_, t, ht⟩
  refine (((writeBits_runs v codeBits s).and (writeCode_owes ho)).and (.of_served hserved)).mono ?_ ?_
  · rintro _ t ⟨⟨hw, ht⟩, -⟩
    exact ⟨h.of_writer hw, hw, ht⟩
  · rintro e t ⟨⟨⟨hw, he⟩, -⟩, hs⟩
    exact h.stopped_of_sinkStop hw he hs

theorem closeWriter_encodes (h : Underway s₀ s) (ho : Owes total [] s) :
    Runs closeWriter s
      (fun _ t => t.snk = total ∧ ∃ u, WriterStep s u ∧ t = { u with wrRack := 0, wrCnt := 0, snkClosed := true })
      (PortStopped s₀) := by
  have hserved : Served s → ∃ a t, closeWriter s = .ok a t := fun hs => ⟨_, _, closeWriter_served hs h.sinkOpen⟩
  refine (((closeWriter_runs s).and (closeWriter_owes ho)).and (.of_served hserved)).mono ?_ ?_
  · rintro _ t ⟨⟨hu, ht⟩, -⟩
    exact ⟨ht, hu⟩
  · rintro e t ⟨⟨⟨hw, he⟩, -⟩, hs⟩
    exact h.stopped_of_sinkStop hw he hs

/-- The end of the wire stream leaves the registers but those of the BitWriter, and `phase`. -/
theorem encFinish_encodes (h : Underway s₀ s) (ho : Owes total [BitVec.ofNat 12 eos] s) :
    Runs encFinish s
      (fun _ t => ∃ rest, rest <:+ s.answers ∧ t = { s with
        wrRack := 0, wrCnt := 0, snk := total, snkClosed := true, phase := .done, answers := rest })
      (PortStopped s₀) := by
  unfold encFinish
  simp only [runs_bind, runs_modify]
  refine (writeCode_encodes h ho).mono ?_ fun _ _ h => h
  rintro _ t ⟨ht, hst, hot⟩
  refine (closeWriter_encodes ht hot).mono ?_ fun _ _ h => h
  rintro _ _ ⟨rfl, u, htu, rfl⟩
  obtain ⟨hu, -, hans⟩ := hst.trans htu
  exact ⟨u.answers, hans, by rw [hu]⟩

/-- The slots and the next code after a miss of the key `(p, b)` at `slot` (R122, R123). -/
def afterMiss (d : List (Nat × DictEntry)) (next : BitVec 13) (slot : Nat) (p : Code) (b : Byte) :
    List (Nat × DictEntry) × BitVec 13 :=
  if next.toNat ≤ maxCode then (insert d slot ⟨next.setWidth 12, p, b⟩, next + 1) else (d, next)

/-- A miss writes the current code, reserves the slot while codes are left, and starts at the byte (R122, R123). -/
theorem encMiss_encodes (slot : Nat) (b : Byte) (h : Underway s₀ s) (ho : Owes total (s.encCur :: codes) s) :
    Runs (encMiss slot b) s
      (fun _ t => Underway s₀ t ∧ Owes total codes t ∧ t.encCur = b.setWidth 12 ∧ t.phase = s.phase ∧
        t.src = s.src ∧ t.srcPos = s.srcPos ∧
        (t.dict, t.encNext) = afterMiss s.dict s.encNext slot s.encCur b)
      (PortStopped s₀) := by
  unfold encMiss afterMiss
  simp only [runs_bind, runs_get]
  refine (writeCode_encodes h ho).mono ?_ fun _ _ h => h
  rintro _ t ⟨ht, ⟨hst, -, -⟩, hot⟩
  have hkept : t.phase = s.phase ∧ t.src = s.src ∧ t.srcPos = s.srcPos ∧ t.dict = s.dict ∧ t.encNext = s.encNext := by
    rw [hst]
    exact ⟨rfl, rfl, rfl, rfl, rfl⟩
  obtain ⟨hphase, hsrc, hpos, hdict, hnext⟩ := hkept
  rw [← hdict, ← hnext]
  split_ifs
  · exact ⟨⟨ht.framed.trans rfl, ht.answers, ht.mode, ht.sinkOpen⟩, hot.congr rfl rfl rfl, rfl, hphase, hsrc, hpos, rfl⟩
  · exact ⟨⟨ht.framed.trans rfl, ht.answers, ht.mode, ht.sinkOpen⟩, hot.congr rfl rfl rfl, rfl, hphase, hsrc, hpos, rfl⟩

end Sys2Proof.Machine

namespace Sys2Proof.Machine

variable {s₀ s t : State} {d : List (Nat × DictEntry)} {m : List ((Code × Byte) × Code)} {next : BitVec 13}
  {n slot : Nat} {cur c : Code} {b : Byte}

/-! ## ENCODE writes the greedy code list (44_encoder R124) -/

theorem greedyFrom_hit (h : m.lookup (cur, b) = some c) (n : Nat) (rest : List Byte) :
    greedyFrom m n cur (b :: rest) = greedyFrom m n c rest := by
  simp only [greedyFrom, h]

theorem greedyFrom_miss_room (h : m.lookup (cur, b) = none) (hn : n ≤ maxCode) (rest : List Byte) :
    greedyFrom m n cur (b :: rest) =
      cur :: greedyFrom (((cur, b), BitVec.ofNat 12 n) :: m) (n + 1) (b.setWidth 12) rest := by
  simp only [greedyFrom, h]
  rw [if_pos hn]

theorem greedyFrom_miss_full (h : m.lookup (cur, b) = none) (hn : maxCode < n) (rest : List Byte) :
    greedyFrom m n cur (b :: rest) = cur :: greedyFrom m n (b.setWidth 12) rest := by
  simp only [greedyFrom, h]
  rw [if_neg (not_le.2 hn)]

/-- After a miss the slots hold the map that R124 goes on with. -/
theorem Implements.miss (h : Implements m d next) (hmiss : probeDict hw d cur b = .miss slot)
    (hkey : m.lookup (cur, b) = none) (hcur : Known next cur) :
    ∃ m', Implements m' (afterMiss d next slot cur b).1 (afterMiss d next slot cur b).2 ∧
      (afterMiss d next slot cur b).1.length ≤ d.length + 1 ∧
      ∀ rest, greedyFrom m next.toNat cur (b :: rest) =
        cur :: greedyFrom m' (afterMiss d next slot cur b).2.toNat (b.setWidth 12) rest := by
  unfold afterMiss
  split_ifs with hn
  · have hm := h.reserve hmiss hkey hn hcur
    have hlen := length_insert (probeDict_eq_miss_iff.1 hmiss).2 (⟨next.setWidth 12, cur, b⟩ : DictEntry)
    have hsucc : (next + 1).toNat = next.toNat + 1 := by rw [hm.next, hlen, h.next, Nat.add_assoc]
    exact ⟨_, hm, hlen.le, fun rest => by rw [greedyFrom_miss_room hkey hn, hsucc]⟩
  · exact ⟨m, h, Nat.le_succ _, fun rest => greedyFrom_miss_full hkey (not_le.1 hn) rest⟩

/-- What the sink holds after a fault-free ENCODE begun in `s` (R124). -/
def encOutput (s : State) : List Byte := s.snk ++ wire (greedy (s.src.drop s.srcPos))

/-- At the boundary of an `EncStep` that is to follow (R125): `read` counts a byte of the source for each entry and one
more for the first current code. -/
structure Scanning (s₀ s : State) : Prop extends Underway s₀ s where
  phase : s.phase = .scanning
  known : Known s.encNext s.encCur
  read : s₀.srcPos + s.dict.length < s.srcPos ∧ s.srcPos ≤ s.src.length
  owes : ∃ m, Implements m s.dict s.encNext ∧
    Owes (encOutput s₀) (greedyFrom m s.encNext.toNat s.encCur (s.src.drop s.srcPos)) s

/-- ENCODE, begun in `s₀`, has ended normally in `t`. -/
structure Encoded (s₀ t : State) : Prop where
  framed : EncFramed s₀ t
  mode : t.mode = .enc
  phase : t.phase = .done
  snk : t.snk = encOutput s₀
  snkClosed : t.snkClosed = true
  wrRack : t.wrRack = 0
  wrCnt : t.wrCnt = 0
  srcPos : t.srcPos = max s₀.srcPos s₀.src.length
  few : t.dict.length ≤ (s₀.src.drop s₀.srcPos).length - 1
  dict : ∃ m, Implements m t.dict t.encNext

theorem Underway.src_eq (h : Underway s₀ s) : s.src = s₀.src := by rw [h.framed]

theorem Scanning.of_answers {rest : List PortAnswer} (h : Scanning s₀ s) (hr : rest <:+ s.answers) :
    Scanning s₀ { s with answers := rest } := by
  obtain ⟨m, hm, howes⟩ := h.owes
  exact ⟨h.toUnderway.of_answers hr, h.phase, h.known, h.read, m, hm, howes.congr rfl rfl rfl⟩

/-- After a byte `b` was read, before the probe of its key; `m` is the map the slots hold. -/
structure BytePulled (s₀ : State) (m : List ((Code × Byte) × Code)) (b : Byte) (s : State) : Prop
    extends Underway s₀ s where
  phase : s.phase = .scanning
  known : Known s.encNext s.encCur
  read : s₀.srcPos + s.dict.length + 1 < s.srcPos ∧ s.srcPos ≤ s.src.length
  dict : Implements m s.dict s.encNext
  owes : Owes (encOutput s₀) (greedyFrom m s.encNext.toNat s.encCur (b :: s.src.drop s.srcPos)) s

/-- A hit goes on from the code found (R122). -/
theorem BytePulled.hit (h : BytePulled s₀ m b s) (hkey : m.lookup (s.encCur, b) = some c) (hc : Known s.encNext c) :
    Scanning s₀ { s with encCur := c } := by
  have howes := h.owes
  obtain ⟨hread, hinside⟩ := h.read
  rw [greedyFrom_hit hkey] at howes
  exact ⟨⟨h.framed.trans rfl, h.answers, h.mode, h.sinkOpen⟩, h.phase, hc, ⟨by simp only; omega, hinside⟩,
    m, h.dict, howes.congr rfl rfl rfl⟩

/-- A miss writes the current code and goes on from the byte (R122, R123). -/
theorem BytePulled.miss (h : BytePulled s₀ m b s) (hkey : m.lookup (s.encCur, b) = none)
    (hmiss : probeDict hw s.dict s.encCur b = .miss slot) :
    Runs (encMiss slot b) s (fun _ t => Scanning s₀ t ∧ t.src = s.src ∧ t.srcPos = s.srcPos) (PortStopped s₀) := by
  have howes := h.owes
  obtain ⟨hread, hinside⟩ := h.read
  obtain ⟨m', hm, hlen, hgreedy⟩ := h.dict.miss hmiss hkey h.known
  rw [hgreedy] at howes
  refine (encMiss_encodes slot b h.toUnderway howes).mono ?_ fun _ _ h => h
  rintro _ t ⟨ht, hot, hcur, hphase, hsrc, hpos, hafter⟩
  rw [← hafter] at hm hlen hot
  refine ⟨⟨ht, hphase.trans h.phase, hcur ▸ hm.known_literal b, ?_, m', hm, ?_⟩, hsrc, hpos⟩
  · have hle : t.dict.length ≤ s.dict.length + 1 := hlen
    rw [hpos, hsrc]
    exact ⟨by omega, hinside⟩
  · rwa [hcur, hsrc, hpos]

/-- At the end of the source the current code and END_OF_STREAM are written (R122). -/
theorem encLast_encodes (h : Scanning s₀ s) (hend : s.src.length ≤ s.srcPos) :
    Runs (writeBits s.encCur codeBits >>= fun _ => encFinish) s (fun _ t => Encoded s₀ t) (PortStopped s₀) := by
  obtain ⟨m, hm, howes⟩ := h.owes
  obtain ⟨hread, hinside⟩ := h.read
  have hsrc := h.src_eq
  rw [List.drop_eq_nil_of_le hend] at howes
  rw [hsrc] at hend hinside
  refine (runs_bind _ _).2 ((writeCode_encodes h.toUnderway howes).mono ?_ fun _ _ h => h)
  rintro _ t ⟨ht, ⟨hst, -, -⟩, hot⟩
  refine (encFinish_encodes ht hot).mono ?_ fun _ _ h => h
  rintro _ _ ⟨rest, -, rfl⟩
  have hpos : t.srcPos = s.srcPos := by rw [hst]
  have hdict : t.dict = s.dict := by rw [hst]
  have hnext : t.encNext = s.encNext := by rw [hst]
  exact
    { framed := ht.framed.trans rfl
      mode := ht.mode
      phase := rfl
      snk := rfl
      snkClosed := rfl
      wrRack := rfl
      wrCnt := rfl
      srcPos := by simp only [hpos]; omega
      few := by simp only [hdict, List.length_drop]; omega
      dict := ⟨m, by simp only [hdict, hnext]; exact hm⟩ }

/-- An `EncStep` ends ENCODE, or consumes a byte: a hit or a miss, since no probe is exhausted (R122, R127). -/
theorem encStep_encodes (h : Scanning s₀ s) :
    Runs (encStep hw) s (fun _ t => Encoded s₀ t ∨ Scanning s₀ t ∧ t.src.length - t.srcPos < s.src.length - s.srcPos)
      (PortStopped s₀) := by
  obtain ⟨m, hm, howes⟩ := h.owes
  obtain ⟨hread, hinside⟩ := h.read
  unfold encStep
  refine (runs_bind _ _).2 ((srcRead_encodes h.toUnderway).mono ?_ fun _ _ h => h)
  rintro _ _ ⟨rest, hr, ⟨rfl, hend, rfl⟩ | ⟨b, rfl, hlt, hdrop, rfl⟩⟩
  · exact (encLast_encodes (h.of_answers hr) hend).mono (fun _ _ => .inl) fun _ _ h => h
  · rw [hdrop] at howes
    have hb : BytePulled s₀ m b { s with answers := rest, srcPos := s.srcPos + 1 } :=
      ⟨⟨h.framed.trans rfl, hr.trans h.answers, h.mode, h.sinkOpen⟩, h.phase, h.known, ⟨by simp only; omega, hlt⟩, hm,
        howes.congr rfl rfl rfl⟩
    have hless : ∀ t : State, t.src = s.src → t.srcPos = s.srcPos + 1 →
        t.src.length - t.srcPos < s.src.length - s.srcPos := fun t hsrc hpos => by rw [hsrc, hpos]; omega
    simp only [runs_bind, runs_get]
    rcases hm.probe s.encCur b with ⟨slot, hmiss, hkey⟩ | ⟨slot, e, hhit, hkey, hknown⟩
    · refine .of_eq_ok (probe_of_miss hmiss) ((hb.miss hkey hmiss).mono ?_ fun _ _ h => h)
      rintro _ t ⟨ht, hsrc, hpos⟩
      exact .inr ⟨ht, hless t hsrc hpos⟩
    · exact .of_eq_ok (probe_of_hit hhit) (.inr ⟨hb.hit hkey hknown, hless _ rfl rfl⟩)

/-- The loop of an operation ends within its bound when each step ends the operation or makes `left` smaller, and
leaves what the steps leave. -/
theorem loop_runs {step : Op Unit} {loop : Nat → Op Unit} (hl : IsLoop step loop) {I D : State → Prop}
    {E : Stop → State → Prop} {left : State → Nat} (hI : ∀ s, I s → s.phase = .scanning)
    (hD : ∀ s, D s → s.phase = .done)
    (hstep : ∀ s, I s → Runs step s (fun _ t => D t ∨ I t ∧ left t < left s) E) (n : Nat)
    (h : D s ∨ I s ∧ left s < n) : Runs (loop n) s (fun _ t => D t) E := by
  induction n generalizing s with
  | zero =>
    obtain h | ⟨-, hn⟩ := h
    · exact .of_eq_ok (hl.zero s) h
    · exact absurd hn (Nat.not_lt_zero _)
  | succ n ih =>
    obtain h | ⟨h, hn⟩ := h
    · exact .of_eq_ok (loop_done hl (hD s h) _) h
    · refine .of_eq ((hl.succ n s).trans (if_pos (hI s h))) ((runs_bind _ _).2 ((hstep s h).mono ?_ fun _ _ h => h))
      rintro _ t (ht | ⟨ht, hlt⟩)
      · exact ih (.inl ht)
      · exact ih (.inr ⟨ht, by omega⟩)

/-- ENCODE of an empty source ends with END_OF_STREAM alone (R121). -/
theorem encEmpty_encodes (h : Underway s₀ s) (hend : s₀.src.length ≤ s₀.srcPos) (hpos : s.srcPos = s₀.srcPos)
    (hdict : s.dict = []) (hnext : s.encNext = 257) (ho : Owes (encOutput s₀) [BitVec.ofNat 12 eos] s) :
    Runs encFinish s (fun _ t => Encoded s₀ t) (PortStopped s₀) := by
  refine (encFinish_encodes h ho).mono ?_ fun _ _ h => h
  rintro _ _ ⟨rest, -, rfl⟩
  exact
    { framed := h.framed.trans rfl
      mode := h.mode
      phase := rfl
      snk := rfl
      snkClosed := rfl
      wrRack := rfl
      wrCnt := rfl
      srcPos := hpos.trans (max_eq_left hend).symm
      few := by simp [hdict]
      dict := ⟨[], by simp only [hdict, hnext]; exact implements_clear⟩ }

/-- `EncStart` ends ENCODE at once on an empty source, or leads to the first `EncStep` (R121). -/
theorem encStart_encodes (ho : s.snkClosed = false) :
    Runs encStart s (fun _ t => Encoded s t ∨ Scanning s t) (PortStopped s) := by
  have hu : Underway s (encCleared s) := ⟨rfl, List.suffix_refl _, rfl, ho⟩
  have hread := srcRead_encodes hu
  unfold encStart dictClear
  simp only [runs_bind, runs_modify]
  refine Runs.mono (x := srcRead) (s := encCleared s) hread ?_ fun _ _ h => h
  rintro _ t ⟨rest, hr, ⟨rfl, hend, ht⟩ | ⟨b, rfl, hlt, hdrop, rfl⟩⟩
  · have hnil : s.src.drop s.srcPos = [] := List.drop_eq_nil_of_le hend
    have howes : Owes (encOutput s) [BitVec.ofNat 12 eos] t := by
      rw [encOutput, hnil, ht]
      exact .inl ⟨rfl, rfl, rfl⟩
    have htu : Underway s t := ht ▸ hu.of_answers hr
    exact (encEmpty_encodes htu hend (by rw [ht]; rfl) (by rw [ht]; rfl) (by rw [ht]; rfl) howes).mono
      (fun _ _ => .inl) fun _ _ h => h
  · have hcons : s.src.drop s.srcPos = b :: s.src.drop (s.srcPos + 1) := hdrop
    refine .inr ⟨⟨rfl, hr, rfl, ho⟩, rfl, implements_clear.known_literal b, ⟨Nat.lt_succ_self _, hlt⟩, [],
      implements_clear, .inl ⟨rfl, rfl, ?_⟩⟩
    rw [encOutput, hcons]
    rfl

/-- Everything the body of ENCODE can do with an open sink. -/
theorem encodeAll_encodes (ho : s.snkClosed = false) :
    Runs (encodeAll hw) s (fun _ t => Encoded s t) (PortStopped s) := by
  unfold encodeAll
  simp only [runs_bind, runs_get]
  refine (encStart_encodes ho).mono (fun _ t ht => ?_) fun _ _ h => h
  exact loop_runs (left := fun u => u.src.length - u.srcPos) (encLoop_isLoop hw) (fun _ h => h.phase)
    (fun _ h => h.phase) (fun _ => encStep_encodes) _ (ht.imp_right fun h => ⟨h, Nat.lt_succ_self _⟩)

end Sys2Proof.Machine

namespace Sys2Proof.Machine

variable {s t : State} {x : Byte}

/-! ## The end of ENCODE (44_encoder R120, R126, R127) -/

theorem execEncode_served (hr : Ready s) (ho : s.snkClosed = false) :
    ∃ t, Encoded s t ∧ exec .encode s = .next { t with rsp := some okPlain } := by
  cases h : encodeAll hw s with
  | ok _ t => exact ⟨t, (encodeAll_encodes ho).of_ok h, execEncode_ok hr.1 ho h⟩
  | error e t =>
    obtain ⟨-, hs, -⟩ := (encodeAll_encodes ho).of_error h
    exact absurd hr.2 hs

/-- ENCODE with an open sink and a host that answers ends normally, or with the fault of a failed transaction. -/
theorem execEncode_answered (hf : s.fault = none) (ho : s.snkClosed = false) (ha : Answered s) :
    (∃ t, Encoded s t ∧ exec .encode s = .next { t with rsp := some okPlain }) ∨
    ∃ f t, (f = .srcIo ∨ f = .snkIo) ∧ Underway s t ∧ exec .encode s = .next (takeFault f t) := by
  cases h : encodeAll hw s with
  | ok _ t => exact .inl ⟨t, (encodeAll_encodes ho).of_ok h, execEncode_ok hf ho h⟩
  | error e t =>
    have hraised : ∀ f, e = .raised f → exec .encode s = .next (takeFault f t) := fun f he =>
      runCommand_raised hf ((op_bind_of_ok (checkOpen_open ho) _).trans (op_bind_of_error (he ▸ h) _))
    obtain ⟨hu, -, he | he | ⟨-, hm⟩⟩ := (encodeAll_encodes ho).of_error h
    · exact .inr ⟨_, t, .inl rfl, hu, hraised _ he⟩
    · exact .inr ⟨_, t, .inr rfl, hu, hraised _ he⟩
    · exact absurd rfl (ha _ hm)

/-- Every way ENCODE can end in a next state. -/
theorem execEncode_cases (h : exec .encode s = .next t) :
    (∃ f, s.fault = some f ∧ t = refuseWord f s) ∨
    (∃ u, Encoded s u ∧ t = { u with rsp := some okPlain }) ∨
    ∃ f u, EncFramed s u ∧ t = takeFault f u := by
  rcases runCommand_next h with hrefused | ⟨-, w, u, hb, rfl⟩ | ⟨-, f, u, hb, rfl⟩
  · exact .inl hrefused
  · obtain ⟨_, _, hopen, hbody⟩ := op_bind_eq_ok.1 hb
    obtain ⟨ho, rfl⟩ := checkOpen_eq_ok hopen
    obtain ⟨_, v, hall, hw⟩ := op_bind_eq_ok.1 hbody
    cases hw
    exact .inr (.inl ⟨u, (encodeAll_encodes ho).of_ok hall, rfl⟩)
  · refine .inr (.inr ⟨f, u, ?_, rfl⟩)
    rcases op_bind_eq_error.1 hb with hclosed | ⟨_, _, hopen, hbody⟩
    · rw [(checkOpen_runs s).of_error hclosed]
      rfl
    · obtain ⟨ho, rfl⟩ := checkOpen_eq_ok hopen
      rcases op_bind_eq_error.1 hbody with hstop | ⟨_, _, -, hw⟩
      · obtain ⟨hu, -⟩ := (encodeAll_encodes ho).of_error hstop
        exact hu.framed
      · cases hw

/-- An ENCODE that leaves no fault has run its body to the end. -/
theorem execEncode_faultFree (h : exec .encode s = .next t) (hf : t.fault = none) :
    ∃ u, Encoded s u ∧ t = { u with rsp := some okPlain } := by
  rcases execEncode_cases h with ⟨f, hs, rfl⟩ | hok | ⟨f, u, -, rfl⟩
  · cases hs.symm.trans hf
  · exact hok
  · cases hf

/-- However ENCODE ends, it stays within the frame, but for the fault and the response. -/
theorem execEncode_framed (h : exec .encode s = .next t) :
    ∃ u, EncFramed s u ∧ t = { u with fault := t.fault, rsp := t.rsp } := by
  rcases execEncode_cases h with ⟨f, -, rfl⟩ | ⟨u, hu, rfl⟩ | ⟨f, u, hu, rfl⟩
  · exact ⟨s, rfl, rfl⟩
  · exact ⟨u, hu.framed, rfl⟩
  · exact ⟨u, hu, rfl⟩

/-- The literal `x` and END_OF_STREAM, packed (R126). -/
theorem wire_greedy_singleton (x : Byte) :
    wire (greedy [x]) = [0#4 ++ x.extractLsb' 4 4, x.extractLsb' 0 4 ++ 1#4, 0x00] := by
  have hhigh : (x.setWidth 12 : Code).extractLsb' 4 8 = 0#4 ++ x.extractLsb' 4 4 := by
    apply BitVec.eq_of_getLsbD_eq
    intro i hi
    rw [BitVec.getLsbD_append, BitVec.getLsbD_extractLsb', BitVec.getLsbD_setWidth, BitVec.getLsbD_extractLsb']
    by_cases h : i < 4
    · simp [h, hi, show 4 + i < 12 by omega]
    · simp [h, BitVec.getLsbD_of_ge x (4 + i) (by omega)]
  have hlow : (x.setWidth 12 : Code).extractLsb' 0 4 = x.extractLsb' 0 4 := by
    apply BitVec.eq_of_getLsbD_eq
    intro i hi
    rw [BitVec.getLsbD_extractLsb', BitVec.getLsbD_extractLsb', BitVec.getLsbD_setWidth]
    simp [show i < 12 by omega]
  have heos : (BitVec.ofNat 12 eos).extractLsb' 8 4 = 1#4 ∧ (BitVec.ofNat 12 eos).extractLsb' 0 8 = 0x00 := by decide
  simp only [greedy, greedyFrom, wire, hhigh, hlow, heos]

/-- ENCODE of one byte assigns no code (R126). -/
theorem Encoded.dict_eq_nil (h : Encoded s t) (hx : s.src.drop s.srcPos = [x]) : t.dict = [] ∧ t.encNext = 257 := by
  obtain ⟨m, hm⟩ := h.dict
  have hfew := h.few
  rw [hx] at hfew
  have hdict : t.dict = [] := List.eq_nil_of_length_eq_zero (Nat.le_zero.1 hfew)
  have hnext := hm.next
  rw [hdict] at hnext
  exact ⟨hdict, BitVec.eq_of_toNat_eq hnext⟩

end Sys2Proof.Machine

section

open Sys2Proof Sys2Proof.Machine

/-- Settles O48: at each step what is written, and the greedy code list of what is left to read, packed, make the
same bytes; the slots hold the map of R124 throughout. -/
theorem encodeWritesGreedyCodes : Obligations.EncodeWritesGreedyCodes := by
  unfold Obligations.EncodeWritesGreedyCodes
  intro s hr ho
  obtain ⟨t, ht, hexec⟩ := execEncode_served hr ho
  have hfault : t.fault = none := by
    rw [ht.framed]
    exact hr.1
  exact ⟨_, hexec, rfl, hfault, ht.mode, ht.phase, ht.snk, ht.snkClosed, ht.wrRack, ht.wrCnt, ht.srcPos⟩

/-- Settles O47: the greedy code list of one byte is its literal and 256. -/
theorem encodeOfOneByte : Obligations.EncodeOfOneByte := by
  unfold Obligations.EncodeOfOneByte
  intro s x hr ho hx
  obtain ⟨t, ht, hexec⟩ := execEncode_served hr ho
  obtain ⟨hdict, hnext⟩ := ht.dict_eq_nil hx
  have hsnk := ht.snk
  rw [encOutput, hx, wire_greedy_singleton] at hsnk
  exact ⟨_, hexec, rfl, ht.phase, ht.snkClosed, hnext, hdict, hsnk⟩

/-- Settles O49: each step consumes a byte or ends ENCODE, an EMPTY slot is always left, and the sink is closed only
at the end. -/
theorem encodeAlwaysEnds : Obligations.EncodeAlwaysEnds := by
  unfold Obligations.EncodeAlwaysEnds
  intro s hf ho ha
  rcases execEncode_answered hf ho ha with ⟨t, ht, hexec⟩ | ⟨f, t, hport, ht, hexec⟩
  · have hfault : t.fault = none := by
      rw [ht.framed]
      exact hf
    exact ⟨_, hexec, ht.mode, .inl ⟨hfault, rfl, ht.phase, ht.snkClosed⟩⟩
  · have hfault : (takeFault f t).fault = some f := by
      rw [takeFault_fault, ht.framed, hf]
      rfl
    refine ⟨_, hexec, ht.mode, .inr ⟨?_, ht.sinkOpen⟩⟩
    rw [hfault]
    exact hport.imp (congrArg some) (congrArg some)

/-- Settles O50: the codes in the slots are a permutation of those from 257 on, by induction on the steps. -/
theorem encodeAssignsCodesOnce : Obligations.EncodeAssignsCodesOnce := by
  unfold Obligations.EncodeAssignsCodesOnce
  intro s t h hf
  obtain ⟨u, hu, rfl⟩ := execEncode_faultFree h hf
  obtain ⟨m, hm⟩ := hu.dict
  refine ⟨by rw [hm.next, Nat.add_comm], hm.room, hm.codes_nodup, fun c => ?_, hm.parents⟩
  rw [← hm.code_iff c.toNat]
  simp only [BitVec.toNat_inj]

/-- Settles O51: however ENCODE is ended, it stays within the frame. -/
theorem encodeFrame : Obligations.EncodeFrame := by
  unfold Obligations.EncodeFrame
  intro s t h
  obtain ⟨u, hu, ht⟩ := execEncode_framed h
  rw [hu] at ht
  rw [ht]

end

namespace Sys2Proof.Machine

variable {α β : Type} {reads : Prop} {s t u : State}

/-! ## Everything DECODE can do, statement by statement (45_decoder R130 to R138) -/

/-- From `s` to `t` only what DECODE writes after it has set `mode` has changed, and no stack entry at or above
`STACK_DEPTH`; the BitReader and the phase have changed only if `reads` holds. -/
structure DecMoves (reads : Prop) (s t : State) : Prop where
  framed : t = { s with
    rdRack := t.rdRack, rdCnt := t.rdCnt, table := t.table, stk := t.stk, sp := t.sp, decOld := t.decOld,
    decNext := t.decNext, phase := t.phase, srcPos := t.srcPos, snk := t.snk, answers := t.answers }
  answers : t.answers <:+ s.answers
  high : ∀ a, 4096 ≤ a → stkRead t.stk a = stkRead s.stk a
  kept : reads ∨ t.rdRack = s.rdRack ∧ t.rdCnt = s.rdCnt ∧ t.srcPos = s.srcPos ∧ t.phase = s.phase

theorem DecMoves.refl (reads : Prop) (s : State) : DecMoves reads s s where
  framed := rfl
  answers := List.suffix_refl _
  high _ _ := rfl
  kept := .inr ⟨rfl, rfl, rfl, rfl⟩

theorem DecMoves.trans (h : DecMoves reads s t) (h' : DecMoves reads t u) : DecMoves reads s u where
  framed := by
    have hu := h'.framed
    rw [h.framed] at hu
    exact hu
  answers := h'.answers.trans h.answers
  high a ha := (h'.high a ha).trans (h.high a ha)
  kept := by
    rcases h.kept with hr | ⟨hrk, hc, hp, hph⟩
    · exact .inl hr
    · rw [← hrk, ← hc, ← hp, ← hph]
      exact h'.kept

/-- What leaves the BitReader alone is a case of what may use it. -/
theorem DecMoves.reading (h : DecMoves False s t) : DecMoves True s t := { h with kept := .inl trivial }

theorem ReaderStep.decMoves (h : ReaderStep s t) : DecMoves True s t := by
  obtain ⟨ht, -, hans⟩ := h
  rw [ht]
  exact ⟨rfl, hans, fun _ _ => rfl, .inl trivial⟩

theorem EmitStep.decMoves (h : EmitStep s t) : DecMoves False s t := by
  obtain ⟨ht, -, hans⟩ := h
  rw [ht]
  exact ⟨rfl, hans, fun _ _ => rfl, .inr ⟨rfl, rfl, rfl, rfl⟩⟩

/-- A sink transaction writes the answers and the sink's bytes (20_memory R43). -/
theorem DecMoves.of_ports {rest : List PortAnswer} (h : rest <:+ s.answers) (bytes : List Byte) :
    DecMoves reads s { s with answers := rest, snk := bytes } :=
  ⟨rfl, h, fun _ _ => rfl, .inr ⟨rfl, rfl, rfl, rfl⟩⟩

theorem PushedSome.decMoves (h : PushedSome s t) : DecMoves False s t := by
  obtain ⟨bytes, hroom, rfl⟩ := h
  have hle : s.sp.toNat + bytes.length ≤ 4096 := hroom
  exact ⟨rfl, List.suffix_refl _, fun _ ha => stkRead_writeRun_outside _ _ (.inr (hle.trans ha)),
    .inr ⟨rfl, rfl, rfl, rfl⟩⟩

/-- How DECODE can be ended (R130, R138 (c)): by one of its five faults, or by a host that never answers. -/
def DecStop (s : State) (e : Stop) : Prop :=
  (∃ f ∈ [FaultCode.srcIo, .snkIo, .sinkClosed, .tableUnassigned, .stackOverflow], e = .raised f) ∨
  e = .hung ∧ .never ∈ s.answers

theorem DecStop.of_moves (h : DecMoves reads s t) {e : Stop} (he : DecStop t e) : DecStop s e :=
  he.imp_right fun ⟨he, hm⟩ => ⟨he, h.answers.mem hm⟩

theorem SinkStop.decStop {e : Stop} (h : SinkStop s e) : DecStop s e := by
  rcases h with ⟨-, rfl⟩ | ⟨-, rfl | h⟩
  · exact .inl ⟨_, by simp, rfl⟩
  · exact .inl ⟨_, by simp, rfl⟩
  · exact .inr h

/-- In whatever state `x` starts, it only moves as DECODE does, and is ended only as DECODE can be. -/
def Moving (reads : Prop) (x : Op α) : Prop :=
  ∀ s, Runs x s (fun _ t => DecMoves reads s t) (fun e t => DecMoves reads s t ∧ DecStop s e)

theorem Moving.pure (a : α) : Moving reads (pure a : Op α) := .refl reads

theorem Moving.get : Moving reads (get : Op State) := .refl reads

/-- A write to registers that DECODE writes, unless something else is shown of it. -/
theorem Moving.modify {f : State → State}
    (h : ∀ s, DecMoves reads s (f s) := by
      exact fun s => ⟨rfl, List.suffix_refl _, fun _ _ => rfl, .inr ⟨rfl, rfl, rfl, rfl⟩⟩) :
    Moving reads (modify f : Op PUnit) := h

/-- The rule of sequence. -/
theorem Moving.bind {x : Op α} {f : α → Op β} (hx : Moving reads x) (hf : ∀ a, Moving reads (f a)) :
    Moving reads (x >>= f) := fun s =>
  (runs_bind _ _).2 ((hx s).mono
    (fun a t ht => (hf a t).mono (fun _ _ => ht.trans) fun _ _ hu => ⟨ht.trans hu.1, .of_moves ht hu.2⟩)
    fun _ _ h => h)

theorem Moving.reading {x : Op α} (h : Moving False x) : Moving True x := fun s =>
  (h s).mono (fun _ _ ht => ht.reading) fun _ _ ht => ⟨ht.1.reading, ht.2⟩

/-- The loop of an operation whose steps move as DECODE does. -/
theorem Moving.loop {step : Op Unit} {loop : Nat → Op Unit} (hl : IsLoop step loop) (hs : Moving reads step)
    (n : Nat) : Moving reads (loop n) := by
  induction n with
  | zero => exact fun s => .of_eq_ok (hl.zero s) (.refl reads s)
  | succ n ih =>
    intro s
    unfold Runs
    rw [hl.succ]
    split_ifs
    · exact (hs.bind fun _ => ih) s
    · exact .refl reads s

theorem readBitsFrom_moving (n v : Nat) : Moving True (readBitsFrom n v) := fun s =>
  (readBitsFrom_runs n v s).mono (fun _ _ ht => ht.decMoves) fun _ _ ⟨ht, he⟩ =>
    ⟨ht.decMoves, he.imp_left fun he => ⟨_, by simp, he⟩⟩

theorem snkWrite_moving (b : Byte) : Moving False (snkWrite b) := fun s =>
  ((snkWrite_runs b s).and (snkWrite_writes b s)).mono (fun _ _ ⟨⟨_, _, hs, ht⟩, _⟩ => ht ▸ .of_ports hs _)
    fun _ t ⟨h, _, he⟩ => by
      refine ⟨?_, he.decStop⟩
      rcases h with ⟨-, -, rfl⟩ | ⟨-, rest, hs, rfl, -⟩
      · exact .refl False _
      · exact .of_ports hs s.snk

theorem readCode_moving : Moving True readCode := by
  refine (readBitsFrom_moving codeBits 0).bind fun o => ?_
  cases o with
  | none => exact .pure _
  | some v =>
    simp only
    split_ifs <;> exact .pure _

theorem walk_moving (k : Code) {sp0 : BitVec 13} (h : sp0.toNat ≤ hw.stackDepth) : Moving False (walk hw k sp0) :=
  fun s => by
    have h0 : DecMoves False s { s with sp := sp0 } :=
      ⟨rfl, List.suffix_refl _, fun _ _ => rfl, .inr ⟨rfl, rfl, rfl, rfl⟩⟩
    refine .of_eq (walk_run hw k sp0 s) (((walkFrom_pushedSome _ k h).and (walkFrom_runs hw _ k _)).mono ?_ ?_)
    · exact fun _ _ ⟨ht, _⟩ => h0.trans ht.decMoves
    · rintro e t ⟨ht, -, he⟩
      refine ⟨h0.trans ht.decMoves, .inl ?_⟩
      rcases he with rfl | rfl <;> exact ⟨_, by simp, rfl⟩

theorem emit_moving : Moving False emit :=
  .bind .get fun s₀ => .bind
    (fun s => (emitFrom_runs s₀.sp.toNat s).mono (fun _ _ ht => ht.decMoves)
      fun _ _ ht => ⟨ht.1.decMoves, ht.2.decStop⟩)
    fun _ => .pure _

theorem decResolve_moving (new : Code) : Moving False (decResolve hw new) := by
  refine .bind .get fun s => ?_
  split_ifs
  · refine (walk_moving _ (by decide)).bind fun _ => .modify fun s => ?_
    exact ⟨rfl, List.suffix_refl _, fun a ha => stkRead_write_of_ne _ _ (by omega), .inr ⟨rfl, rfl, rfl, rfl⟩⟩
  · exact walk_moving _ (by decide)

theorem decAssign_moving (first : Byte) : Moving False (decAssign first) := by
  refine .bind .get fun s => ?_
  split_ifs
  · exact .bind .modify fun _ => .modify
  · exact .pure _

/-- `DecStep` after a code was read (R132, steps 2 to 5): all of it leaves the BitReader and the phase alone. -/
def decOutput (new : Code) : Op Unit := do
  decResolve hw new
  let s ← get
  let first := stackTop s
  let _ ← emit
  decAssign first
  modify fun s => { s with decOld := new }

theorem decStep_eq : decStep hw = (readCode >>= fun o => match o with
    | none => modify fun s => { s with phase := .done }
    | some new => decOutput new) := rfl

theorem decOutput_moving (new : Code) : Moving False (decOutput new) :=
  (decResolve_moving new).bind fun _ => .bind .get fun _ => emit_moving.bind fun _ =>
    (decAssign_moving _).bind fun _ => .modify

theorem setPhase_moving (p : Phase) : Moving True (modify fun s => { s with phase := p } : Op PUnit) :=
  .modify fun _ => ⟨rfl, List.suffix_refl _, fun _ _ => rfl, .inl trivial⟩

theorem decStep_moving : Moving True (decStep hw) := by
  rw [decStep_eq]
  refine readCode_moving.bind fun o => ?_
  cases o with
  | none => exact setPhase_moving _
  | some new => exact (decOutput_moving new).reading

/-- The registers DECODE clears before it reads the first code (R131). -/
def decCleared (s : State) : State :=
  { s with mode := .dec, table := [], sp := 0, rdRack := 0, rdCnt := 0, decNext := 257 }

/-- `DecStart` after it has cleared its registers (R131). -/
def decFirst : Op Unit := do
  match ← readCode with
  | none => modify fun s => { s with phase := .done }
  | some r =>
    snkWrite (r.setWidth 8)
    modify fun s => { s with decOld := r, phase := .scanning }

theorem decFirst_moving : Moving True decFirst := by
  refine readCode_moving.bind fun o => ?_
  cases o with
  | none => exact setPhase_moving _
  | some r =>
    exact (snkWrite_moving _).reading.bind fun _ =>
      .modify fun _ => ⟨rfl, List.suffix_refl _, fun _ _ => rfl, .inl trivial⟩

/-- The whole operation after the registers are cleared (R130). -/
def decodeCleared : Op Unit := do
  decFirst
  let s ← get
  decLoop hw (s.src.length - s.srcPos + 1)

theorem decodeAll_run (s : State) : decodeAll hw s = decodeCleared (decCleared s) := rfl

theorem decodeCleared_moving : Moving True decodeCleared :=
  decFirst_moving.bind fun _ => .bind .get fun _ => .loop (decLoop_isLoop hw) decStep_moving _

end Sys2Proof.Machine

namespace Sys2Proof.Machine

variable {reads : Prop} {s t : State}

/-! ## DECODE ends within its bound (45_decoder R130) -/

theorem DecMoves.src_eq (h : DecMoves reads s t) : t.src = s.src := by rw [h.framed]

/-- `ReadBit` leaves at most 8 bits in the rack, and a bit it answers is one pending bit fewer. -/
theorem readBit_takes (hc : s.rdCnt.toNat ≤ 8) :
    Runs readBit s
      (fun o t => t.rdCnt.toNat ≤ 8 ∧ (o ≠ none → (pendingBits t).length + 1 = (pendingBits s).length))
      (fun _ _ => True) := by
  simp only [pendingBits_length]
  refine (readBit_cases s).mono ?_ fun _ _ _ => trivial
  rintro o _ (⟨h0, rfl⟩ | ⟨rest, ⟨rfl, rfl⟩ | ⟨b, h0, hlt, rfl⟩⟩)
  · have hd : (s.rdCnt - 1).toNat + 1 = s.rdCnt.toNat := by bv_omega
    simp only
    omega
  · exact ⟨hc, fun h => absurd rfl h⟩
  · have h7 : ((8 : BitVec 4) - 1).toNat = 7 := rfl
    have hz : s.rdCnt.toNat = 0 := by rw [h0]; rfl
    simp only [h7, hz]
    omega

/-- `ReadBits` leaves at most 8 bits in the rack, and a field it answers is as many pending bits fewer as it is wide;
nothing is asked of the source position. -/
theorem readBitsFrom_takes (n v : Nat) (hc : s.rdCnt.toNat ≤ 8) :
    Runs (readBitsFrom n v) s
      (fun o t => t.rdCnt.toNat ≤ 8 ∧ (o ≠ none → (pendingBits t).length + n = (pendingBits s).length))
      (fun _ _ => True) := by
  induction n generalizing v s with
  | zero => exact ⟨hc, fun _ => rfl⟩
  | succ n ih =>
    refine (runs_bind _ _).2 ((readBit_takes hc).mono ?_ fun _ _ h => h)
    rintro (_ | b) t ⟨ht, hb⟩
    · exact ⟨ht, fun h => absurd rfl h⟩
    · refine (ih _ ht).mono (fun o u ⟨hu, hn⟩ => ⟨hu, fun ho => ?_⟩) fun _ _ h => h
      have h₁ := hb (by simp)
      have h₂ := hn ho
      omega

/-- A code is read as a field of 12 bits, END_OF_STREAM being answered as EOF is (45_decoder R131, R132). -/
theorem readCode_runs_of {P N : State → Prop} {E : Stop → State → Prop}
    (h : Runs (readBits codeBits) s (fun o t => P t ∧ (o ≠ none → N t)) E) :
    Runs readCode s (fun o t => P t ∧ (o ≠ none → N t)) E := by
  refine (runs_bind _ _).2 (h.mono ?_ fun _ _ h => h)
  rintro (_ | v) t ⟨ht, hv⟩
  · exact ⟨ht, fun ho => absurd rfl ho⟩
  · simp only
    split_ifs
    · exact ⟨ht, fun ho => absurd rfl ho⟩
    · exact ⟨ht, fun _ => hv (by simp)⟩

theorem readCode_takes (hc : s.rdCnt.toNat ≤ 8) :
    Runs readCode s
      (fun o t => (t.rdCnt.toNat ≤ 8 ∧ ReaderStep s t) ∧
        (o ≠ none → (pendingBits t).length + 12 = (pendingBits s).length))
      (fun _ _ => True) :=
  readCode_runs_of <| ((readBitsFrom_takes codeBits 0 hc).and (readBitsFrom_runs codeBits 0 s)).mono
    (fun _ _ ⟨⟨ht, hb⟩, hstep⟩ => ⟨⟨ht, hstep⟩, hb⟩) fun _ _ _ => trivial

/-- How many whole codes the BitReader can still deliver. -/
def codesLeft (s : State) : Nat := (pendingBits s).length / 12

theorem codesLeft_lt_bound (hc : s.rdCnt.toNat ≤ 8) : codesLeft s < s.src.length - s.srcPos + 1 := by
  have hlen := pendingBits_length s
  unfold codesLeft
  omega

theorem DecMoves.pendingBits_eq (h : DecMoves False s t) : pendingBits t = pendingBits s := by
  obtain ⟨hr, hc, hp, -⟩ := h.kept.resolve_left id
  unfold pendingBits
  rw [hr, hc, hp, h.src_eq]

/-- Between two steps of DECODE (R132): the phase is SCANNING and the rack holds at most 8 bits. -/
def DecScanning (s : State) : Prop := s.phase = .scanning ∧ s.rdCnt.toNat ≤ 8

theorem decStep_progress (h : DecScanning s) :
    Runs (decStep hw) s (fun _ t => t.phase = .done ∨ DecScanning t ∧ codesLeft t < codesLeft s)
      (fun _ _ => True) := by
  obtain ⟨hphase, hc⟩ := h
  rw [decStep_eq]
  refine (runs_bind _ _).2 ((readCode_takes hc).mono ?_ fun _ _ h => h)
  rintro (_ | new) t ⟨⟨ht, hstep, -, -⟩, hbits⟩
  · exact .inl rfl
  · refine (decOutput_moving new t).mono (fun _ u hu => .inr ?_) fun _ _ _ => trivial
    have hlen := hbits (by simp)
    have hp : t.phase = s.phase := by rw [hstep]
    have hu' := hu.pendingBits_eq
    obtain ⟨-, hcu, -, hpu⟩ := hu.kept.resolve_left id
    refine ⟨⟨hpu.trans (hp.trans hphase), by rwa [hcu]⟩, ?_⟩
    unfold codesLeft
    rw [hu']
    omega

theorem decFirst_progress (hc : s.rdCnt.toNat ≤ 8) :
    Runs decFirst s (fun _ t => t.phase = .done ∨ DecScanning t) (fun _ _ => True) := by
  refine (runs_bind _ _).2 ((readCode_takes hc).mono ?_ fun _ _ h => h)
  rintro (_ | r) t ⟨⟨ht, -⟩, -⟩
  · exact .inl rfl
  · refine (runs_bind _ _).2 ((snkWrite_moving _ t).mono (fun _ u hu => .inr ⟨rfl, ?_⟩) fun _ _ _ => trivial)
    obtain ⟨-, hcu, -, -⟩ := hu.kept.resolve_left id
    simpa only [hcu] using ht

theorem decodeCleared_done (hc : s.rdCnt.toNat ≤ 8) :
    Runs decodeCleared s (fun _ t => t.phase = .done) (fun _ _ => True) := by
  unfold decodeCleared
  simp only [runs_bind, runs_get]
  refine (decFirst_progress hc).mono (fun _ t ht => ?_) fun _ _ h => h
  exact loop_runs (decLoop_isLoop hw) (fun _ h => h.1) (fun _ h => h) (fun _ => decStep_progress) _
    (ht.imp_right fun h => ⟨h, codesLeft_lt_bound h.2⟩)

/-! ## The end of DECODE (45_decoder R130, R138 (c)) -/

/-- DECODE, begun in `s`, has come to `t`: it has set `mode`, and otherwise moved as its frame says. -/
def DecReached (s t : State) : Prop := DecMoves True { s with mode := .dec } t

/-- Everything the body of DECODE can do. -/
theorem decodeAll_decodes (s : State) :
    Runs (decodeAll hw) s (fun _ t => DecReached s t ∧ t.phase = .done)
      (fun e t => DecReached s t ∧ DecStop s e) := by
  have hclear : DecReached s (decCleared s) := ⟨rfl, List.suffix_refl _, fun _ _ => rfl, .inl trivial⟩
  have hdone := decodeCleared_done (s := decCleared s) (Nat.zero_le 8)
  refine .of_eq (decodeAll_run s) (((decodeCleared_moving _).and hdone).mono ?_ ?_)
  · exact fun _ _ ⟨ht, hd⟩ => ⟨hclear.trans ht, hd⟩
  · exact fun _ _ ⟨⟨ht, he⟩, _⟩ => ⟨hclear.trans ht, he⟩

theorem execDecode_ok (hf : s.fault = none) (h : decodeAll hw s = .ok () t) :
    exec .decode s = .next { t with rsp := some okPlain } :=
  runCommand_ok hf (op_bind_of_ok h _)

/-- DECODE with a host that answers ends normally, or with one of its five faults. -/
theorem execDecode_answered (hf : s.fault = none) (ha : Answered s) :
    ∃ t, DecReached s t ∧ ((t.phase = .done ∧ exec .decode s = .next { t with rsp := some okPlain }) ∨
      ∃ f ∈ [FaultCode.srcIo, .snkIo, .sinkClosed, .tableUnassigned, .stackOverflow],
        exec .decode s = .next (takeFault f t)) := by
  cases h : decodeAll hw s with
  | ok _ t =>
    obtain ⟨ht, hd⟩ := (decodeAll_decodes s).of_ok h
    exact ⟨t, ht, .inl ⟨hd, execDecode_ok hf h⟩⟩
  | error e t =>
    obtain ⟨ht, ⟨f, hfive, rfl⟩ | ⟨-, hm⟩⟩ := (decodeAll_decodes s).of_error h
    · exact ⟨t, ht, .inr ⟨f, hfive, runCommand_raised hf (op_bind_of_error h _)⟩⟩
    · exact absurd rfl (ha _ hm)

/-- `t` is `s` but for what DECODE may change, and no stack entry outside 0 to 4095 has changed. -/
def DecFramed (s t : State) : Prop :=
  t = { s with
    rdRack := t.rdRack, rdCnt := t.rdCnt, table := t.table, stk := t.stk, sp := t.sp, decOld := t.decOld,
    decNext := t.decNext, mode := t.mode, phase := t.phase, fault := t.fault, srcPos := t.srcPos,
    snk := t.snk, rsp := t.rsp, answers := t.answers } ∧
  ∀ a, 4096 ≤ a → stkRead t.stk a = stkRead s.stk a

theorem DecReached.decFramed (h : DecReached s t) (f : Option FaultCode) (w : Option Word) :
    DecFramed s { t with fault := f, rsp := w } := by
  obtain ⟨ht, -, hhigh, -⟩ := h
  refine ⟨?_, hhigh⟩
  rw [ht]

theorem execDecode_framed (h : exec .decode s = .next t) : DecFramed s t :=
  runCommand_keeps (P := DecFramed s) h (fun _ _ => ⟨rfl, fun _ _ => rfl⟩) fun _ => (runs_bind _ _).2 <|
    (decodeAll_decodes s).mono (fun _ _ ht => ht.1.decFramed _ _) fun _ _ ht _ _ => ht.1.decFramed _ _

end Sys2Proof.Machine

section

open Sys2Proof Sys2Proof.Machine

/-- Settles O55: each step consumes 12 bits or ends DECODE, and whatever ends it early is one of the five faults. -/
theorem decodeAlwaysEnds : Obligations.DecodeAlwaysEnds := by
  unfold Obligations.DecodeAlwaysEnds
  intro s hf ha
  obtain ⟨t, ht, hend⟩ := execDecode_answered hf ha
  have hkept : t.mode = .dec ∧ t.fault = none := by
    rw [DecMoves.framed ht]
    exact ⟨rfl, hf⟩
  obtain ⟨hmode, hfault⟩ := hkept
  rcases hend with ⟨hphase, hexec⟩ | ⟨f, hfive, hexec⟩
  · exact ⟨_, hexec, hmode, .inl ⟨hfault, rfl, hphase⟩⟩
  · refine ⟨_, hexec, hmode, .inr ?_⟩
    simpa [hfault] using hfive

/-- Settles O56: however DECODE is ended, it has only moved as its frame says, and its walks push below
`STACK_DEPTH`. -/
theorem decodeFrame : Obligations.DecodeFrame := fun _ _ => execDecode_framed

end

namespace Sys2Proof.Machine

variable {s t u : State} {c : Code} {m n w : Nat}

/-! ## The codes of a wire stream as bits (30_encoding R60) -/

/-- The bits of a field are those of its high part, then those of its low part. -/
theorem lowBits_split (v : BitVec w) (m n : Nat) :
    lowBits v (n + m) = lowBits (v.extractLsb' n m) m ++ lowBits (v.extractLsb' 0 n) n := by
  refine List.ext_getElem (by simp [lowBits_length, Nat.add_comm]) fun i hi hi' => ?_
  rw [lowBits_length] at hi
  rw [getElem_lowBits, List.getElem_append]
  split_ifs with hm
  · rw [lowBits_length] at hm
    have hidx : m - 1 - i < m ∧ n + (m - 1 - i) = n + m - 1 - i := by omega
    rw [getElem_lowBits, BitVec.getLsbD_extractLsb', hidx.2]
    simp [hidx.1]
  · rw [lowBits_length] at hm
    have hidx : n - 1 - (i - m) < n ∧ 0 + (n - 1 - (i - m)) = n + m - 1 - i := by omega
    simp only [getElem_lowBits, lowBits_length, BitVec.getLsbD_extractLsb', hidx, decide_true, Bool.true_and]

theorem lowBits_append {m n : Nat} (x : BitVec m) (y : BitVec n) :
    lowBits (x ++ y) (n + m) = lowBits x m ++ lowBits y n := by
  rw [lowBits_split, BitVec.extractLsb'_append_eq_left, BitVec.extractLsb'_append_eq_right]

/-- The bits of a code list, 12 for each code. -/
def codesBits (codes : List Code) : List Bool := codes.flatMap fun c => lowBits c codeBits

theorem codesBits_cons (c : Code) (codes : List Code) :
    codesBits (c :: codes) = lowBits c codeBits ++ codesBits codes :=
  List.flatMap_cons

theorem codesBits_length (codes : List Code) : (codesBits codes).length = 12 * codes.length := by
  simp [codesBits, List.length_flatMap, lowBits_length, codeBits, Nat.mul_comm]

theorem bytesBits_length (bytes : List Byte) : (bytesBits bytes).length = 8 * bytes.length := by
  simp [bytesBits, List.length_flatMap, lowBits_length, Nat.mul_comm]

/-- A code list is packed without gaps, but for less than a byte at its end. -/
theorem bytesBits_wire : ∀ codes : List Code, ∃ pad : List Bool, pad.length < 8 ∧
    bytesBits (wire codes) = codesBits codes ++ pad
  | [] => ⟨[], by decide, rfl⟩
  | [a] => by
    refine ⟨lowBits 0#4 4, by decide, ?_⟩
    have ha : lowBits a codeBits = _ := lowBits_split a 8 4
    have hlast : lowBits (a.extractLsb' 0 4 ++ 0#4) 8 = _ := lowBits_append (a.extractLsb' 0 4) 0#4
    rw [wire, bytesBits_cons, bytesBits_singleton, codesBits_cons, ha, hlast]
    simp [codesBits]
  | a :: b :: rest => by
    obtain ⟨pad, hlen, hpad⟩ := bytesBits_wire rest
    have ha : lowBits a codeBits = _ := lowBits_split a 8 4
    have hb : lowBits b codeBits = _ := lowBits_split b 4 8
    have hmiddle : lowBits (a.extractLsb' 0 4 ++ b.extractLsb' 8 4) 8 = _ := lowBits_append _ _
    refine ⟨pad, hlen, ?_⟩
    rw [wire, bytesBits_cons, bytesBits_cons, bytesBits_cons, codesBits_cons, codesBits_cons, ha, hb, hmiddle, hpad]
    simp only [List.append_assoc]

/-! ## What reading leaves in the BitReader when the host serves the ports (40_bitreader R81) -/

/-- The byte in the rack, then the bytes not yet pulled. -/
def rackAndSource (s : State) : List Byte := s.rdRack :: s.src.drop s.srcPos

/-- From `s` to `t`, `n` bytes went through the rack, an answer used up for each. -/
structure Pulled (n : Nat) (s t : State) : Prop where
  srcPos : t.srcPos = s.srcPos + n
  answers : t.answers = s.answers.drop n
  bytes : rackAndSource t = (rackAndSource s).drop n

theorem Pulled.refl (s : State) : Pulled 0 s s := ⟨rfl, rfl, rfl⟩

theorem Pulled.trans (h : Pulled m s t) (h' : Pulled n t u) : Pulled (m + n) s u where
  srcPos := by rw [h'.srcPos, h.srcPos, Nat.add_assoc]
  answers := by rw [h'.answers, h.answers, List.drop_drop]
  bytes := by rw [h'.bytes, h.bytes, List.drop_drop]

/-- A bit that `ReadBit` answers comes from the rack, or from a byte that is pulled. -/
theorem pulled_of_readBit {b : Bool} (hs : Served s) (h : readBit s = .ok (some b) t) : ∃ n, Pulled n s t := by
  by_cases hc : s.rdCnt = 0
  · cases hb : s.src[s.srcPos]? with
    | none =>
      rw [readBit_eof hs hc hb] at h
      cases h
    | some r =>
      rw [readBit_pulls hs hc hb] at h
      cases h
      obtain ⟨hlt, rfl⟩ := List.getElem?_eq_some_iff.1 hb
      exact ⟨1, rfl, List.drop_one.symm, (List.drop_eq_getElem_cons hlt).symm⟩
  · rw [readBit_ready hc] at h
    cases h
    exact ⟨0, rfl, rfl, rfl⟩

theorem Delivers.pulled {bits : List Bool} (hs : Served s) (h : Delivers bits s t) : ∃ n, Pulled n s t := by
  induction bits generalizing s with
  | nil => exact ⟨0, (show s = t from h) ▸ .refl s⟩
  | cons b bits ih =>
    obtain ⟨r, hb, hr⟩ := h
    obtain ⟨m, hm⟩ := pulled_of_readBit hs hb
    have hstep : ReaderStep s r := (readBit_runs s).of_ok hb
    obtain ⟨n, hn⟩ := ih (served_of_suffix hs hstep.2.2) hr
    exact ⟨m + n, hm.trans hn⟩

/-- How many bytes went through the rack, from the bits that are left: each brought 8 bits. -/
theorem Pulled.count {k : Nat} (h : Pulled n s t) (hp : (pendingBits t).length + k = (pendingBits s).length) :
    8 * n + s.rdCnt.toNat = k + t.rdCnt.toNat := by
  have hbytes := congrArg List.length h.bytes
  simp only [rackAndSource, List.length_drop, List.length_cons] at hbytes
  rw [pendingBits_length, pendingBits_length] at hp
  omega

/-! ## A code is read (45_decoder R131, R132) -/

/-- From `s` to `t` the 12 bits of a code were read, and `rest` is still pending. -/
structure CodeRead (rest : List Bool) (s t : State) : Prop where
  step : ReaderStep s t
  served : Served t
  pending : pendingBits t = rest
  rdCnt : t.rdCnt.toNat < 8
  pulled : ∃ n, Pulled n s t ∧ 8 * n + s.rdCnt.toNat = codeBits + t.rdCnt.toNat

/-- The next 12 pending bits are read as a code, 256 as the end of the stream. -/
theorem readCode_pending {rest : List Bool} (hs : Served s) (hc : s.rdCnt.toNat ≤ 8)
    (h : pendingBits s = lowBits c codeBits ++ rest) :
    ∃ t, readCode s = .ok (if c.toNat = eos then none else some c) t ∧ CodeRead rest s t := by
  obtain ⟨t, hd, hp, hlt⟩ := delivers_pending hs hc h
  obtain ⟨n, hn⟩ := hd.pulled hs
  have hlen : (pendingBits t).length + codeBits = (pendingBits s).length := by
    rw [hp, h, List.length_append, lowBits_length, Nat.add_comm]
  have hvalue : bitsValue (lowBits c codeBits) = c.toNat :=
    (bitsValue_lowBits c codeBits).trans (Nat.mod_eq_of_lt c.isLt)
  have hread := readBits_eq_some.2 ⟨_, lowBits_length c codeBits, hd, hvalue⟩
  refine ⟨t, (op_bind_of_ok hread _).trans ?_, hd.step, served_of_suffix hs hd.step.2.2, hp,
    hlt (List.cons_ne_nil _ _), n, hn, hn.count hlen⟩
  simp only
  split_ifs
  · rfl
  · rw [BitVec.ofNat_toNat, BitVec.setWidth_eq]
    rfl

/-- With fewer than 12 pending bits the stream ends as at END_OF_STREAM (R137). -/
theorem readCode_short (hs : Served s) (hc : s.rdCnt.toNat ≤ 8) (h : (pendingBits s).length < codeBits) :
    ∃ t, readCode s = .ok none t := by
  obtain ⟨t, hread, -⟩ := readBits_short hs hc h
  exact ⟨t, op_bind_of_ok hread _⟩

theorem pendingBits_decCleared (s : State) : pendingBits (decCleared s) = bytesBits (s.src.drop s.srcPos) := rfl

/-! ## DECODE of nothing (45_decoder R131, R136) -/

/-- DECODE ends in `DecStart` when the first code is 256 or is not there. -/
theorem decodeAll_nothing (h : readCode (decCleared s) = .ok none t) :
    decodeAll hw s = .ok () { t with phase := .done } := by
  have hfirst : decFirst (decCleared s) = .ok () { t with phase := .done } := op_bind_of_ok h _
  exact (op_bind_of_ok hfirst _).trans (loop_done (decLoop_isLoop hw) rfl _)

/-- The bits of `0x10` and a byte below 16 begin with the code 256. -/
theorem bytesBits_eos {b : Byte} (h : b.toNat < 16) (rest : List Byte) :
    bytesBits (0x10 :: b :: rest) = lowBits (256 : Code) codeBits ++ (lowBits b 4 ++ bytesBits rest) := by
  have hzero : ∀ i, 4 ≤ i → b.getLsbD i = false := fun i hi =>
    Nat.testBit_lt_two_pow (h.trans_le (Nat.pow_le_pow_right two_pos hi))
  have hlow : lowBits b 8 = [false, false, false, false] ++ lowBits b 4 := by
    show [b.getLsbD 7, b.getLsbD 6, b.getLsbD 5, b.getLsbD 4] ++ lowBits b 4 = _
    rw [hzero 7 (by decide), hzero 6 (by decide), hzero 5 (by decide), hzero 4 (by decide)]
  rw [bytesBits_cons, bytesBits_cons, hlow]
  rfl

theorem decodeReadsNothing (hs : Served s)
    (h : (s.src.drop s.srcPos).length < 2 ∨
      ∃ (b : Byte) (rest : List Byte), s.src.drop s.srcPos = 0x10 :: b :: rest ∧ b.toNat < 16) :
    ∃ t, readCode (decCleared s) = .ok none t := by
  rcases h with hfew | ⟨b, rest, hdrop, hb⟩
  · refine readCode_short (s := decCleared s) hs (Nat.zero_le 8) ?_
    rw [pendingBits_decCleared, bytesBits_length, codeBits]
    omega
  · obtain ⟨t, ht, -⟩ := readCode_pending (s := decCleared s) hs (Nat.zero_le 8)
      ((congrArg bytesBits hdrop).trans (bytesBits_eos hb rest))
    exact ⟨t, ht⟩

end Sys2Proof.Machine

section

open Sys2Proof Sys2Proof.Machine

/-- Settles O52: the first field is 256 or is cut short, so `DecStart` ends the operation before it writes. -/
theorem decodeOfNothing : Obligations.DecodeOfNothing := by
  unfold Obligations.DecodeOfNothing
  intro s ⟨hf, hs⟩ hnothing
  obtain ⟨t, hread⟩ := decodeReadsNothing hs hnothing
  obtain ⟨⟨-, ht, -, -⟩, -⟩ := (readCode_takes (s := decCleared s) (Nat.zero_le 8)).of_ok hread
  refine ⟨_, execDecode_ok hf (decodeAll_nothing hread), rfl, ?_⟩
  rw [ht]
  exact ⟨hf, rfl, rfl, rfl, rfl, rfl, rfl, rfl, rfl⟩

end

namespace Sys2Proof.Machine

variable {s t u : State} {x : Byte} {m n : Nat}

/-! ## DECODE of one literal (45_decoder R131, R132) -/

/-- The state after the first code `r` was read in `s` and written to an open sink (R131). -/
def decStarted (r : Code) (s : State) : State :=
  { s with answers := s.answers.tail, snk := s.snk ++ [r.setWidth 8], decOld := r, phase := .scanning }

theorem decFirst_code {r : Code} (h : readCode s = .ok (some r) t) (ht : Served t) (ho : t.snkClosed = false) :
    decFirst s = .ok () (decStarted r t) :=
  (op_bind_of_ok h _).trans (op_bind_of_ok (snkWrite_served ht ho _) _)

/-- A `DecStep` that reads no code ends the loop (R132). -/
theorem decLoop_nothing (hphase : s.phase = .scanning) (h : readCode s = .ok none t) (n : Nat) :
    decLoop hw (n + 1) s = .ok () { t with phase := .done } := by
  have hstep : decStep hw s = .ok () { t with phase := .done } := by
    rw [decStep_eq]
    exact op_bind_of_ok h _
  rw [(decLoop_isLoop hw).succ, if_pos hphase, op_bind_of_ok hstep, loop_done (decLoop_isLoop hw) rfl]

/-- A literal and END_OF_STREAM, packed, are 24 bits. -/
theorem bytesBits_literal (x : Byte) (rest : List Byte) :
    bytesBits ((0#4 ++ x.extractLsb' 4 4) :: (x.extractLsb' 0 4 ++ 1#4) :: 0x00 :: rest) =
      lowBits (x.setWidth 12 : Code) codeBits ++ (lowBits (256 : Code) codeBits ++ bytesBits rest) := by
  have hcodes : codesBits (greedy [x]) = lowBits (x.setWidth 12 : Code) codeBits ++ lowBits (256 : Code) codeBits := rfl
  obtain ⟨pad, -, hpad⟩ := bytesBits_wire (greedy [x])
  have hlen := congrArg List.length hpad
  rw [wire_greedy_singleton] at hpad hlen
  obtain rfl : pad = [] := List.eq_nil_of_length_eq_zero (by
    rw [List.length_append, bytesBits_length, codesBits_length] at hlen
    simpa [greedy, greedyFrom] using hlen)
  rw [hcodes, List.append_nil] at hpad
  rw [← List.append_assoc, ← hpad, ← bytesBits_append]
  rfl

/-- The code of a literal (00_scope R4). -/
theorem setWidth_byte (x : Byte) : (x.setWidth 12 : Code).toNat < eos ∧ (x.setWidth 12 : Code).setWidth 8 = x := by
  have hx : (x.setWidth 12 : Code).toNat = x.toNat := BitVec.toNat_setWidth_of_le (by decide)
  exact ⟨hx ▸ x.isLt, BitVec.setWidth_setWidth_of_le _ (by decide)⟩

/-- The body of DECODE on a literal, END_OF_STREAM and whatever follows. -/
theorem decodeAll_literal {rest : List Byte} (hs : Served s) (ho : s.snkClosed = false)
    (h : s.src.drop s.srcPos = (0#4 ++ x.extractLsb' 4 4) :: (x.extractLsb' 0 4 ++ 1#4) :: 0x00 :: rest) :
    decodeAll hw s = .ok () { decCleared s with
      phase := .done, decOld := x.setWidth 12, srcPos := s.srcPos + 3, snk := s.snk ++ [x]
      answers := s.answers.drop 4 } := by
  obtain ⟨hlit, hbyte⟩ := setWidth_byte x
  have hp : pendingBits (decCleared s) = _ := (congrArg bytesBits h).trans (bytesBits_literal x rest)
  obtain ⟨t, hread, ht⟩ := readCode_pending (s := decCleared s) hs (Nat.zero_le 8) hp
  rw [if_neg hlit.ne] at hread
  have hfirst := decFirst_code hread ht.served (by rw [ht.step.1]; exact ho)
  obtain ⟨u, hlast, hu⟩ := readCode_pending (s := decStarted (x.setWidth 12) t) (served_tail ht.served) ht.rdCnt.le
    ht.pending
  have hloop := decLoop_nothing rfl hlast
  obtain ⟨m, hm, hbits⟩ := ht.pulled
  obtain ⟨n, hn, hbits'⟩ := hu.pulled
  have hempty : (decCleared s).rdCnt.toNat = 0 := rfl
  have hkept : (decStarted (x.setWidth 12) t).rdCnt = t.rdCnt := rfl
  have hlt := ht.rdCnt
  have hlt' := hu.rdCnt
  rw [codeBits] at hbits hbits'
  rw [hkept] at hbits'
  obtain ⟨rfl, rfl, hzero⟩ : m = 2 ∧ n = 1 ∧ u.rdCnt.toNat = 0 := by omega
  have hcnt : u.rdCnt = 0 := BitVec.eq_of_toNat_eq hzero
  have hpos : u.srcPos = s.srcPos + 3 := by rw [hn.srcPos]; exact congrArg (· + 1) hm.srcPos
  have hans : u.answers = s.answers.drop 4 := by
    rw [hn.answers, decStarted, hm.answers, List.drop_one, List.tail_drop, List.tail_drop]
    rfl
  have hrack : u.rdRack = 0 := by
    have hbytes := hn.bytes.trans (congrArg (List.drop 1) hm.bytes)
    simp only [rackAndSource, decCleared, h, List.drop_succ_cons, List.drop_zero, List.cons.injEq] at hbytes
    exact hbytes.1
  refine (op_bind_of_ok hfirst _).trans ((hloop _).trans ?_)
  rw [hu.step.1, hcnt, hpos, hans, hrack, decStarted, hbyte, ht.step.1]
  rfl

end Sys2Proof.Machine

section

open Sys2Proof Sys2Proof.Machine

/-- Settles O53: `DecStart` reads the literal in two bytes, and the one `DecStep` reads END_OF_STREAM from the
four bits left in the rack and a third byte. -/
theorem decodeOfOneLiteral : Obligations.DecodeOfOneLiteral := by
  unfold Obligations.DecodeOfOneLiteral
  intro s x rest ⟨hf, hs⟩ ho h
  exact execDecode_ok hf (decodeAll_literal hs ho h)

end

namespace Sys2Proof.Machine

variable {m : List ((Code × Byte) × Code)} {t : List (Nat × TableEntry)} {next : BitVec 13} {k cur old code : Code}
  {b x : Byte} {bytes w : List Byte}

/-! ## The sequences of the DecodeTable and the map of the Encoder (44_encoder R124, 45_decoder R135) -/

/-- `seq(k)` in the table `t` is `bytes`, first byte first (00_scope R9). -/
inductive Spells (t : List (Nat × TableEntry)) : Code → List Byte → Prop where
  | literal {k : Code} (h : k.toNat < eos) : Spells t k [k.setWidth 8]
  | cell {k : Code} {e : TableEntry} {bytes : List Byte} (h : eos < k.toNat) (hc : lookup t k.toNat = some e)
      (hp : Spells t e.parent bytes) : Spells t k (bytes ++ [e.char])

/-- A walk meets the sequence of a code last byte first (43_decode_table R113). -/
theorem Spells.chainBytes (h : Spells t k bytes) {n : Nat} (hn : bytes.length ≤ n) :
    chainBytes t n k = some bytes.reverse := by
  induction h generalizing n with
  | literal h =>
    obtain ⟨n, rfl⟩ : ∃ j, n = j + 1 := ⟨n - 1, by simp at hn; omega⟩
    rw [Machine.chainBytes, if_pos h]
    rfl
  | @cell k e bytes h hc _ ih =>
    rw [List.length_append, List.length_singleton] at hn
    obtain ⟨n, rfl⟩ : ∃ j, n = j + 1 := ⟨n - 1, by omega⟩
    rw [Machine.chainBytes, if_neg (by omega), if_neg (by omega), hc]
    simp [ih (n := n) (by omega)]

theorem Spells.byte (t : List (Nat × TableEntry)) (x : Byte) : Spells t (x.setWidth 12) [x] := by
  obtain ⟨hlit, hbyte⟩ := setWidth_byte x
  have h := Spells.literal (t := t) hlit
  rwa [hbyte] at h

theorem Spells.ne_nil (h : Spells t k bytes) : bytes ≠ [] := by
  cases h <;> simp

theorem Spells.ne_eos (h : Spells t k bytes) : k.toNat ≠ eos := by
  cases h <;> omega

/-- A cell lies above 256 and below the next code, and its parent below it (44_encoder R125 (c), 45_decoder R135). -/
def Chained (t : List (Nat × TableEntry)) (next : BitVec 13) : Prop :=
  ∀ i e, lookup t i = some e → eos < i ∧ i < next.toNat ∧ e.parent.toNat < i

/-- Each cell of a sequence lies below the one it is the parent of, so that a sequence is no longer than the codes up
to its own. -/
theorem Spells.length_le (hc : Chained t next) (h : Spells t k bytes) : bytes.length ≤ max 1 (k.toNat - 255) := by
  induction h with
  | literal h => simp
  | @cell k e bytes h he _ ih =>
    have hp := (hc _ _ he).2.2
    rw [List.length_append, List.length_singleton]
    unfold eos at h
    omega

theorem Spells.length_le_depth (hc : Chained t next) (h : Spells t k bytes) : bytes.length ≤ hw.stackDepth := by
  have hle := h.length_le hc
  have hk := k.isLt
  change bytes.length ≤ 4096
  omega

/-- The sequence of a code below the cell at `i` does not go through that cell. -/
theorem Spells.of_insert {i : Nat} {e : TableEntry} (hc : Chained (insert t i e) next)
    (h : Spells (insert t i e) k bytes) (hk : k.toNat < i) : Spells t k bytes := by
  induction h with
  | literal h => exact .literal h
  | @cell k e' bytes h he _ ih =>
    have hp := (hc _ _ he).2.2
    rw [lookup_insert, if_neg hk.ne] at he
    exact .cell h he (ih (hp.trans hk))

/-- The table `t` holds the map `m` of R124, and `next` is the next code of both. -/
structure Mirrors (m : List ((Code × Byte) × Code)) (t : List (Nat × TableEntry)) (next : BitVec 13) : Prop where
  keys : ∀ p c code, m.lookup (p, c) = some code → lookup t code.toNat = some ⟨p, c⟩
  chained : Chained t next
  next : firstCode ≤ next.toNat ∧ next.toNat ≤ maxCode + 1

theorem mirrors_clear : Mirrors [] [] 257 where
  keys _ _ _ h := nomatch h
  chained _ _ h := nomatch h
  next := by decide

theorem Mirrors.lt_next (h : Mirrors m t next) (hs : Spells t k bytes) : k.toNat < next.toNat := by
  cases hs with
  | literal hk => exact hk.trans (Nat.lt_of_succ_le h.next.1)
  | cell _ he _ => exact (h.chained _ _ he).2.1

/-- The cells and the next code after step 4 of `DecStep` (45_decoder R132, R134). -/
def afterAssign (t : List (Nat × TableEntry)) (next : BitVec 13) (old : Code) (first : Byte) :
    List (Nat × TableEntry) × BitVec 13 :=
  if next.toNat ≤ maxCode then (insert t next.toNat ⟨old, first⟩, next + 1) else (t, next)

theorem afterAssign_next (hn : next.toNat ≤ maxCode + 1) (t : List (Nat × TableEntry)) (old : Code) (b : Byte) :
    (afterAssign t next old b).2.toNat = min (maxCode + 1) (next.toNat + 1) := by
  unfold afterAssign maxCode at *
  split_ifs <;> simp only <;> bv_omega

/-- A miss of the Encoder, while codes are left, adds a cell and its key (44_encoder R122). -/
theorem Mirrors.assign (h : Mirrors m t next) (hn : next.toNat ≤ maxCode) (hcur : cur.toNat < next.toNat) :
    Mirrors (((cur, b), BitVec.ofNat 12 next.toNat) :: m) (insert t next.toNat ⟨cur, b⟩) (next + 1) := by
  obtain ⟨hlow, -⟩ := h.next
  have hcode : (BitVec.ofNat 12 next.toNat).toNat = next.toNat := Nat.mod_eq_of_lt (Nat.lt_succ_of_le hn)
  have hsucc := nextCode_succ hlow hn
  have hnext : (next + 1).toNat = next.toNat + 1 := by
    unfold maxCode at hn
    bv_omega
  refine ⟨fun p c code hl => ?_, fun i e hl => ?_, hsucc⟩
  · rw [List.lookup_cons] at hl
    by_cases hk : (p, c) = (cur, b)
    · rw [hk, beq_self_eq_true] at hl
      cases hk
      cases hl
      rw [hcode, lookup_insert, if_pos rfl]
    · rw [beq_false_of_ne hk] at hl
      have he := h.keys p c code hl
      rw [lookup_insert, if_neg (h.chained _ _ he).2.1.ne, he]
  · rw [lookup_insert] at hl
    split_ifs at hl with hi
    · cases hl
      rw [hi]
      exact ⟨hlow, by omega, hcur⟩
    · obtain ⟨hlo, hhi, hp⟩ := h.chained i e hl
      exact ⟨hlo, by omega, hp⟩

/-- After a miss of the Encoder the table with the cell of that miss holds the map that R124 goes on with. -/
theorem Mirrors.miss (h : Mirrors m t next) (hkey : m.lookup (cur, b) = none) (hcur : cur.toNat < next.toNat) :
    ∃ m', Mirrors m' (afterAssign t next cur b).1 (afterAssign t next cur b).2 ∧
      ∀ rest, greedyFrom m next.toNat cur (b :: rest) =
        cur :: greedyFrom m' (afterAssign t next cur b).2.toNat (b.setWidth 12) rest := by
  have hsucc := afterAssign_next h.next.2 t cur b
  by_cases hn : next.toNat ≤ maxCode
  · rw [min_eq_right (by omega)] at hsucc
    rw [hsucc, afterAssign, if_pos hn]
    exact ⟨_, h.assign hn hcur, fun rest => greedyFrom_miss_room hkey hn rest⟩
  · rw [afterAssign, if_neg hn]
    exact ⟨m, h, fun rest => greedyFrom_miss_full hkey (not_le.1 hn) rest⟩

/-! ## Which code lists the Decoder decodes (45_decoder R132, R133) -/

/-- Step 2 of `DecStep` resolves `code` to `w` (R132, R133), with `old` the code before it: by the table, or, when
the code is not below the next one, as the sequence of `old` and its first byte again. -/
def Resolves (t : List (Nat × TableEntry)) (next : BitVec 13) (old code : Code) (w : List Byte) : Prop :=
  (code.toNat < next.toNat ∧ Spells t code w) ∨
  (next.toNat ≤ code.toNat ∧ ∃ b bytes, Spells t old (b :: bytes) ∧ w = b :: bytes ++ [b])

/-- The code list `codes`, up to its END_OF_STREAM, makes the Decoder write `out` when its table, next code and old
code are `t`, `next` and `old`. -/
inductive Decodes : List (Nat × TableEntry) → BitVec 13 → Code → List Code → List Byte → Prop where
  | done {t : List (Nat × TableEntry)} {next : BitVec 13} {old : Code} :
      Decodes t next old [BitVec.ofNat 12 eos] []
  | code {t : List (Nat × TableEntry)} {next : BitVec 13} {old code : Code} {b : Byte} {w out : List Byte}
      {codes : List Code} (hne : code.toNat ≠ eos) (hres : Resolves t next old code (b :: w))
      (hlen : (b :: w).length ≤ hw.stackDepth)
      (hrest : Decodes (afterAssign t next old b).1 (afterAssign t next old b).2 code codes out) :
      Decodes t next old (code :: codes) (b :: w ++ out)

/-- The Encoder's map is one cell ahead of the Decoder's table: the cell of the Encoder's last miss, which DECODE
assigns after it has resolved the next code (44_encoder R125 (d)). A code that goes through that cell is the pending
code, and its sequence that of `old` and the byte of the miss (R133). -/
theorem Mirrors.resolves (h : Mirrors m (afterAssign t next old x).1 (afterAssign t next old x).2)
    (hs : Spells (afterAssign t next old x).1 cur (x :: w)) : Resolves t next old cur (x :: w) := by
  have hlt := h.lt_next hs
  have hc := h.chained
  have hlow := h.next.1
  unfold afterAssign at hs hlt hc hlow
  split_ifs at hs hlt hc hlow with hn
  · unfold firstCode at hlow
    unfold maxCode at hn
    simp only at hlt hlow
    by_cases hcur : cur.toNat < next.toNat
    · exact .inl ⟨hcur, hs.of_insert hc hcur⟩
    · have heq : cur.toNat = next.toNat := by bv_omega
      refine .inr ⟨heq.ge, ?_⟩
      generalize hbytes : x :: w = bytes at hs
      cases hs with
      | literal hlit =>
        unfold eos at hlit
        bv_omega
      | @cell _ e bytes _ he hp =>
        have hparent := (hc _ _ he).2.2
        rw [lookup_insert, if_pos heq] at he
        cases he
        have hold : Spells t old bytes := hp.of_insert hc (heq ▸ hparent)
        obtain ⟨b, bytes, rfl⟩ := List.exists_cons_of_ne_nil hold.ne_nil
        obtain ⟨rfl, rfl⟩ := List.cons.inj hbytes
        exact ⟨_, bytes, hold, rfl⟩
  · exact .inl ⟨hlt, hs⟩

/-- The codes that R124 goes on with from the current code `cur`, whose sequence begins with the byte of the last miss,
decode to that sequence and the bytes left. -/
theorem greedyFrom_decodes (bytes : List Byte)
    (h : Mirrors m (afterAssign t next old x).1 (afterAssign t next old x).2)
    (hs : Spells (afterAssign t next old x).1 cur (x :: w)) :
    Decodes t next old (greedyFrom m (afterAssign t next old x).2.toNat cur bytes) (x :: w ++ bytes) := by
  induction bytes generalizing m t next old cur x w with
  | nil => exact .code hs.ne_eos (h.resolves hs) (hs.length_le_depth h.chained) .done
  | cons b rest ih =>
    cases hkey : m.lookup (cur, b) with
    | some c =>
      have hcell := h.keys _ _ _ hkey
      have hc := Spells.cell (h.chained _ _ hcell).1 hcell hs
      rw [greedyFrom_hit hkey, List.append_cons]
      exact ih h hc
    | none =>
      obtain ⟨m', hm, hgreedy⟩ := h.miss hkey (h.lt_next hs)
      rw [hgreedy]
      exact .code hs.ne_eos (h.resolves hs) (hs.length_le_depth h.chained) (ih hm (.byte _ b))

/-- The code list of a non-empty input is its first byte and codes that decode to the others, from the state that
`DecStart` leaves. -/
theorem greedy_decodes (x : Byte) (rest : List Byte) :
    ∃ codes, greedy (x :: rest) = x.setWidth 12 :: codes ∧ Decodes [] 257 (x.setWidth 12) codes rest := by
  cases rest with
  | nil => exact ⟨_, rfl, .done⟩
  | cons b rest =>
    obtain ⟨m, hm, hgreedy⟩ := mirrors_clear.miss (b := b) rfl (mirrors_clear.lt_next (.byte [] x))
    exact ⟨_, hgreedy rest, greedyFrom_decodes rest hm (.byte _ b)⟩

end Sys2Proof.Machine

namespace Sys2Proof.Machine

variable {s t u : State} {code : Code} {codes : List Code} {b : Byte} {w bytes total : List Byte} {count : Nat}
  {pad : List Bool}

/-! ## A code is resolved on the stack and written (45_decoder R132, R133) -/

theorem rising_writeRun {m : List Host.Cell} (hm : rising m) (i : Nat) (bytes : List Byte) :
    rising (writeRun m i bytes) := by
  induction bytes generalizing m i with
  | nil => exact hm
  | cons b bytes ih => exact ih (rising_stkWrite hm i b) (i + 1)

/-- A stack that holds `bytes`, the first one lowest, is emptied from its top. -/
theorem topFirst_eq_reverse (hsp : s.sp.toNat = bytes.length)
    (h : ∀ j (hj : j < bytes.length), stkRead s.stk j = bytes[j]) : topFirst s = bytes.reverse := by
  rw [topFirst, List.map_reverse, hsp]
  congr 1
  exact List.ext_getElem (by simp) fun j hj hj' => by simpa using h j hj'

theorem stackTop_of_topFirst (h : topFirst s = b :: w) : stackTop s = b := by
  obtain ⟨n, hn⟩ : ∃ n, s.sp.toNat = n + 1 := by
    refine Nat.exists_eq_succ_of_ne_zero fun h0 => ?_
    rw [topFirst, h0] at h
    cases h
  have hd : (s.sp - 1).toNat = n := by bv_omega
  rw [topFirst_pop hn] at h
  rw [stackTop, hd]
  exact (List.cons.inj h).1

/-- The state after a walk that resolves a sequence, which it pushes last byte first from `sp0` on. -/
theorem walk_spells {k : Code} (hk : Spells s.table k bytes) {sp0 : BitVec 13}
    (hroom : sp0.toNat + bytes.length ≤ hw.stackDepth) :
    walk hw k sp0 s = .ok () (pushed bytes.reverse { s with sp := sp0 }) :=
  walk_resolves (hk.chainBytes le_rfl) (by rwa [List.length_reverse])

theorem stkRead_pushed_at {sp0 : BitVec 13} (hr : rising s.stk) (bytes : List Byte) {j : Nat} (hj : j < bytes.length) :
    stkRead (pushed bytes { s with sp := sp0 }).stk (sp0.toNat + j) = bytes[j] := by
  rw [stkRead_pushed (s := { s with sp := sp0 }) hr, List.getElem?_eq_getElem hj]
  rfl

/-- `stk[0] <- stk[sp - 1]` (45_decoder R132, R133). -/
def bottomFilled (s : State) : State := { s with stk := stkWrite s.stk 0 (stackTop s) }

/-- The byte written to the bottom of a stack that holds `bytes` above it comes out last. -/
theorem topFirst_bottomFilled (hr : rising s.stk) (hsp : s.sp.toNat = 1 + bytes.length)
    (h : ∀ j (hj : j < bytes.length), stkRead s.stk (1 + j) = bytes[j]) :
    topFirst (bottomFilled s) = bytes.reverse ++ [stackTop s] := by
  rw [topFirst_eq_reverse (bytes := stackTop s :: bytes), List.reverse_cons]
  · exact hsp.trans (Nat.add_comm _ _)
  · rintro (_ | j) hj
    · exact stkRead_write_self hr 0 _
    · exact (stkRead_write_of_ne _ _ (Nat.succ_ne_zero j)).trans
        ((congrArg _ (Nat.add_comm j 1)).trans (h j (Nat.lt_of_succ_lt_succ hj)))

/-- Step 2 of `DecStep` leaves the sequence on the stack, to come out first byte first. -/
theorem decResolve_resolves (hr : rising s.stk) (h : Resolves s.table s.decNext s.decOld code w)
    (hlen : w.length ≤ hw.stackDepth) :
    ∃ t, decResolve hw code s = .ok () t ∧ WalkStep s t ∧ rising t.stk ∧ topFirst t = w := by
  obtain ⟨hlt, hs⟩ | ⟨hge, b, bytes, hs, rfl⟩ := h
  · have hroom : (0 : BitVec 13).toNat + w.length ≤ hw.stackDepth := by
      change 0 + w.length ≤ _
      omega
    have hrun : decResolve hw code s = walk hw code 0 s := by
      unfold decResolve
      rw [op_bind_of_ok (op_get s), if_neg (by omega)]
    refine ⟨_, hrun.trans (walk_spells hs hroom), rfl, rising_writeRun hr _ _, ?_⟩
    rw [topFirst_eq_reverse (bytes := w.reverse), List.reverse_reverse]
    · rw [pushed_sp _ (by rwa [List.length_reverse])]
      exact Nat.zero_add _
    · intro j hj
      simpa using stkRead_pushed_at (sp0 := 0) hr w.reverse hj
  · have hroom : (1 : BitVec 13).toNat + (b :: bytes).reverse.length ≤ hw.stackDepth := by
      rw [List.length_append, List.length_singleton] at hlen
      change 1 + _ ≤ _
      rw [List.length_reverse]
      omega
    have hu : rising (pushed (b :: bytes).reverse { s with sp := 1 }).stk := rising_writeRun hr _ _
    have htop := stackTop_pushed (s := { s with sp := 1 }) (bytes := (b :: bytes).reverse) hr (by simp) hroom
    have hrun : decResolve hw code s = (walk hw s.decOld 1 >>= fun _ => modify bottomFilled) s := by
      unfold decResolve
      rw [op_bind_of_ok (op_get s), if_pos hge]
      rfl
    refine ⟨_, hrun.trans (op_bind_of_ok (walk_spells hs (by rwa [List.length_reverse] at hroom)) _), rfl,
      rising_stkWrite hu _ _, ?_⟩
    rw [topFirst_bottomFilled hu (pushed_sp (s := { s with sp := 1 }) hroom)
      fun _ hj => stkRead_pushed_at (sp0 := 1) hr _ hj, htop]
    simp

theorem decAssign_run (first : Byte) (s : State) :
    decAssign first s = .ok () { s with
      table := (afterAssign s.table s.decNext s.decOld first).1
      decNext := (afterAssign s.table s.decNext s.decOld first).2 } := by
  unfold decAssign afterAssign
  rw [op_bind_of_ok (op_get s)]
  split_ifs <;> rfl

/-- Steps 2 to 5 of `DecStep`, served by an open sink, write the sequence of the code and assign its cell. -/
theorem decOutput_resolves (hs : Served s) (ho : s.snkClosed = false) (hr : rising s.stk)
    (h : Resolves s.table s.decNext s.decOld code (b :: w)) (hlen : (b :: w).length ≤ hw.stackDepth) :
    ∃ t, decOutput code s = .ok () t ∧ rising t.stk ∧ t.snk = s.snk ++ b :: w ∧
      t.table = (afterAssign s.table s.decNext s.decOld b).1 ∧
      t.decNext = (afterAssign s.table s.decNext s.decOld b).2 ∧ t.decOld = code := by
  obtain ⟨u, hres, hu, hru, htop⟩ := decResolve_resolves hr h hlen
  have hemit := emit_served (s := u) (by rw [hu]; exact hs) (by rw [hu]; exact ho)
  unfold decOutput
  rw [op_bind_of_ok hres, op_bind_of_ok (op_get u), op_bind_of_ok hemit, op_bind_of_ok (decAssign_run _ _), op_modify,
    stackTop_of_topFirst htop, htop]
  refine ⟨_, rfl, hru, ?_⟩
  rw [hu]
  exact ⟨rfl, rfl, rfl, rfl⟩

/-! ## DECODE of a code list (45_decoder R132, R138 (a)) -/

/-- Before a `DecStep`: the pending bits are `codes` and `pad`. Decoding them will leave `total` in the sink and the
next code at `count`. -/
structure Decoding (total : List Byte) (count : Nat) (pad : List Bool) (codes : List Code) (s : State) : Prop where
  served : Served s
  sinkOpen : s.snkClosed = false
  stkRising : rising s.stk
  scanning : DecScanning s
  bits : pendingBits s = codesBits codes ++ pad
  next : s.decNext.toNat ≤ maxCode + 1 ∧ min (maxCode + 1) (s.decNext.toNat + (codes.length - 1)) = count
  output : ∃ out, Decodes s.table s.decNext s.decOld codes out ∧ total = s.snk ++ out

/-- DECODE has come to the end of its code list. -/
structure Decoded (total : List Byte) (count : Nat) (pad : List Bool) (t : State) : Prop where
  phase : t.phase = .done
  snk : t.snk = total
  next : t.decNext.toNat = count
  bits : pendingBits t = pad
  rdCnt : t.rdCnt.toNat < 8

theorem Decodes.length_pos {tab : List (Nat × TableEntry)} {next : BitVec 13} {old : Code} {out : List Byte}
    (h : Decodes tab next old codes out) : 0 < codes.length := by
  cases h <;> simp

theorem decStep_decodes (h : Decoding total count pad codes s) :
    Runs (decStep hw) s
      (fun _ t => Decoded total count pad t ∨ (∃ codes, Decoding total count pad codes t) ∧ codesLeft t < codesLeft s)
      (fun _ _ => False) := by
  obtain ⟨out, hdec, rfl⟩ := h.output
  obtain ⟨hphase, hcnt⟩ := h.scanning
  have hbits := h.bits
  obtain ⟨hmax, hcount⟩ := h.next
  rw [decStep_eq]
  refine (runs_bind _ _).2 ?_
  cases hdec with
  | done =>
    rw [codesBits_cons, List.append_assoc] at hbits
    obtain ⟨t, hread, ht⟩ := readCode_pending h.served hcnt hbits
    refine .of_eq_ok hread (.inl ⟨rfl, ?_, ?_, ht.pending, ht.rdCnt⟩)
    · rw [ht.step.1, List.append_nil]
    · rw [ht.step.1, ← hcount]
      exact (min_eq_right hmax).symm
  | @code _ _ _ code b w out codes hne hres hlen hrest =>
    rw [codesBits_cons, List.append_assoc] at hbits
    obtain ⟨t, hread, ht⟩ := readCode_pending h.served hcnt hbits
    rw [if_neg hne] at hread
    have hkept : t.snk = s.snk ∧ t.snkClosed = s.snkClosed ∧ t.stk = s.stk ∧ t.phase = s.phase ∧ t.table = s.table ∧
        t.decNext = s.decNext ∧ t.decOld = s.decOld := by
      rw [ht.step.1]
      exact ⟨rfl, rfl, rfl, rfl, rfl, rfl, rfl⟩
    obtain ⟨hsnk, hclosed, hstk, hph, htab, hnext, hold⟩ := hkept
    obtain ⟨u, hout, hru, hsnk', htab', hnext', hold'⟩ := decOutput_resolves ht.served (hclosed.trans h.sinkOpen)
      (hstk ▸ h.stkRising) (by rw [htab, hnext, hold]; exact hres) hlen
    have hmove := (decOutput_moving code t).of_ok hout
    have hpu := hmove.pendingBits_eq.trans ht.pending
    obtain ⟨-, hcu, -, hphu⟩ := hmove.kept.resolve_left id
    have hlast : 0 < codes.length := hrest.length_pos
    have hsucc := afterAssign_next hmax s.table s.decOld b
    refine .of_eq_ok hread (.of_eq_ok hout (.inr ⟨⟨codes, ?_⟩, ?_⟩))
    · exact
        { served := served_of_suffix ht.served hmove.answers
          sinkOpen := by rw [hmove.framed]; exact hclosed.trans h.sinkOpen
          stkRising := hru
          scanning := ⟨hphu.trans (hph.trans hphase), hcu ▸ ht.rdCnt.le⟩
          bits := hpu
          next := by
            rw [hnext', htab, hnext, hold, hsucc]
            rw [List.length_cons] at hcount
            omega
          output := ⟨out, by rw [htab', hnext', hold', htab, hnext, hold]; exact hrest,
            by rw [hsnk', hsnk, List.append_assoc]⟩ }
    · unfold codesLeft
      rw [hpu, hbits, List.length_append (as := lowBits code codeBits), lowBits_length, codeBits]
      omega

/-- The next code, of the Encoder and of the Decoder, after the code list `codes`, END_OF_STREAM being its last: each
code but the first and the last has assigned one, while codes were left (44_encoder R122, 45_decoder R134). -/
def endNext (codes : List Code) : Nat := min (maxCode + 1) (257 + (codes.length - 2))

/-- The first code is the first byte of the input; the others decode to the bytes after it. -/
theorem decFirst_decodes {x : List Byte} (hs : Served s) (ho : s.snkClosed = false) (hr : rising s.stk)
    (hc : s.rdCnt.toNat ≤ 8) (hclear : s.table = [] ∧ s.decNext = 257)
    (h : pendingBits s = codesBits (greedy x) ++ pad) :
    Runs decFirst s
      (fun _ t => Decoded (s.snk ++ x) (endNext (greedy x)) pad t ∨
        ∃ codes, Decoding (s.snk ++ x) (endNext (greedy x)) pad codes t)
      (fun _ _ => False) := by
  obtain ⟨htab, hnext⟩ := hclear
  cases x with
  | nil =>
    obtain ⟨t, hread, ht⟩ := readCode_pending (c := BitVec.ofNat 12 eos) (rest := pad) hs hc h
    refine .of_eq_ok (op_bind_of_ok hread _) (.inl ⟨rfl, ?_, ?_, ht.pending, ht.rdCnt⟩)
    · rw [ht.step.1, List.append_nil]
    · rw [ht.step.1]
      exact congrArg _ hnext
  | cons b rest =>
    obtain ⟨codes, hgreedy, hdec⟩ := greedy_decodes b rest
    obtain ⟨hlit, hbyte⟩ := setWidth_byte b
    rw [hgreedy, codesBits_cons, List.append_assoc] at h
    obtain ⟨t, hread, ht⟩ := readCode_pending hs hc h
    rw [if_neg hlit.ne] at hread
    have hkept : t.snk = s.snk ∧ t.snkClosed = s.snkClosed ∧ t.stk = s.stk ∧ t.table = s.table ∧
        t.decNext = s.decNext := by
      rw [ht.step.1]
      exact ⟨rfl, rfl, rfl, rfl, rfl⟩
    obtain ⟨hsnk, hclosed, hstk, htab', hnext'⟩ := hkept
    refine .of_eq_ok (decFirst_code hread ht.served (hclosed.trans ho)) (.inr ⟨codes, ?_⟩)
    exact
      { served := served_tail ht.served
        sinkOpen := hclosed.trans ho
        stkRising := hstk ▸ hr
        scanning := ⟨rfl, ht.rdCnt.le⟩
        bits := ht.pending
        next := by
          rw [decStarted, hnext', hnext, endNext, hgreedy, List.length_cons]
          exact ⟨by decide, rfl⟩
        output := ⟨rest, by rw [decStarted, htab', hnext', htab, hnext]; exact hdec,
          by rw [decStarted, hbyte, hsnk, List.append_assoc]; rfl⟩ }

/-- DECODE of the stream of `x`, served by an open sink, whatever follows the stream. -/
theorem decodeAll_greedy {x rest : List Byte} (hs : Served s) (ho : s.snkClosed = false) (hr : rising s.stk)
    (h : s.src.drop s.srcPos = wire (greedy x) ++ rest) :
    ∃ (t : State) (tail : List Bool), decodeAll hw s = .ok () t ∧ tail.length < 8 ∧
      Decoded (s.snk ++ x) (endNext (greedy x)) (tail ++ bytesBits rest) t := by
  obtain ⟨tail, hlen, hwire⟩ := bytesBits_wire (greedy x)
  have hp : pendingBits (decCleared s) = codesBits (greedy x) ++ (tail ++ bytesBits rest) := by
    rw [pendingBits_decCleared, h, bytesBits_append, hwire, List.append_assoc]
  have hfirst := decFirst_decodes (s := decCleared s) hs ho hr (Nat.zero_le 8) ⟨rfl, rfl⟩ hp
  have hrun : Runs decodeCleared (decCleared s)
      (fun _ t => Decoded (s.snk ++ x) (endNext (greedy x)) (tail ++ bytesBits rest) t) (fun _ _ => False) := by
    refine (runs_bind _ _).2 (hfirst.mono ?_ fun _ _ h => h)
    rintro _ t ht
    refine loop_runs (decLoop_isLoop hw) (I := fun u => ∃ codes, Decoding _ _ _ codes u) (fun _ ⟨_, h⟩ => h.scanning.1)
      (fun _ h => h.phase) (fun _ ⟨_, h⟩ => decStep_decodes h) _ (ht.imp_right fun h => ⟨h, ?_⟩)
    obtain ⟨codes, h⟩ := h
    exact codesLeft_lt_bound h.scanning.2
  cases hall : decodeAll hw s with
  | ok _ t => exact ⟨t, tail, rfl, hlen, hrun.of_ok hall⟩
  | error e t => exact (hrun.of_error hall).elim

end Sys2Proof.Machine

namespace Sys2Proof.Machine

variable {s₀ s t : State} {codes : List Code} {total : List Byte} {slot : Nat} {b : Byte}

/-! ## The next code after ENCODE, from the number of codes written (44_encoder R122, R124) -/

theorem wire_length (codes : List Code) : ∃ tail < 8, 8 * (wire codes).length = 12 * codes.length + tail := by
  obtain ⟨pad, hlen, hpad⟩ := bytesBits_wire codes
  have h := congrArg List.length hpad
  rw [bytesBits_length, List.length_append, codesBits_length] at h
  exact ⟨_, hlen, h⟩

theorem placedBits_length (s : State) : (placedBits s).length = 8 * s.snk.length + s.wrCnt.toNat := by
  have hcnt := s.wrCnt.isLt
  rw [placedBits, List.length_append, bytesBits_length, List.length_take_of_le (by rw [lowBits_length]; omega)]

/-- The bits placed, 12 for each code still to be written and less than a byte are the bits of the whole output. -/
theorem Owes.length (h : Owes total codes s) :
    ∃ tail < 8, 8 * total.length = (placedBits s).length + 12 * codes.length + tail := by
  rw [placedBits_length]
  rcases h with ⟨-, hc, rfl⟩ | ⟨a, -, hc, rfl⟩
  · obtain ⟨tail, hlt, hwire⟩ := wire_length codes
    refine ⟨tail, hlt, ?_⟩
    have hzero : (0 : BitVec 3).toNat = 0 := rfl
    rw [hc, hzero, List.length_append]
    omega
  · obtain ⟨tail, hlt, hwire⟩ := wire_length (a :: codes)
    have hfour : (4 : BitVec 3).toNat = 4 := rfl
    refine ⟨tail, hlt, ?_⟩
    rw [wire_cons, List.length_cons, List.length_cons] at hwire
    rw [hc, hfour, List.length_append]
    omega

/-- Since ENCODE began in `s₀` it has placed some whole codes, each of which has assigned one, while codes were left. -/
def Counted (s₀ s : State) : Prop :=
  ∃ k, (placedBits s).length = 8 * s₀.snk.length + 12 * k ∧ s.encNext.toNat = min (maxCode + 1) (firstCode + k)

/-- `Counted` looks at the writer, the sink and the next code only. -/
theorem Counted.congr (h : Counted s₀ s) (hp : placedBits t = placedBits s) (hn : t.encNext = s.encNext) :
    Counted s₀ t := by
  unfold Counted
  rwa [hp, hn]

/-- With the last code and END_OF_STREAM still to be written, the next code is that of the whole code list. -/
theorem Counted.endNext_eq (h : Counted s₀ s) {cur eosCode : Code} (ho : Owes (encOutput s₀) [cur, eosCode] s) :
    s.encNext.toNat = endNext (greedy (s₀.src.drop s₀.srcPos)) := by
  obtain ⟨k, hplaced, hnext⟩ := h
  obtain ⟨tail, hlt, hbits⟩ := ho.length
  obtain ⟨tail', hlt', hwire⟩ := wire_length (greedy (s₀.src.drop s₀.srcPos))
  rw [encOutput, List.length_append, hplaced] at hbits
  simp only [List.length_cons, List.length_nil] at hbits
  have hk : (greedy (s₀.src.drop s₀.srcPos)).length - 2 = k := by omega
  rw [hnext, endNext, hk]
  rfl

/-- The end of the wire stream assigns no code. -/
theorem encFinish_keepsNext (s : State) :
    Runs encFinish s (fun _ t => t.phase = .done ∧ t.encNext = s.encNext) (fun _ _ => True) := by
  unfold encFinish
  simp only [runs_bind, runs_modify]
  refine (writeBits_runs _ _ s).mono ?_ fun _ _ _ => trivial
  rintro _ t ⟨ht, -, -⟩
  refine (closeWriter_runs t).mono ?_ fun _ _ _ => trivial
  rintro _ _ ⟨u, ⟨hu, -, -⟩, rfl⟩
  refine ⟨trivial, ?_⟩
  rw [hu, ht]

theorem encLast_keepsNext (s : State) :
    Runs (writeBits s.encCur codeBits >>= fun _ => encFinish) s (fun _ t => t.phase = .done ∧ t.encNext = s.encNext)
      (fun _ _ => True) := by
  refine (runs_bind _ _).2 ((writeBits_runs _ _ s).mono ?_ fun _ _ _ => trivial)
  rintro _ t ⟨ht, -, -⟩
  have hnext : t.encNext = s.encNext := by rw [ht]
  exact (encFinish_keepsNext t).mono (fun _ _ ⟨hp, hn⟩ => ⟨hp, hn.trans hnext⟩) fun _ _ h => h

/-- A miss places one code and assigns one. -/
theorem encMiss_counts (hs : Served s) (ho : s.snkClosed = false) (h : Counted s₀ s) :
    Runs (encMiss slot b) s (fun _ t => t.phase = s.phase ∧ Counted s₀ t) (fun _ _ => True) := by
  obtain ⟨k, hplaced, hnext⟩ := h
  obtain ⟨t, hwrite, ⟨ht, -, -⟩, hbits⟩ := writeBits_placed s.encCur codeBits hs ho
  have hkept : t.phase = s.phase ∧ t.encNext = s.encNext := by
    rw [ht]
    exact ⟨rfl, rfl⟩
  obtain ⟨hphase, hnext'⟩ := hkept
  have hplaced' : (placedBits t).length = 8 * s₀.snk.length + 12 * (k + 1) := by
    rw [hbits, List.length_append, lowBits_length, hplaced, codeBits]
    omega
  unfold encMiss
  refine .of_eq (op_bind_of_ok (op_get s) _) (.of_eq (op_bind_of_ok hwrite _) ?_)
  split_ifs with hn
  · refine ⟨hphase, k + 1, hplaced', ?_⟩
    simp only [hnext']
    unfold maxCode firstCode at *
    bv_omega
  · refine ⟨hphase, k + 1, hplaced', ?_⟩
    simp only [hnext']
    omega

theorem encStep_counts (hs : Served s₀) (h : Scanning s₀ s) (hc : Counted s₀ s) :
    Runs (encStep hw) s
      (fun _ t => (t.phase = .done ∧ t.encNext.toNat = endNext (greedy (s₀.src.drop s₀.srcPos))) ∨
        t.phase = .scanning ∧ Counted s₀ t)
      (fun _ _ => True) := by
  obtain ⟨m, hm, howes⟩ := h.owes
  unfold encStep
  refine (runs_bind _ _).2 ((srcRead_encodes h.toUnderway).mono ?_ fun _ _ _ => trivial)
  rintro _ _ ⟨rest, hr, ⟨rfl, hend, rfl⟩ | ⟨b, rfl, -, -, rfl⟩⟩
  · rw [List.drop_eq_nil_of_le hend] at howes
    have hnext := hc.endNext_eq howes
    refine .of_eq (op_bind_of_ok (op_get _) _) ?_
    exact (encLast_keepsNext { s with answers := rest }).mono (fun _ _ ⟨hp, hn⟩ => .inl ⟨hp, hn ▸ hnext⟩)
      fun _ _ h => h
  · have hserved : Served { s with answers := rest, srcPos := s.srcPos + 1 } := served_of_suffix hs (hr.trans h.answers)
    simp only [runs_bind, runs_get]
    rcases hm.probe s.encCur b with ⟨slot, hmiss, -⟩ | ⟨slot, e, hhit, -, -⟩
    · have hcount := encMiss_counts (slot := slot) (b := b) hserved h.sinkOpen (hc.congr rfl rfl)
      refine .of_eq_ok (probe_of_miss hmiss) (hcount.mono ?_ fun _ _ h => h)
      exact fun _ t ⟨hp, ht⟩ => .inr ⟨hp.trans h.phase, ht⟩
    · exact .of_eq_ok (probe_of_hit hhit) (.inr ⟨h.phase, hc.congr rfl rfl⟩)

theorem endNext_greedy_nil : endNext (greedy []) = 257 := by simp [endNext, greedy, maxCode]

theorem encStart_counts (s : State) :
    Runs encStart s
      (fun _ t => (t.phase = .done ∧ t.encNext.toNat = endNext (greedy (s.src.drop s.srcPos))) ∨
        t.phase = .scanning ∧ Counted s t)
      (fun _ _ => True) := by
  unfold encStart dictClear
  simp only [runs_bind, runs_modify]
  refine Runs.mono (x := srcRead) (s := encCleared s) (srcRead_runs _) ?_ fun _ _ _ => trivial
  rintro _ t ⟨rest, -, ⟨rfl, hb, ht⟩ | ⟨b, rfl, -, rfl⟩⟩
  · have hnil : s.src.drop s.srcPos = [] := List.drop_eq_nil_of_le (List.getElem?_eq_none_iff.1 hb)
    rw [hnil, endNext_greedy_nil]
    exact (encFinish_keepsNext t).mono (fun _ _ ⟨hp, hn⟩ => .inl ⟨hp, by rw [hn, ht]; rfl⟩) fun _ _ h => h
  · exact .inr ⟨rfl, 0, by rw [placedBits_length]; rfl, rfl⟩

/-- The next code after a fault-free ENCODE. -/
theorem encodeAll_next (hs : Served s) (ho : s.snkClosed = false) :
    Runs (encodeAll hw) s
      (fun _ t => t.phase = .done ∧ t.encNext.toNat = endNext (greedy (s.src.drop s.srcPos))) (fun _ _ => True) := by
  have hstep : ∀ u, Scanning s u ∧ Counted s u → Runs (encStep hw) u
      (fun _ t => (t.phase = .done ∧ t.encNext.toNat = endNext (greedy (s.src.drop s.srcPos))) ∨
        (Scanning s t ∧ Counted s t) ∧ t.src.length - t.srcPos < u.src.length - u.srcPos)
      (fun _ _ => True) := by
    rintro u ⟨hu, hc⟩
    refine ((encStep_encodes hu).and (encStep_counts hs hu hc)).mono ?_ fun _ _ _ => trivial
    rintro _ t ⟨hrun, hend | ⟨hphase, hcount⟩⟩
    · exact .inl hend
    · rcases hrun with hrun | ⟨hrun, hless⟩
      · exact absurd (hrun.phase.symm.trans hphase) (by decide)
      · exact .inr ⟨⟨hrun, hcount⟩, hless⟩
  unfold encodeAll
  simp only [runs_bind, runs_get]
  refine ((encStart_encodes ho).and (encStart_counts s)).mono ?_ fun _ _ _ => trivial
  rintro _ t ⟨hrun, hcount⟩
  refine loop_runs (left := fun u => u.src.length - u.srcPos) (encLoop_isLoop hw) (fun _ h => h.1.phase)
    (fun _ h => h.1) hstep _ ?_
  rcases hcount with hend | ⟨hphase, hcount⟩
  · exact .inl hend
  · rcases hrun with hrun | hrun
    · exact absurd (hrun.phase.symm.trans hphase) (by decide)
    · exact .inr ⟨⟨hrun, hcount⟩, Nat.lt_succ_self _⟩

/-- What a fault-free ENCODE leaves for the DECODE that follows it. -/
theorem execEncode_output (hr : Ready s) (h : exec .encode s = .next t) (hf : t.fault = none) :
    t.snk = encOutput s ∧ t.stk = s.stk ∧ t.encNext.toNat = endNext (greedy (s.src.drop s.srcPos)) ∧ Served t := by
  have hserved : Served t := served_of_suffix hr.2 (exec_advances h).answers
  rcases runCommand_next h with ⟨f, hs, rfl⟩ | ⟨-, w, u, hb, rfl⟩ | ⟨-, f, u, hb, rfl⟩
  · cases hs.symm.trans hf
  · obtain ⟨_, _, hopen, hbody⟩ := op_bind_eq_ok.1 hb
    obtain ⟨ho, rfl⟩ := checkOpen_eq_ok hopen
    obtain ⟨_, v, hall, hw⟩ := op_bind_eq_ok.1 hbody
    cases hw
    have hu := (encodeAll_encodes ho).of_ok hall
    have hnext := ((encodeAll_next hr.2 ho).of_ok hall).2
    refine ⟨hu.snk, ?_, hnext, hserved⟩
    rw [hu.framed]
  · cases hf

/-! ## DECODE of what ENCODE writes (45_decoder R137, R138 (a)) -/

theorem greedy_ne_nil (x : List Byte) : greedy x ≠ [] := by
  cases x with
  | nil => exact List.cons_ne_nil _ _
  | cons b rest =>
    obtain ⟨codes, hgreedy, -⟩ := greedy_decodes b rest
    rw [hgreedy]
    exact List.cons_ne_nil _ _

/-- DECODE has pulled the bytes of the stream and none after them. -/
theorem Decoded.srcPos_eq {x rest : List Byte} {count : Nat} {tail : List Bool}
    (h : Decoded total count (tail ++ bytesBits rest) t) (htail : tail.length < 8) (ha : Advances False s t)
    (hdrop : s.src.drop s.srcPos = wire (greedy x) ++ rest) : t.srcPos = s.srcPos + (wire (greedy x)).length := by
  obtain ⟨pad, -, hwire⟩ := wire_length (greedy x)
  have hpos := List.length_pos_iff.2 (greedy_ne_nil x)
  have hlen := congrArg List.length hdrop
  have hbits := congrArg List.length h.bits
  have hcnt := h.rdCnt
  have hinside := ha.inside
  rw [List.length_drop, List.length_append] at hlen
  rw [pendingBits_length, List.length_append, bytesBits_length, ha.src] at hbits
  rw [ha.src] at hinside
  omega

/-- DECODE of the stream of `x`, served by an open sink, whatever follows the stream. -/
theorem execDecode_greedy {x rest : List Byte} (hready : Ready s) (hr : rising s.stk) (ho : s.snkClosed = false)
    (h : s.src.drop s.srcPos = wire (greedy x) ++ rest) :
    ∃ t : State, exec .decode s = .next { t with rsp := some okPlain } ∧ t.fault = none ∧ t.mode = .dec ∧
      t.phase = .done ∧ t.snk = s.snk ++ x ∧ t.srcPos = s.srcPos + (wire (greedy x)).length ∧
      t.decNext.toNat = endNext (greedy x) := by
  obtain ⟨t, tail, hall, htail, ht⟩ := decodeAll_greedy hready.2 ho hr h
  obtain ⟨⟨hframed, -⟩, -⟩ := (decodeAll_decodes s).of_ok hall
  have hpos := ht.srcPos_eq htail ((decodeAll_advancing s).of_ok hall) h
  have hkept : t.fault = none ∧ t.mode = .dec := by
    rw [hframed]
    exact ⟨hready.1, rfl⟩
  exact ⟨t, execDecode_ok hready.1 hall, hkept.1, hkept.2, ht.phase, ht.snk, hpos, ht.next⟩

end Sys2Proof.Machine

section

open Sys2Proof Sys2Proof.Machine

/-- Settles O54: before each `DecStep` the Encoder's map is the Decoder's table with the one cell that the step will
assign, so a code is resolved to the bytes it was written for; both next codes are counted by the codes of the list. -/
theorem decodeOfEncodedInput : Obligations.DecodeOfEncodedInput := by
  unfold Obligations.DecodeOfEncodedInput
  refine ⟨fun s x rest hready hr ho hdrop => ?_, fun s t hready hr hsnk h hf => ?_⟩
  · obtain ⟨u, hexec, hfault, hmode, hphase, hout, hpos, -⟩ := execDecode_greedy hready hr ho hdrop
    exact ⟨_, hexec, rfl, hfault, hmode, hphase, hout, hpos⟩
  · obtain ⟨hwritten, hstk, hnext, hserved⟩ := execEncode_output hready h hf
    rw [encOutput, hsnk, List.nil_append] at hwritten
    have hready' : Ready (bindStreams t.snk t) := ⟨hf, hserved⟩
    obtain ⟨u, hexec, hfault, -, hphase, hout, -, hnext'⟩ := execDecode_greedy (rest := []) hready' (hstk ▸ hr) rfl
      (hwritten.trans (List.append_nil _).symm)
    exact ⟨_, hexec, rfl, hfault, hphase, hout, BitVec.eq_of_toNat_eq (hnext'.trans hnext.symm)⟩

end

namespace Sys2Proof.Machine

variable {s t : State} {w : Word} {rest : List HostAction} {f : FaultCode}

/-! ## Command words that are refused (60_exceptions R143, R146) -/

theorem step_of_illegal {r : Reject} (hh : s.host = .command w :: rest) (hd : decode w = .error r) :
    step s = illegalWord { s with host := rest } := by
  unfold step
  rw [hh]
  simp only [hd]

theorem exec_faulted (i : Instr) (h : s.fault = some f) : exec i s = .next (refuseWord f s) := by
  cases i with
  | dclr => exact runCommand_faulted h (do dictClear; pure okPlain)
  | tclr => exact runCommand_faulted h (do tableClear; pure okPlain)
  | _ => exact runCommand_faulted h _

theorem step_command_faulted (hf : s.fault = some f) (hh : s.host = .command w :: rest) :
    step s = .next (refuseWord f { s with host := rest }) := by
  cases hd : decode w with
  | ok i => exact (stepRunsDecodedCommand s w rest i hh hd).trans (exec_faulted i hf)
  | error r =>
    have hrefused := runCommand_faulted (s := { s with host := rest }) hf (raise .illegalCommand)
    exact (step_of_illegal hh hd).trans hrefused

theorem step_of_reset (hh : s.host = .reset :: rest ∨ ∃ w, s.host = .resetDuring w :: rest) :
    step s = .next (hostReset { s with host := rest }) := by
  unfold step
  rcases hh with hh | ⟨w, hh⟩ <;> rw [hh]

/-- A step that changes a recorded fault is a reset, which leaves none. -/
theorem step_changes_fault (hf : s.fault = some f) (h : step s = .next t) (hne : t.fault ≠ some f) :
    t.fault = none ∧ ∃ rest, s.host = .reset :: rest ∨ ∃ w, s.host = .resetDuring w :: rest := by
  rcases hh : s.host with _ | ⟨w | bytes | _ | w, rest⟩
  · have hidle : step s = .next s := by
      unfold step
      rw [hh]
    cases hidle.symm.trans h
    exact absurd hf hne
  · cases (step_command_faulted hf hh).symm.trans h
    exact absurd hf hne
  · cases (bindReplacesStreams s bytes rest hh).symm.trans h
    exact absurd hf hne
  · cases (step_of_reset (.inl hh)).symm.trans h
    exact ⟨rfl, rest, .inl rfl⟩
  · cases (step_of_reset (.inr ⟨w, hh⟩)).symm.trans h
    exact ⟨rfl, rest, .inr ⟨w, rfl⟩⟩

/-! ## Operands that are rejected at acceptance (60_exceptions R148, R150) -/

theorem legalWidth_eq_false {n : BitVec 6} (h : n.toNat = 0 ∨ 32 < n.toNat) : legalWidth hw n = false := by
  rw [Bool.eq_false_iff, Ne, legalWidth_iff]
  omega

theorem checkReserve_illegal {slot : SlotIndex} {code : Code}
    (h : 5021 ≤ slot.toNat ∨ (∃ e, lookup s.dict slot.toNat = some e) ∨ code.toNat < 257) :
    checkReserve hw slot code s = .error (.raised .illegalOperand) s := by
  rw [checkReserve_run, if_neg]
  simp only [Bool.and_eq_true, Option.isNone_iff_eq_none, legalSlot_iff, legalCode_iff]
  rintro ⟨⟨hslot, hempty⟩, hcode⟩
  rcases h with h | ⟨e, h⟩ | h
  · omega
  · cases hempty.symm.trans h
  · omega

theorem checkAssign_illegal {code : Code} (h : code.toNat < 257 ∨ ∃ e, lookup s.table code.toNat = some e) :
    checkAssign code s = .error (.raised .illegalOperand) s := by
  rw [checkAssign_run, if_neg]
  simp only [Bool.and_eq_true, Option.isNone_iff_eq_none, legalCode_iff]
  rintro ⟨hcode, hunused⟩
  rcases h with h | ⟨e, h⟩
  · omega
  · cases hunused.symm.trans h

/-! ## The faults of DPROBE, TWALK and TEMIT (60_exceptions R149, R151 to R153) -/

theorem linkAfter_succ_eq_some {m : List (Nat × TableEntry)} {j : Nat} {code k : Code}
    (h : linkAfter m (j + 1) code = some k) :
    eos < code.toNat ∧ ∃ e, lookup m code.toNat = some e ∧ linkAfter m j e.parent = some k := by
  rw [linkAfter] at h
  split_ifs at h with heos
  refine ⟨by omega, ?_⟩
  cases hc : lookup m code.toNat with
  | none => simp [hc] at h
  | some e => exact ⟨e, rfl, by simpa only [hc] using h⟩

/-- A walk with room on the stack for the cells it passes comes to the code after them, which has no cell. -/
theorem walkFrom_unassigned {j fuel : Nat} {code k : Code} (hl : linkAfter s.table j code = some k)
    (hk : k.toNat = eos ∨ eos < k.toNat ∧ lookup s.table k.toNat = none)
    (hroom : s.sp.toNat + j ≤ hw.stackDepth) (hfuel : j < fuel) :
    ∃ t, walkFrom hw fuel code s = .error (.raised .tableUnassigned) t := by
  induction j generalizing fuel code s with
  | zero =>
    obtain ⟨fuel, rfl⟩ : ∃ n, fuel = n + 1 := ⟨fuel - 1, by omega⟩
    obtain rfl : code = k := Option.some.inj hl
    rcases hk with hk | ⟨hk, hc⟩
    · exact ⟨s, walkFrom_sentinel hk fuel s⟩
    · exact ⟨s, walkFrom_unused hk hc fuel⟩
  | succ j ih =>
    obtain ⟨fuel, rfl⟩ : ∃ n, fuel = n + 1 := ⟨fuel - 1, by omega⟩
    obtain ⟨heos, e, hc, hnext⟩ := linkAfter_succ_eq_some hl
    have hne : s.sp.toNat ≠ hw.stackDepth := by omega
    have hsucc := sp_succ (Nat.le_of_add_right_le hroom) hne
    rw [walkFrom_cell heos hc, op_bind_of_ok (push_room hne _)]
    exact ih hnext hk (by simp only [hsucc]; omega) (by omega)

/-- A walk that passes more cells than the stack has room for is ended by a push onto the full stack. -/
theorem walkFrom_overflows {j fuel : Nat} {code k : Code} (hl : linkAfter s.table j code = some k)
    (hsp : s.sp.toNat ≤ hw.stackDepth) (hfull : hw.stackDepth < s.sp.toNat + j) :
    ∃ t, walkFrom hw fuel code s = .error (.raised .stackOverflow) t := by
  induction j generalizing fuel code s with
  | zero => omega
  | succ j ih =>
    cases fuel with
    | zero => exact ⟨s, rfl⟩
    | succ fuel =>
      obtain ⟨heos, e, hc, hnext⟩ := linkAfter_succ_eq_some hl
      rw [walkFrom_cell heos hc]
      by_cases hd : s.sp.toNat = hw.stackDepth
      · exact ⟨s, op_bind_of_error (push_full hd _) _⟩
      · rw [op_bind_of_ok (push_room hd _)]
        have hsucc := sp_succ hsp hd
        exact ih hnext (by simp only [hsucc]; omega) (by simp only [hsucc]; omega)

/-- A command that raises a fault ends, with that fault recorded (60_exceptions R142). -/
theorem runCommand_records {body : Op Word} {u : State} (hf : s.fault = none) (hu : u.fault = none)
    (h : body s = .error (.raised f) u) :
    ∃ t, runCommand body s = .next t ∧ t.fault = some f ∧ t.rsp = some (faultWord f) ∧ t.snk = u.snk :=
  ⟨_, runCommand_raised hf h, by rw [takeFault_fault, hu, Option.getD_none],
    by rw [takeFault_rsp, hu, Option.getD_none], takeFault_snk f u⟩

theorem execTwalk_records {code : Code} (hf : s.fault = none)
    (h : ∃ u, walkFrom hw (hw.stackDepth + 1) code { s with sp := 0 } = .error (.raised f) u) :
    ∃ t, exec (.twalk code) s = .next t ∧ t.fault = some f ∧ t.rsp = some (faultWord f) := by
  obtain ⟨u, hwalk⟩ := h
  have hstep : WalkStep { s with sp := 0 } u := ((walkFrom_runs hw _ code _).of_error hwalk).1
  have hu : u.fault = none := by
    rw [hstep]
    exact hf
  have hraised : walk hw code 0 s = .error (.raised f) u := hwalk
  obtain ⟨t, hexec, hfault, hrsp, -⟩ := runCommand_records hf hu (op_bind_of_error hraised _)
  exact ⟨t, hexec, hfault, hrsp⟩

/-- A cell that is its own parent links to itself for ever. -/
theorem linkAfter_self {m : List (Nat × TableEntry)} {code : Code} {ch : Byte} (heos : eos < code.toNat)
    (h : lookup m code.toNat = some ⟨code, ch⟩) (j : Nat) : linkAfter m j code = some code := by
  induction j with
  | zero => rfl
  | succ j ih =>
    rw [linkAfter, if_neg (by omega), h]
    exact ih

/-- `Emit` of a stack that is not empty writes to the sink first (43_decode_table R115). -/
theorem emit_error {e : Stop} (hsp : s.sp ≠ 0)
    (h : snkWrite (stkRead s.stk (s.sp - 1).toNat) { s with sp := s.sp - 1 } = .error e t) : emit s = .error e t := by
  obtain ⟨n, hn⟩ : ∃ n, s.sp.toNat = n + 1 := ⟨s.sp.toNat - 1, by bv_omega⟩
  rw [emit_run, hn]
  exact op_bind_of_error ((emitFrom_succ n s).trans (op_bind_of_error h _)) _

end Sys2Proof.Machine

section

open Sys2Proof Sys2Proof.Machine

/-- Settles O7. -/
theorem illegalWordRecorded : Obligations.IllegalWordRecorded := by
  unfold Obligations.IllegalWordRecorded
  intro s w rest r hf hh hd
  exact (step_of_illegal hh hd).trans (runCommand_raised_unchanged (s := { s with host := rest }) hf rfl)

/-- Settles O8: both arms of a command word look at a recorded fault first, and no other action but a reset writes
`fault`. -/
theorem faultRefusesUntilReset : Obligations.FaultRefusesUntilReset := by
  unfold Obligations.FaultRefusesUntilReset
  exact ⟨fun _ _ _ _ => step_command_faulted, fun _ _ _ => step_changes_fault⟩

/-- Settles O15: both commands check the width before anything else. -/
theorem illegalWidthRefused : Obligations.IllegalWidthRefused := by
  unfold Obligations.IllegalWidthRefused
  intro s n value hf hn
  have hcheck := checkWidth_illegal (legalWidth_eq_false hn) s
  exact ⟨runCommand_raised_unchanged hf (op_bind_of_error hcheck _),
    runCommand_raised_unchanged hf (op_bind_of_error hcheck _)⟩

/-- Settles O16: both commands check their operands before anything else. -/
theorem illegalOperandRefused : Obligations.IllegalOperandRefused := by
  unfold Obligations.IllegalOperandRefused
  intro s slot code parent ch hf
  exact ⟨fun h => runCommand_raised_unchanged hf (op_bind_of_error (checkReserve_illegal h) _),
    fun h => runCommand_raised_unchanged hf (op_bind_of_error (checkAssign_illegal h) _)⟩

/-- Settles O34: every slot of the path is below 5021, so the probe goes past all 5021 slots that it examines. -/
theorem dprobeExhausted : Obligations.DprobeExhausted := by
  unfold Obligations.DprobeExhausted
  intro s p c hf hfull
  have hprobe : probeDict hw s.dict p c = .exhausted :=
    probeDict_eq_probeFrom le_rfl fun j _ => hfull _ (probeSlot_lt p c j)
  have hraised : probe hw p c s = .error (.raised .probeExhausted) s := by
    rw [probe_run, if_pos hprobe]
  exact runCommand_raised_unchanged hf (op_bind_of_error hraised _)

/-- Settles O41: 3839 cells leave room on the emptied stack, so the walk comes to the code that has no cell. -/
theorem twalkUnassigned : Obligations.TwalkUnassigned := by
  unfold Obligations.TwalkUnassigned
  intro s code k j hf hj hl hk
  have hroom : (0 : BitVec 13).toNat + j ≤ hw.stackDepth := by
    change 0 + j ≤ 4096
    omega
  have hfuel : j < hw.stackDepth + 1 := Nat.lt_succ_of_le ((Nat.le_add_left _ _).trans hroom)
  exact execTwalk_records hf (walkFrom_unassigned (s := { s with sp := 0 }) hl hk hroom hfuel)

/-- Settles O42: 4097 cells are one more than the stack has entries. -/
theorem twalkOverflows : Obligations.TwalkOverflows := by
  unfold Obligations.TwalkOverflows
  have hfull : hw.stackDepth < (0 : BitVec 13).toNat + 4097 := by decide
  have hlong : ∀ (s : State) (code k : Code), s.fault = none → linkAfter s.table 4097 code = some k →
      ∃ t, exec (.twalk code) s = .next t ∧ t.fault = some .stackOverflow ∧
        t.rsp = some (faultWord .stackOverflow) := fun s _ _ hf hl =>
    execTwalk_records hf (walkFrom_overflows (s := { s with sp := 0 }) hl (Nat.zero_le _) hfull)
  exact ⟨hlong, fun s code _ hf heos hself => hlong s code code hf (linkAfter_self heos hself _)⟩

/-- Settles O44: the first write of `Emit` is to the closed sink. -/
theorem temitClosedSink : Obligations.TemitClosedSink := by
  unfold Obligations.TemitClosedSink
  intro s hf hc hsp
  have hemit := emit_error hsp (snkWrite_closed (s := { s with sp := s.sp - 1 }) hc _)
  exact runCommand_records (u := { s with sp := s.sp - 1 }) hf hf (op_bind_of_error hemit _)

end

namespace Sys2Proof.Machine

variable {α β : Type} {c : Prop} {cfg : Config} {s t u : State} {e : Stop} {f : FaultCode} {j k n : Nat}

/-! ## The transactions of an operation and the bytes they transfer (20_memory R41, R43, R46) -/

/-- `n` transactions were carried out while the host's answers went from `before` to `after`. A list that is used up
stands for further successes, so only what is left of a list that is not tells their number. -/
def CarriedOut (n : Nat) (before after : List PortAnswer) : Prop :=
  ∃ done, before = done ++ after ∧ (∀ a ∈ done, a = .ok) ∧ (after ≠ [] → done.length = n)

theorem CarriedOut.refl (answers : List PortAnswer) : CarriedOut 0 answers answers :=
  ⟨[], rfl, fun _ ha => absurd ha List.not_mem_nil, fun _ => rfl⟩

theorem CarriedOut.trans {a a' a'' : List PortAnswer} (h : CarriedOut n a a') (h' : CarriedOut k a' a'') :
    CarriedOut (n + k) a a'' := by
  obtain ⟨done, rfl, hok, hn⟩ := h
  obtain ⟨done', rfl, hok', hk⟩ := h'
  refine ⟨done ++ done', (List.append_assoc ..).symm, fun a ha => (List.mem_append.1 ha).elim (hok a) (hok' a), ?_⟩
  intro hne
  rw [List.length_append, hn (List.append_ne_nil_of_right_ne_nil done' hne), hk hne]

theorem CarriedOut.mem {a a' : List PortAnswer} (h : CarriedOut n a a') {x : PortAnswer} (hx : x ∈ a') : x ∈ a := by
  obtain ⟨done, rfl, -⟩ := h
  exact List.mem_append_right done hx

/-- From `s` to `t` every transaction was carried out and moved a byte, but for `missed` of them. -/
structure Transfers (missed : Nat) (s t : State) : Prop where
  fault : t.fault = s.fault
  src : t.src = s.src
  snkClosed : t.snkClosed = s.snkClosed
  srcPos : s.srcPos ≤ t.srcPos
  bytes : ∃ n sofar, CarriedOut n s.answers t.answers ∧ t.snk = s.snk ++ sofar ∧
    t.srcPos + sofar.length + missed = s.srcPos + n

theorem Transfers.refl (s : State) : Transfers 0 s s where
  fault := rfl
  src := rfl
  snkClosed := rfl
  srcPos := le_rfl
  bytes := ⟨0, [], .refl _, (List.append_nil _).symm, rfl⟩

theorem Transfers.trans (h : Transfers j s t) (h' : Transfers k t u) : Transfers (j + k) s u where
  fault := h'.fault.trans h.fault
  src := h'.src.trans h.src
  snkClosed := h'.snkClosed.trans h.snkClosed
  srcPos := h.srcPos.trans h'.srcPos
  bytes := by
    obtain ⟨n, sofar, hn, hsnk, hcount⟩ := h.bytes
    obtain ⟨n', sofar', hn', hsnk', hcount'⟩ := h'.bytes
    refine ⟨n + n', sofar ++ sofar', hn.trans hn', by rw [hsnk', hsnk, List.append_assoc], ?_⟩
    rw [List.length_append]
    omega

/-- A further part that misses nothing. -/
theorem Transfers.after (h : Transfers 0 s t) (h' : Transfers k t u) : Transfers k s u := k.zero_add ▸ h.trans h'

theorem WalkStep.transfers (h : WalkStep s t) : Transfers 0 s t := by
  unfold WalkStep at h
  rw [h]
  exact { Transfers.refl s with }

/-- The faults of the ports (60_exceptions R145, R147). -/
def PortFault (f : FaultCode) : Prop := f = .srcIo ∨ f = .snkIo

/-- An operation begun in `s` was ended by `e` in `t`. If that is a fault of a port, then every transaction before the
failing one was carried out and moved a byte, but for one that found the end of the source if `c` holds. -/
structure Ended (c : Prop) (s : State) (e : Stop) (t : State) : Prop where
  fault : t.fault = s.fault
  hung : e = .hung → .never ∈ s.answers
  port : ∀ f, e = .raised f → PortFault f → ∃ k m rest, Transfers k s m ∧ m.answers = .fail :: rest ∧
    t = { m with answers := rest } ∧ (k = 0 ∨ c ∧ k = 1 ∧ f = .snkIo ∧ t.src.length ≤ t.srcPos)

/-- A fault that is none of the ports' ends an operation without a transaction that failed. -/
theorem Ended.of_raised (h : t.fault = s.fault) (hf : ¬PortFault f := by simp [PortFault]) :
    Ended c s (.raised f) t :=
  ⟨h, nofun, fun _ he hp => absurd ((Stop.raised.inj he).symm ▸ hp) hf⟩

theorem Ended.after (h : Transfers 0 s t) (h' : Ended c t e u) : Ended c s e u where
  fault := h'.fault.trans h.fault
  hung he := by
    obtain ⟨n, sofar, hn, -⟩ := h.bytes
    exact hn.mem (h'.hung he)
  port f he hp := by
    obtain ⟨k, m, rest, hm, hend⟩ := h'.port f he hp
    exact ⟨k, m, rest, h.after hm, hend⟩

/-- What fails after the end of the source was found, and makes no transaction of the source. -/
theorem Ended.after_eof (hc : c) (h : Transfers 1 s t) (hend : t.src.length ≤ t.srcPos) (he : e ≠ .raised .srcIo)
    (h' : Ended False t e u) : Ended c s e u where
  fault := h'.fault.trans h.fault
  hung he := by
    obtain ⟨n, sofar, hn, -⟩ := h.bytes
    exact hn.mem (h'.hung he)
  port f hf hp := by
    obtain ⟨k, m, rest, hm, ha, rfl, rfl | ⟨hfalse, -⟩⟩ := h'.port f hf hp
    · have hsnk : f = .snkIo := hp.resolve_left fun hsrc => he (hsrc ▸ hf)
      refine ⟨1, m, rest, h.trans hm, ha, rfl, .inr ⟨hc, rfl, hsnk, ?_⟩⟩
      simp only [hm.src]
      exact hend.trans hm.srcPos
    · exact hfalse.elim

/-! ### Operations whose transactions all transfer -/

/-- However `x` ends, in whatever state it starts, each of its transactions moved a byte or ended it. -/
def Counting (c : Prop) (x : Op α) : Prop := ∀ s, Runs x s (fun _ t => Transfers 0 s t) (Ended c s)

theorem Counting.pure (a : α) : Counting c (pure a : Op α) := .refl

theorem Counting.get : Counting c (get : Op State) := .refl

theorem Counting.raise (hf : ¬PortFault f := by simp [PortFault]) : Counting c (raise f : Op α) := fun _ =>
  .of_raised rfl hf

/-- A write to a register, which is none of the ports. -/
theorem Counting.modify {g : State → State}
    (h : ∀ s, Transfers 0 s (g s) := by exact fun s => { Transfers.refl s with }) :
    Counting c (modify g : Op PUnit) := h

/-- The rule of sequence. -/
theorem Counting.bind {x : Op α} {g : α → Op β} (hx : Counting c x) (hg : ∀ a, Counting c (g a)) :
    Counting c (x >>= g) := fun s =>
  (runs_bind _ _).2 ((hx s).mono (fun a t ht => (hg a t).mono (fun _ _ => ht.after) fun _ _ => .after ht)
    fun _ _ h => h)

theorem transact_counts (f : FaultCode) (s : State) :
    Runs (transact f) s (fun _ t => t = { s with answers := t.answers } ∧ CarriedOut 1 s.answers t.answers)
      (Ended c s) := by
  unfold Runs
  rw [transact_run]
  rcases ha : s.answers with _ | ⟨_ | _ | _, rest⟩
  · exact ⟨rfl, [], ha.symm, fun _ h => absurd h List.not_mem_nil, fun h => absurd ha h⟩
  · exact ⟨rfl, [.ok], rfl, fun _ => List.eq_of_mem_singleton, fun _ => rfl⟩
  · exact ⟨rfl, nofun, fun _ _ _ => ⟨0, s, rest, .refl s, ha, rfl, .inl rfl⟩⟩
  · exact ⟨rfl, fun _ => ha ▸ List.mem_cons_self, nofun⟩

/-- `SrcRead` moves a byte, or finds the end of the source and moves none (20_memory R41). -/
theorem srcRead_counts (s : State) :
    Runs srcRead s
      (fun o t => (o = none ∧ Transfers 1 s t ∧ t.src.length ≤ t.srcPos) ∨ ∃ b, o = some b ∧ Transfers 0 s t)
      (Ended c s) := by
  unfold srcRead
  refine (runs_bind _ _).2 ((transact_counts _ s).mono ?_ fun _ _ h => h)
  rintro _ t ⟨ht, hn⟩
  rw [runs_bind, runs_get, ht]
  cases hb : s.src[s.srcPos]? with
  | none =>
    refine .inl ⟨rfl, ⟨rfl, rfl, rfl, le_rfl, 1, [], hn, (List.append_nil _).symm, rfl⟩, ?_⟩
    exact List.getElem?_eq_none_iff.1 hb
  | some b =>
    exact .inr ⟨b, rfl, rfl, rfl, rfl, Nat.le_succ _, 1, [], hn, (List.append_nil _).symm, rfl⟩

theorem snkWrite_counting (b : Byte) : Counting c (snkWrite b) := by
  refine .bind .get fun s => ?_
  split_ifs
  · exact .raise
  · refine fun s => (runs_bind _ _).2 ((transact_counts _ s).mono ?_ fun _ _ h => h)
    rintro _ t ⟨ht, hn⟩
    rw [ht]
    exact ⟨rfl, rfl, rfl, le_rfl, 1, [b], hn, rfl, rfl⟩

theorem writeBit_counting (b : Bool) : Counting c (writeBit b) := fun s => by
  by_cases h : s.wrCnt = 7
  · refine .of_eq (writeBit_fills h b) ?_
    have hfill : Transfers 0 s { s with wrRack := setRackBit s.wrRack 0 b } := { Transfers.refl s with }
    exact (((snkWrite_counting _).bind fun _ => .modify) _).mono (fun _ _ => hfill.after) fun _ _ => .after hfill
  · exact .of_eq_ok (writeBit_places h b) { Transfers.refl s with }

theorem writeBits_counting {w : Nat} (v : BitVec w) (n : Nat) : Counting c (writeBits v n) := by
  induction n with
  | zero => exact .pure _
  | succ n ih => exact (writeBit_counting _).bind fun _ => ih

theorem emitFrom_counting (n : Nat) : Counting c (emitFrom n) := by
  induction n with
  | zero => exact .pure _
  | succ n ih => exact .bind .modify fun _ => .bind .get fun _ => (snkWrite_counting _).bind fun _ => ih

theorem emit_counting : Counting c emit :=
  .bind .get fun _ => (emitFrom_counting _).bind fun _ => .pure _

theorem walk_counting (code : Code) (sp0 : BitVec 13) : Counting c (walk cfg code sp0) := by
  refine .bind .modify fun _ s => (walkFrom_runs cfg _ code s).mono (fun _ _ ht => ht.transfers) ?_
  rintro e t ⟨ht, rfl | rfl⟩
  · exact .of_raised ht.transfers.fault
  · exact .of_raised ht.transfers.fault

/-- `Probe` makes no transaction, and what it answers is a slot (42_encode_dictionary R102). -/
theorem probe_finds (p : Code) (ch : Byte) (s : State) :
    Runs (probe cfg p ch) s (fun found t => found ≠ .exhausted ∧ t = s) (Ended c s) := by
  unfold Runs
  rw [probe_run]
  split_ifs with h
  · exact .of_raised rfl
  · exact ⟨h, rfl⟩

theorem probe_counting (p : Code) (ch : Byte) : Counting c (probe cfg p ch) := fun s =>
  (probe_finds p ch s).mono (fun _ _ ht => ht.2 ▸ .refl s) fun _ _ h => h

theorem checkWidth_counting (n : BitVec 6) : Counting c (checkWidth cfg n) := by
  unfold checkWidth
  split_ifs
  · exact .pure _
  · exact .raise

theorem checkOpen_counting : Counting c checkOpen := by
  refine .bind .get fun s => ?_
  split_ifs
  · exact .raise
  · exact .pure _

theorem checkReserve_counting (slot : SlotIndex) (code : Code) : Counting c (checkReserve cfg slot code) := by
  refine .bind .get fun s => ?_
  split_ifs
  · exact .pure _
  · exact .raise

theorem checkAssign_counting (code : Code) : Counting c (checkAssign code) := by
  refine .bind .get fun s => ?_
  split_ifs
  · exact .pure _
  · exact .raise

/-! ### Reads, which may find the end of the source -/

/-- Until `x` answers `none`, each of its transactions moved a byte or ended it. -/
def Reading (c : Prop) (x : Op (Option α)) : Prop :=
  ∀ s, Runs x s (fun o t => t.fault = s.fault ∧ (o ≠ none → Transfers 0 s t)) (Ended c s)

theorem Reading.pure (o : Option α) : Reading c (pure o : Op (Option α)) := fun s => ⟨rfl, fun _ => .refl s⟩

/-- A read that goes on when the first part of it answers something. -/
theorem Reading.bind {x : Op (Option α)} {g : Option α → Op (Option β)} (hx : Reading c x)
    (hn : g none = .pure none) (hg : ∀ a, Reading c (g (some a))) : Reading c (x >>= g) := fun s => by
  refine (runs_bind _ _).2 ((hx s).mono ?_ fun _ _ h => h)
  rintro (_ | a) t ⟨hfault, ht⟩
  · rw [hn]
    exact ⟨hfault, fun h => absurd rfl h⟩
  · have ht := ht (Option.some_ne_none a)
    exact (hg a t).mono (fun _ _ ⟨hu, hmoved⟩ => ⟨hu.trans hfault, fun ho => ht.after (hmoved ho)⟩)
      fun _ _ => .after ht

theorem readBit_reading : Reading c readBit := fun s => by
  by_cases h : s.rdCnt = 0
  · unfold readBit
    rw [runs_bind]
    refine .of_eq (fillRack_empty h) ((runs_bind _ _).2 ((srcRead_counts s).mono ?_ fun _ _ h => h))
    rintro _ t (⟨rfl, ht, -⟩ | ⟨b, rfl, ht⟩)
    · exact ⟨ht.fault, fun h => absurd rfl h⟩
    · exact ⟨ht.fault, fun _ => { ht with }⟩
  · exact .of_eq_ok (readBit_ready h) ⟨rfl, fun _ => { Transfers.refl s with }⟩

theorem readBitsFrom_reading (n v : Nat) : Reading c (readBitsFrom n v) := by
  induction n generalizing v with
  | zero => exact .pure _
  | succ n ih => exact readBit_reading.bind rfl fun _ => ih _

theorem readCode_reading : Reading c readCode := by
  refine (readBitsFrom_reading codeBits 0).bind rfl fun v => ?_
  simp only
  split_ifs <;> exact .pure _

/-! ### DECODE and ENCODE -/

/-- The operation is over, and no fault was recorded. -/
def Over (s t : State) : Prop := t.phase = .done ∧ t.fault = s.fault

theorem Over.after (h : Transfers k s t) (h' : Over t u) : Over s u := ⟨h'.1, h'.2.trans h.fault⟩

/-- After `x` the operation is over, or every transaction moved a byte. -/
def Stepping (c : Prop) (x : Op Unit) : Prop :=
  ∀ s, Runs x s (fun _ t => Over s t ∨ Transfers 0 s t) (Ended c s)

theorem Counting.stepping {x : Op Unit} (h : Counting c x) : Stepping c x := fun s =>
  (h s).mono (fun _ _ => .inr) fun _ _ h => h

theorem Counting.bind_stepping {x : Op α} {g : α → Op Unit} (hx : Counting c x) (hg : ∀ a, Stepping c (g a)) :
    Stepping c (x >>= g) := fun s =>
  (runs_bind _ _).2 ((hx s).mono
    (fun a t ht => (hg a t).mono (fun _ _ hu => hu.imp (.after ht) ht.after) fun _ _ => .after ht) fun _ _ h => h)

/-- Two steps, of which the second does nothing when the operation is over. -/
theorem Stepping.bind {x : Op Unit} {g : Unit → Op Unit} (hx : Stepping c x) (hg : Stepping c (g ()))
    (hdone : ∀ s, s.phase = .done → g () s = .ok () s) : Stepping c (x >>= g) := fun s => by
  refine (runs_bind _ _).2 ((hx s).mono ?_ fun _ _ h => h)
  rintro _ t (ht | ht)
  · exact .of_eq_ok (hdone t ht.1) (.inl ht)
  · exact (hg t).mono (fun _ _ hu => hu.imp (.after ht) ht.after) fun _ _ => .after ht

theorem Stepping.loop {step : Op Unit} {loop : Nat → Op Unit} (hl : IsLoop step loop) (hs : Stepping c step)
    (n : Nat) : Stepping c (loop n) := by
  induction n with
  | zero => exact fun s => .of_eq_ok (hl.zero s) (.inr (.refl s))
  | succ n ih =>
    intro s
    unfold Runs
    rw [hl.succ]
    split_ifs
    · exact hs.bind ih (fun _ ht => loop_done hl ht n) s
    · exact .inr (.refl s)

/-- The first step of an operation, then its loop with the bound read from the state. -/
theorem Stepping.then_loop {x step : Op Unit} {loop : Nat → Op Unit} (hl : IsLoop step loop) (hx : Stepping c x)
    (hs : Stepping c step) (bound : State → Nat) : Stepping c (x >>= fun _ => get >>= fun s => loop (bound s)) :=
  hx.bind (fun s => hs.loop hl (bound s) s) fun s hd => loop_done hl hd (bound s)

/-- A read that ends the operation when it answers `none`. -/
theorem Reading.bind_stepping {x : Op (Option α)} {g : Option α → Op Unit} (hx : Reading c x)
    (hn : g none = modify fun s => { s with phase := .done }) (hg : ∀ a, Counting c (g (some a))) :
    Stepping c (x >>= g) := fun s => by
  refine (runs_bind _ _).2 ((hx s).mono ?_ fun _ _ h => h)
  rintro (_ | a) t ⟨hfault, ht⟩
  · rw [hn]
    exact .inl ⟨rfl, hfault⟩
  · have ht := ht (Option.some_ne_none a)
    exact (hg a t).mono (fun _ _ hu => .inr (ht.after hu)) fun _ _ => .after ht

theorem decResolve_counting (new : Code) : Counting c (decResolve cfg new) := by
  refine .bind .get fun s => ?_
  split_ifs
  · exact (walk_counting _ _).bind fun _ => .modify
  · exact walk_counting _ _

theorem decAssign_counting (first : Byte) : Counting c (decAssign first) := by
  refine .bind .get fun s => ?_
  split_ifs
  · exact .bind .modify fun _ => .modify
  · exact .pure _

theorem decOutput_counting (new : Code) : Counting c (decOutput new) :=
  (decResolve_counting new).bind fun _ => .bind .get fun _ => emit_counting.bind fun _ =>
    (decAssign_counting _).bind fun _ => .modify

theorem decodeAll_stepping : Stepping c (decodeAll hw) := by
  have hfirst : Stepping c decFirst :=
    readCode_reading.bind_stepping rfl fun _ => (snkWrite_counting _).bind fun _ => .modify
  have hstep : Stepping c (decStep hw) := readCode_reading.bind_stepping rfl decOutput_counting
  have hcleared : Stepping c decodeCleared := hfirst.then_loop (decLoop_isLoop hw) hstep _
  have hclear : ∀ s, Transfers 0 s (decCleared s) := fun s => { Transfers.refl s with }
  exact fun s => .of_eq (decodeAll_run s) ((hcleared _).mono (fun _ _ hu => hu.imp_right (hclear s).after)
    fun _ _ => .after (hclear s))

/-- An operation that makes no transaction of the source, nor any that transfers nothing. -/
def SinkOnly (Q : State → State → Prop) (x : Op α) : Prop :=
  ∀ s, Runs x s (fun _ t => Q s t) (fun e t => Ended False s e t ∧ e ≠ .raised .srcIo)

theorem SinkStop.ne_srcIo (h : SinkStop s e) : e ≠ .raised .srcIo := by
  rcases h with ⟨-, rfl⟩ | ⟨-, rfl | ⟨rfl, -⟩⟩ <;> simp

theorem writeBits_sinkOnly {w : Nat} (v : BitVec w) (n : Nat) : SinkOnly (Transfers 0) (writeBits v n) := fun s =>
  ((writeBits_counting v n s).and (writeBits_runs v n s)).mono (fun _ _ h => h.1) fun _ _ h => ⟨h.1, h.2.2.ne_srcIo⟩

theorem closeWriter_ends (s : State) : Runs closeWriter s (fun _ t => t.fault = s.fault) (Ended c s) := by
  have hflush : Counting c (if s.wrCnt = 0 then pure () else snkWrite s.wrRack) := by
    split_ifs
    · exact .pure _
    · exact snkWrite_counting _
  exact .of_eq (closeWriter_run s) ((runs_bind _ _).2 ((hflush s).mono (fun _ _ ht => ht.fault) fun _ _ h => h))

theorem SinkOnly.bind {x : Op α} {g : α → Op β} (hx : SinkOnly (Transfers 0) x) (hg : ∀ a, SinkOnly Over (g a)) :
    SinkOnly Over (x >>= g) := fun s =>
  (runs_bind _ _).2 ((hx s).mono
    (fun a t ht => (hg a t).mono (fun _ _ => .after ht) fun _ _ ⟨he, hne⟩ => ⟨.after ht he, hne⟩) fun _ _ h => h)

theorem encFinish_sinkOnly : SinkOnly Over encFinish := by
  refine (writeBits_sinkOnly _ _).bind fun _ s => (runs_bind _ _).2 ?_
  exact ((closeWriter_ends s).and (closeWriter_runs s)).mono (fun _ _ ht => ⟨rfl, ht.1⟩)
    fun _ _ h => ⟨h.1, h.2.2.ne_srcIo⟩

/-- ENCODE reads a byte, or finds the end of the source and only writes from there on (44_encoder R121, R122). -/
theorem srcRead_bind_stepping {g : Option Byte → Op Unit} (hc : c) (hn : SinkOnly Over (g none))
    (hg : ∀ b, Counting c (g (some b))) : Stepping c (srcRead >>= g) := fun s => by
  refine (runs_bind _ _).2 ((srcRead_counts s).mono ?_ fun _ _ h => h)
  rintro _ t (⟨rfl, ht, hend⟩ | ⟨b, rfl, ht⟩)
  · exact (hn t).mono (fun _ _ hu => .inl (.after ht hu)) fun _ _ ⟨he, hne⟩ => .after_eof hc ht hend hne he
  · exact (hg b t).mono (fun _ _ hu => .inr (ht.after hu)) fun _ _ => .after ht

theorem encStart_stepping (hc : c) : Stepping c encStart := by
  refine Counting.bind_stepping .modify fun _ => Counting.bind_stepping .modify fun _ => ?_
  refine Counting.bind_stepping .modify fun _ => Counting.bind_stepping .modify fun _ => ?_
  exact srcRead_bind_stepping hc encFinish_sinkOnly fun _ => .modify

theorem encMiss_counting (slot : Nat) (b : Byte) : Counting c (encMiss slot b) := by
  refine .bind .get fun s => (writeBits_counting _ _).bind fun _ => ?_
  have hcur : Counting c (modify fun s => { s with encCur := b.setWidth 12 } : Op PUnit) := .modify
  split_ifs
  · exact .bind .modify fun _ => .bind .modify fun _ => hcur
  · exact hcur

theorem encStep_stepping (hc : c) : Stepping c (encStep cfg) := by
  refine srcRead_bind_stepping hc ?_ fun b => .bind .get fun s => (probe_counting _ _).bind fun found => ?_
  · exact fun s => ((writeBits_sinkOnly s.encCur codeBits).bind fun _ => encFinish_sinkOnly) s
  · cases found with
    | hit _ e => exact .modify
    | miss slot => exact encMiss_counting slot b
    | exhausted => exact .raise

theorem encodeAll_stepping (hc : c) : Stepping c (encodeAll cfg) :=
  (encStart_stepping hc).then_loop (encLoop_isLoop cfg) (encStep_stepping hc) _

/-! ## How every command ends (60_exceptions R140, R142) -/

/-- A response of a command that ends without a fault: status OK, or status EOF from RDBIT or RDBITS. -/
def FaultFree (i : Instr) (w : Word) : Prop :=
  (rspStatus w = 0 ∧ rspFcode w = 0) ∨ w = eofWord ∧ (i = .rdbit ∨ ∃ n, i = .rdbits n)

theorem faultFree_okWord (i : Instr) (found : Bool) (idx : BitVec 13) (data : BitVec 32) :
    FaultFree i (okWord found idx data) := by
  obtain ⟨hstatus, hfcode, -⟩ := fields_responseWord (show okWord found idx data = okWord found idx data from rfl)
  exact .inl ⟨hstatus, hfcode⟩

theorem faultFree_probeWord (i : Instr) {found : Found} (h : found ≠ .exhausted) : FaultFree i (probeWord found) := by
  cases found with
  | miss slot => exact faultFree_okWord ..
  | hit slot e => exact faultFree_okWord ..
  | exhausted => exact absurd rfl h

/-- `body`, of command `i`, answers a response without a fault and records none, or is ended as its transactions
were. -/
def Answering (i : Instr) (body : Op Word) : Prop :=
  ∀ s, Runs body s (fun w t => t.fault = s.fault ∧ FaultFree i w) (Ended (i = .encode) s)

variable {i : Instr}

theorem Answering.pure {w : Word} (h : FaultFree i w) : Answering i (pure w) := fun _ => ⟨rfl, h⟩

theorem Counting.answering {x : Op α} {g : α → Op Word} (hx : Counting (i = .encode) x)
    (hg : ∀ a, Answering i (g a)) : Answering i (x >>= g) := fun s =>
  (runs_bind _ _).2 ((hx s).mono
    (fun a t ht => (hg a t).mono (fun _ _ hu => ⟨hu.1.trans ht.fault, hu.2⟩) fun _ _ => .after ht) fun _ _ h => h)

/-- A command whose last statement but the response records no fault. -/
theorem answering_of_fault_eq {x : Op α} {g : α → Op Word}
    (hx : ∀ s, Runs x s (fun _ t => t.fault = s.fault) (Ended (i = .encode) s))
    (hg : ∀ a, ∃ w, g a = .pure w ∧ FaultFree i w) : Answering i (x >>= g) := fun s => by
  refine (runs_bind _ _).2 ((hx s).mono (fun a t ht => ?_) fun _ _ h => h)
  obtain ⟨w, hw, hfree⟩ := hg a
  rw [hw]
  exact ⟨ht, hfree⟩

theorem Stepping.answering {x : Op Unit} {w : Word} (hx : Stepping (i = .encode) x) (h : FaultFree i w) :
    Answering i (x >>= fun _ => Pure.pure w) :=
  answering_of_fault_eq (fun s => (hx s).mono (fun _ _ ht => ht.elim (fun hd => hd.2) fun ht => ht.fault)
    fun _ _ h => h) fun _ => ⟨w, rfl, h⟩

theorem Reading.answering {x : Op (Option α)} {g : Option α → Op Word} (hx : Reading (i = .encode) x)
    (hg : ∀ o, ∃ w, g o = .pure w ∧ FaultFree i w) : Answering i (x >>= g) :=
  answering_of_fault_eq (fun s => (hx s).mono (fun _ _ ht => ht.1) fun _ _ h => h) hg

/-- Every command is one body, run from its acceptance to its response. -/
theorem exec_answering (i : Instr) : ∃ body, (∀ s, exec i s = runCommand body s) ∧ Answering i body := by
  have hplain : Answering i (Pure.pure okPlain) := .pure (faultFree_okWord ..)
  cases i with
  | rdbit =>
    refine ⟨_, fun _ => rfl, readBit_reading.answering fun o => ?_⟩
    cases o with
    | none => exact ⟨_, rfl, .inr ⟨rfl, .inl rfl⟩⟩
    | some b => exact ⟨_, rfl, faultFree_okWord ..⟩
  | rdbits n =>
    refine ⟨_, fun _ => rfl, (checkWidth_counting n).answering fun _ =>
      (readBitsFrom_reading _ 0).answering fun o => ?_⟩
    cases o with
    | none => exact ⟨_, rfl, .inr ⟨rfl, .inr ⟨n, rfl⟩⟩⟩
    | some v => exact ⟨_, rfl, faultFree_okWord ..⟩
  | wrbit bit =>
    exact ⟨_, fun _ => rfl, checkOpen_counting.answering fun _ => (writeBit_counting bit).answering fun _ => hplain⟩
  | wrbits n value =>
    exact ⟨_, fun _ => rfl, (checkWidth_counting n).answering fun _ => checkOpen_counting.answering fun _ =>
      (writeBits_counting value _).answering fun _ => hplain⟩
  | wrclose =>
    exact ⟨_, fun _ => rfl, checkOpen_counting.answering fun _ =>
      answering_of_fault_eq closeWriter_ends fun _ => ⟨_, rfl, faultFree_okWord ..⟩⟩
  | dclr => exact ⟨do dictClear; pure okPlain, fun _ => rfl, Counting.answering .modify fun _ => hplain⟩
  | dprobe parent ch =>
    refine ⟨_, fun _ => rfl, fun s => (runs_bind _ _).2 ((probe_finds parent ch s).mono ?_ fun _ _ h => h)⟩
    rintro found _ ⟨hfound, rfl⟩
    exact ⟨rfl, faultFree_probeWord _ hfound⟩
  | drsrv slot code parent ch =>
    exact ⟨_, fun _ => rfl, (checkReserve_counting slot code).answering fun _ =>
      Counting.answering .modify fun _ => hplain⟩
  | tclr => exact ⟨do tableClear; pure okPlain, fun _ => rfl, Counting.answering .modify fun _ => hplain⟩
  | tassign code parent ch =>
    exact ⟨_, fun _ => rfl, (checkAssign_counting code).answering fun _ =>
      Counting.answering .modify fun _ => hplain⟩
  | twalk code =>
    exact ⟨_, fun _ => rfl, (walk_counting code 0).answering fun _ => Counting.get.answering fun s =>
      .pure (faultFree_okWord ..)⟩
  | temit => exact ⟨_, fun _ => rfl, emit_counting.answering fun _ => .pure (faultFree_okWord ..)⟩
  | encode =>
    exact ⟨_, fun _ => rfl, checkOpen_counting.answering fun _ =>
      (encodeAll_stepping rfl).answering (faultFree_okWord ..)⟩
  | decode => exact ⟨_, fun _ => rfl, decodeAll_stepping.answering (faultFree_okWord ..)⟩

/-- A command that leaves a fault where none was recorded was ended by that fault. -/
theorem exec_raised (hf : s.fault = none) (h : exec i s = .next t) (ht : t.fault = some f) :
    ∃ u, Ended (i = .encode) s (.raised f) u ∧ t = takeFault f u := by
  obtain ⟨body, hexec, hbody⟩ := exec_answering i
  rcases runCommand_next ((hexec s).symm.trans h) with ⟨g, hg, -⟩ | ⟨-, w, u, hu, rfl⟩ | ⟨-, g, u, hu, rfl⟩
  · cases hf.symm.trans hg
  · have hkept := ((hbody s).of_ok hu).1
    cases hf.symm.trans (hkept.symm.trans ht)
  · have hended := (hbody s).of_error hu
    rw [takeFault_fault, hended.fault, hf] at ht
    obtain rfl : g = f := Option.some.inj ht
    exact ⟨u, hended, rfl⟩

end Sys2Proof.Machine

section

open Sys2Proof Sys2Proof.Machine

/-- Settles O13: no body of a command records a fault itself, and only a transaction that is never answered hangs. -/
theorem commandEndsInOneOfThreeWays : Obligations.CommandEndsInOneOfThreeWays := by
  unfold Obligations.CommandEndsInOneOfThreeWays
  intro i s ha
  obtain ⟨body, hexec, hbody⟩ := exec_answering i
  cases hf : s.fault with
  | some f => exact ⟨_, _, exec_faulted i hf, rfl, .inr (.inr ⟨f, hf, rfl, .inr rfl⟩)⟩
  | none =>
    rw [hexec]
    rcases hr : body s with ⟨w, t⟩ | ⟨f | _, t⟩
    · obtain ⟨hkept, hok | heof⟩ := (hbody s).of_ok hr
      · exact ⟨_, w, runCommand_ok hf hr, rfl, .inl ⟨hok.1, hok.2, hkept.trans hf⟩⟩
      · exact ⟨_, w, runCommand_ok hf hr, rfl, .inr (.inl ⟨heof.1, hkept.trans hf, heof.2⟩)⟩
    · have hended := (hbody s).of_error hr
      obtain ⟨u, hnext, hfault, hrsp, -⟩ := runCommand_records hf (hended.fault.trans hf) hr
      exact ⟨u, _, hnext, hrsp, .inr (.inr ⟨f, hfault, rfl, .inl rfl⟩)⟩
    · exact absurd rfl (ha _ (((hbody s).of_error hr).hung rfl))

end

namespace Sys2Proof.Machine

variable {α β : Type} {c : Prop} {s t u : State} {f : FaultCode} {rest : List PortAnswer} {i : Instr} {n v : Nat}

/-! ## A command whose first transaction fails (60_exceptions R145, R147) -/

/-- When the first transaction fails, none was carried out before it and nothing was moved. -/
theorem Ended.untouched (h : Ended c s (.raised f) t) (hp : PortFault f) (ha : s.answers = .fail :: rest) :
    t.answers = rest ∧ t.src = s.src ∧ t.srcPos = s.srcPos ∧ t.snk = s.snk ∧ t.snkClosed = s.snkClosed := by
  obtain ⟨k, m, rest', hm, hfail, rfl, -⟩ := h.port f rfl hp
  obtain ⟨n, sofar, ⟨done, hdone, hok, hn⟩, hsnk, hcount⟩ := hm.bytes
  have hnone : done = [] := by
    cases done with
    | nil => rfl
    | cons a done =>
      obtain rfl : .fail = a := (List.cons.inj (ha.symm.trans hdone)).1
      exact absurd (hok _ List.mem_cons_self) (by decide)
  subst hnone
  have hzero : n = 0 := (hn (by simp [hfail])).symm
  have hmono := hm.srcPos
  have hsofar : sofar = [] := List.eq_nil_of_length_eq_zero (by omega)
  rw [hsofar, List.append_nil] at hsnk
  rw [ha, hfail] at hdone
  exact ⟨(List.cons.inj hdone).2.symm, hm.src, by simp only; omega, hsnk, hm.snkClosed⟩

/-- `x`, run in `s`, is ended by the fault `f`, with none recorded on the way. -/
def Fails (f : FaultCode) (x : Op α) (s : State) : Prop := ∃ t, x s = .error (.raised f) t ∧ t.fault = s.fault

theorem Fails.bind {x : Op α} (h : Fails f x s) (g : α → Op β) : Fails f (x >>= g) s := by
  obtain ⟨t, hx, hf⟩ := h
  exact ⟨t, op_bind_of_error hx g, hf⟩

/-- What fails in the state that a first statement leaves. -/
theorem Fails.after {x : Op α} {g : α → Op β} {a : α} (hx : x s = .ok a t) (hf : t.fault = s.fault)
    (h : Fails f (g a) t) : Fails f (x >>= g) s := by
  obtain ⟨u, hg, hu⟩ := h
  exact ⟨u, (op_bind_of_ok hx g).trans hg, hu.trans hf⟩

theorem Fails.of_eq {x y : Op α} (hx : x s = y t) (hf : t.fault = s.fault) (h : Fails f y t) : Fails f x s := by
  obtain ⟨u, hy, hu⟩ := h
  exact ⟨u, hx.trans hy, hu.trans hf⟩

theorem failsUntouched_of_fails {body : Op Word} (hf : s.fault = none) (ha : s.answers = .fail :: rest)
    (hp : PortFault f) (hexec : exec i s = runCommand body s) (h : Fails f body s) : FailsUntouched i s f rest := by
  obtain ⟨u, hu, hkept⟩ := h
  obtain ⟨t, hnext, hfault, hrsp, -⟩ := runCommand_records hf (hkept.trans hf) hu
  obtain ⟨u', hended, rfl⟩ := exec_raised hf (hexec.trans hnext) hfault
  exact ⟨_, hexec.trans hnext, hfault, hrsp, hended.untouched hp ha⟩

section FirstFails

variable (ha : s.answers = .fail :: rest)

include ha

theorem transact_fails (f : FaultCode) : Fails f (transact f) s :=
  ⟨{ s with answers := rest }, by rw [transact_run, ha], rfl⟩

theorem srcRead_fails : Fails .srcIo srcRead s := (transact_fails ha _).bind _

theorem snkWrite_fails (ho : s.snkClosed = false) (b : Byte) : Fails .snkIo (snkWrite b) s :=
  .of_eq (snkWrite_open ho b) rfl ((transact_fails ha _).bind _)

theorem readBit_fails (h : s.rdCnt = 0) : Fails .srcIo readBit s :=
  Fails.bind (.of_eq (fillRack_empty h) rfl ((srcRead_fails ha).bind _)) _

/-- The bits left in the rack are read, and then a byte is pulled (40_bitreader R82). -/
theorem readBitsFrom_fails (h : s.rdCnt.toNat < n) : Fails .srcIo (readBitsFrom n v) s := by
  induction n generalizing s v with
  | zero => exact absurd h (Nat.not_lt_zero _)
  | succ n ih =>
    by_cases h0 : s.rdCnt = 0
    · exact (readBit_fails ha h0).bind _
    · have hpred : (s.rdCnt - 1).toNat < n := by bv_omega
      exact .after (readBit_ready h0) rfl (ih ha hpred)

theorem writeBit_fails (ho : s.snkClosed = false) (h : s.wrCnt = 7) (b : Bool) : Fails .snkIo (writeBit b) s :=
  .of_eq (writeBit_fills h b) rfl
    ((snkWrite_fails (s := { s with wrRack := setRackBit s.wrRack 0 b }) ha ho _).bind _)

/-- Bits are placed until the rack is full, and then it is flushed (41_bitwriter R92). -/
theorem writeBits_fails {w : Nat} (value : BitVec w) (ho : s.snkClosed = false) (h : 8 ≤ s.wrCnt.toNat + n) :
    Fails .snkIo (writeBits value n) s := by
  induction n generalizing s with
  | zero => exact absurd h (by omega)
  | succ n ih =>
    by_cases h7 : s.wrCnt = 7
    · exact (writeBit_fails ha ho h7 _).bind _
    · have hsucc : (s.wrCnt + 1).toNat = s.wrCnt.toNat + 1 := by bv_omega
      exact .after (writeBit_places h7 _) rfl (ih ha ho (by simp only [hsucc]; omega))

theorem closeWriter_fails (ho : s.snkClosed = false) (h : s.wrCnt ≠ 0) : Fails .snkIo closeWriter s := by
  refine .of_eq (closeWriter_run s) rfl (Fails.bind ?_ _)
  rw [if_neg h]
  exact snkWrite_fails ha ho _

theorem emit_fails (ho : s.snkClosed = false) (h : s.sp ≠ 0) : Fails .snkIo emit s := by
  obtain ⟨t, ht, hf⟩ := snkWrite_fails (s := { s with sp := s.sp - 1 }) ha ho (stkRead s.stk (s.sp - 1).toNat)
  exact ⟨t, emit_error h ht, hf⟩

theorem encodeAll_fails (cfg : Config) : Fails .srcIo (encodeAll cfg) s := by
  have hstart : Fails .srcIo encStart s :=
    .after (op_modify _ s) rfl (.after (dictClear_run _) rfl (.after (op_modify _ _) rfl (.after (op_modify _ _) rfl
      ((srcRead_fails (s := encCleared s) ha).bind _))))
  exact hstart.bind _

theorem decodeAll_fails : Fails .srcIo (decodeAll hw) s := by
  have hempty : (0 : BitVec 4).toNat < codeBits := by decide
  have hcode : Fails .srcIo readCode (decCleared s) := (readBitsFrom_fails (s := decCleared s) ha hempty).bind _
  exact .of_eq (decodeAll_run s) rfl ((hcode.bind _).bind _)

end FirstFails

end Sys2Proof.Machine

section

open Sys2Proof Sys2Proof.Machine

/-- Settles O18: every transaction before the failing one moved a byte, but for the one by which ENCODE finds the end
of the source. Where the first one fails, so that no byte can have moved, it is reached from the stated registers. -/
theorem portFailureTransfersNothing : Obligations.PortFailureTransfersNothing := by
  unfold Obligations.PortFailureTransfersNothing
  refine ⟨fun i s t f hf h ht hp => ?_, fun s rest b n value hf ha => ?_⟩
  · obtain ⟨u, hended, rfl⟩ := exec_raised hf h ht
    obtain ⟨k, m, rest, hm, hfail, rfl, hk⟩ := hended.port f rfl hp
    obtain ⟨count, sofar, ⟨done, hdone, hok, hcount⟩, hsnk, hbytes⟩ := hm.bytes
    have hlen : done.length = count := hcount (by simp [hfail])
    have hrecorded : m.fault.getD f = f := by rw [hm.fault, hf, Option.getD_none]
    have hrsp : some (faultWord (m.fault.getD f)) = some (faultWord f) := by rw [hrecorded]
    refine ⟨done, rest, sofar, hfail ▸ hdone, hok, rfl, hrsp, hm.snkClosed, hm.src, hsnk, ?_⟩
    simp only [takeFault_src, takeFault_srcPos]
    rcases hk with rfl | ⟨hencode, rfl, hsnkIo, hend⟩
    · exact .inl (hlen ▸ hbytes)
    · exact .inr ⟨hencode, hsnkIo, hend, hlen ▸ hbytes⟩
  · refine ⟨fun h => ?_, fun hl h => ?_, fun ho h => ?_, fun ho hl h => ?_, fun ho h => ?_, fun ho h => ?_,
      fun ho => ?_, ?_⟩
    · exact failsUntouched_of_fails hf ha (.inl rfl) rfl ((readBit_fails ha h).bind _)
    · exact failsUntouched_of_fails hf ha (.inl rfl) rfl
        (.after (checkWidth_legal hl s) rfl ((readBitsFrom_fails ha h).bind _))
    · exact failsUntouched_of_fails hf ha (.inr rfl) rfl
        (.after (checkOpen_open ho) rfl ((writeBit_fails ha ho h b).bind _))
    · exact failsUntouched_of_fails hf ha (.inr rfl) rfl
        (.after (checkWidth_legal hl s) rfl (.after (checkOpen_open ho) rfl ((writeBits_fails ha value ho h).bind _)))
    · exact failsUntouched_of_fails hf ha (.inr rfl) rfl
        (.after (checkOpen_open ho) rfl ((closeWriter_fails ha ho h).bind _))
    · exact failsUntouched_of_fails hf ha (.inr rfl) rfl ((emit_fails ha ho h).bind _)
    · exact failsUntouched_of_fails hf ha (.inl rfl) rfl
        (.after (checkOpen_open ho) rfl ((encodeAll_fails ha hw).bind _))
    · exact failsUntouched_of_fails hf ha (.inl rfl) rfl ((decodeAll_fails ha).bind _)

end

namespace Sys2Proof.Machine

variable {s : State} {body : Op Word} {rest : List PortAnswer}

/-! ## The one way a command stops (70_reset_and_hazards R183) -/

theorem runCommand_ne_refused (body : Op Word) (s : State) (r : Refusal) : runCommand body s ≠ .refused r := by
  unfold runCommand
  split
  · nofun
  · split <;> nofun

/-- A command stops exactly when it is accepted and its body hangs; the inversion beside `runCommand_next`. -/
theorem runCommand_eq_fault {f : Fault} :
    runCommand body s = .fault f ↔ s.fault = none ∧ ∃ t, body s = .error .hung t := by
  cases hf : s.fault with
  | some g => simp [runCommand_faulted hf]
  | none =>
    rcases hb : body s with ⟨w, t⟩ | ⟨g | _, t⟩
    · simp [runCommand_ok hf hb]
    · simp [runCommand_raised hf hb]
    · cases f
      simp [runCommand, hf, hb]

/-- `ReadBit` with an empty rack makes a transaction (40_bitreader R81), and hangs when it is never answered. -/
theorem readBit_hangs (ha : s.answers = .never :: rest) (h : s.rdCnt = 0) :
    readBit s = .error .hung { s with answers := rest } := by
  have htransact : transact .srcIo s = .error .hung { s with answers := rest } := by rw [transact_run, ha]
  have hread : srcRead s = .error .hung { s with answers := rest } := op_bind_of_error htransact _
  have hfill : fillRack s = .error .hung { s with answers := rest } :=
    (fillRack_empty h).trans (op_bind_of_error hread _)
  exact op_bind_of_error hfill _

end Sys2Proof.Machine

section

open Sys2Proof Sys2Proof.Machine

/-- Settles O14: every command is one body run to its response, which stops only where the body hangs, and a body hangs
only at a transaction that is never answered. -/
theorem onlySilentHostStops : Obligations.OnlySilentHostStops := by
  unfold Obligations.OnlySilentHostStops
  refine ⟨fun i s r => ?_, fun i s f h => ?_, fun s rest hf hr ha => ?_⟩
  · obtain ⟨body, hexec, -⟩ := exec_answering i
    rw [hexec]
    exact runCommand_ne_refused body s r
  · obtain ⟨body, hexec, hbody⟩ := exec_answering i
    obtain ⟨-, t, hhung⟩ := runCommand_eq_fault.1 ((hexec s).symm.trans h)
    exact ((hbody s).of_error hhung).hung rfl
  · exact runCommand_eq_fault.2 ⟨hf, _, op_bind_of_error (readBit_hangs ha hr) _⟩

/-- Settles O10: both forms of reset are the one state change `hostReset`, whose fields are those of R170. -/
theorem resetLeavesResetValues : Obligations.ResetLeavesResetValues := by
  unfold Obligations.ResetLeavesResetValues
  exact fun _ _ hh => step_of_reset hh

end
